-- ==== Sys2Proof/Word.lean ====
section
/-! DEFINITION. The bit vectors of the block and the fixed-size register file.

Every value of the spec is an unsigned bit vector of stated width or a natural number with a stated range (R12);
bit 0 is the least significant bit (R11), as in `BitVec`. -/

namespace Sys2Proof

/-- One byte of external memory (R60). -/
abbrev Byte := BitVec 8

/-- A 32-bit byte address of external memory (R60, R63). -/
abbrev Addr := BitVec 32

/-- An 8-bit index into the encoded table (R104). -/
abbrev Index := BitVec 8

/-- A 10-bit code (R90, R91). -/
abbrev Code := BitVec 10

/-- A 6-bit unit: three differential pairs (R96). -/
abbrev PinUnit := BitVec 6

/-- A 64-bit serialised word (R92). -/
abbrev Word64 := BitVec 64

/-- A 24-bit colour, red in bits 23:16, green in 15:8, blue in 7:0 (R100). -/
abbrev Rgb := BitVec 24

/-- A palette index, one of 0..250 (R26, R104). -/
abbrev PalIndex := Fin 251

/-- One slot of the encoded table: the primary word `w0`, sent first, and the secondary word `w1` (R101). -/
structure Entry where
  w0 : Word64
  w1 : Word64
deriving DecidableEq, Repr, Inhabited

/-- A register file of exactly `n` like elements. -/
structure Bank (α : Type) (n : Nat) where
  cells : List α
  size_eq : cells.length = n
deriving DecidableEq, Repr

/-- The file whose element `i` is `f i`. -/
def Bank.tab {α : Type} (n : Nat) (f : Nat → α) : Bank α n :=
  ⟨(List.range n).map f, by simp⟩

/-- The read `x[i]` of R13. -/
def Bank.get {α : Type} {n : Nat} (b : Bank α n) (i : Fin n) : α :=
  b.cells[i.val]'(by rw [b.size_eq]; exact i.isLt)

/-- The write `x[i] <- v` of R13. -/
def Bank.set {α : Type} {n : Nat} (b : Bank α n) (i : Fin n) (v : α) : Bank α n :=
  ⟨b.cells.set i.val v, by simp [b.size_eq]⟩

end Sys2Proof
end

