-- ==== Sys2Proof/Syntax.lean ====
section
/-! DEFINITION. The host commands as a data type, one constructor per row of spec/opcode_table.json, and the call
syntax of R125. -/

namespace Sys2Proof

/-- A host command (R119). Every operand field is unsigned and used as it stands, so each operand is the bit vector of
its field. -/
inductive Instr where
  /-- `INIT` (R260). -/
  | init
  /-- `SET_MODE mode` (R170). -/
  | setMode (mode : BitVec 8)
  /-- `SET_PALETTE index, rgb` (R153). -/
  | setPalette (index : Index) (rgb : Rgb)
  /-- `SET_BACKGROUND rgb` (R155). -/
  | setBackground (rgb : Rgb)
  /-- `SET_BUFFER ptr, width, height` (R172). -/
  | setBuffer (ptr : Addr) (width height : BitVec 12)
  /-- `SET_OFFSET x, y` (R174). -/
  | setOffset (x y : BitVec 12)
  /-- `SET_TEXTBUFFER ptr` (R176). -/
  | setTextbuffer (ptr : Addr)
deriving DecidableEq, Repr

/-- The eight display modes, in the order of their numbers 0..7 (R116). -/
inductive DisplayMode where
  | text80Color
  | text80Mono
  | pk1At320x200
  | pk2At320x200
  | pk4At320x200
  | pk4At160x200
  | pl4At320x200
  | lin8At320x200
deriving DecidableEq, Repr, Inhabited

/-- The argument of `set_mode`: a number, or a name of R116 (R125). -/
inductive ModeArg where
  | number (n : Nat)
  | name (m : DisplayMode)
deriving DecidableEq, Repr

/-- The textual form of a command (R125): a call whose arguments are natural numbers. -/
inductive Call where
  | init
  | setMode (mode : ModeArg)
  | setPalette (index rgb : Nat)
  | setBackground (rgb : Nat)
  | setBuffer (ptr width height : Nat)
  | setOffset (x y : Nat)
  | setTextbuffer (ptr : Nat)
deriving DecidableEq, Repr

end Sys2Proof
end

