-- ==== Sys2Proof/WellFormed.lean ====
section
/-! DEFINITION. Which commands and which calls have an encoding.

A command's operands are bit vectors of exactly their field's width (R119), so a command always has an encoding; out
of range values such as a palette index 251 or a mode 8 are encodable and are defined no-ops (R121), not ill-formed.
What can be ill-formed is a call (R125), whose arguments are numbers: each must fit its field. -/

namespace Sys2Proof

/-- Every command is encodable: R119 gives each operand the whole width of its type. -/
def Instr.wellFormed : Instr → Bool
  | .init => true
  | .setMode _ => true
  | .setPalette _ _ => true
  | .setBackground _ => true
  | .setBuffer _ _ _ => true
  | .setOffset _ _ => true
  | .setTextbuffer _ => true

/-- A call's arguments fit the operand fields of R119 (log 24). -/
def Call.wellFormed : Call → Bool
  | .init => true
  | .setMode (.number n) => decide (n < 2 ^ 8)
  | .setMode (.name _) => true
  | .setPalette index rgb => decide (index < 2 ^ 8) && decide (rgb < 2 ^ 24)
  | .setBackground rgb => decide (rgb < 2 ^ 24)
  | .setBuffer ptr width height => decide (ptr < 2 ^ 32) && decide (width < 2 ^ 12) && decide (height < 2 ^ 12)
  | .setOffset x y => decide (x < 2 ^ 12) && decide (y < 2 ^ 12)
  | .setTextbuffer ptr => decide (ptr < 2 ^ 32)

end Sys2Proof
end

