-- ==== Sys2Proof/Decode.lean ====
section
/-! DEFINITION. The command decoder (R118 to R122), total on all 64-bit words, and after it the encoder. -/

namespace Sys2Proof

/-- Why a word is no command. -/
inductive DecodeError where
  /-- The opcode is reserved: 0x00 or 0x08..0xFF (R120). -/
  | reservedOpcode (op : BitVec 8)
deriving DecidableEq, Repr

/-- Bits 63:56 of a command word, the opcode `OP` (R118). -/
def opcodeField (w : Word64) : BitVec 8 := w.extractLsb' 56 8

/-- The decoder tests `CMD[63:56]` only (R120); reserved operand bits are ignored (R121 (d)). -/
def decode (w : Word64) : Except DecodeError Instr :=
  match (opcodeField w).toNat with
  | 1 => .ok .init
  | 2 => .ok (.setMode (w.extractLsb' 0 8))
  | 3 => .ok (.setPalette (w.extractLsb' 24 8) (w.extractLsb' 0 24))
  | 4 => .ok (.setBackground (w.extractLsb' 0 24))
  | 5 => .ok (.setBuffer (w.extractLsb' 24 32) (w.extractLsb' 12 12) (w.extractLsb' 0 12))
  | 6 => .ok (.setOffset (w.extractLsb' 12 12) (w.extractLsb' 0 12))
  | 7 => .ok (.setTextbuffer (w.extractLsb' 0 32))
  | _ => .error (.reservedOpcode (opcodeField w))

/-- The command word whose bits are `w`, of which the table gives the low `nbits`; every bit above them is 0. A command
is one 64-bit word (R118), so there is one word to lay out. -/
def tableWord (nbits w : Nat) : Word64 := BitVec.ofNat 64 (w % 2 ^ nbits)

/-- The instruction the decoder reads from the word whose bits are `w`. -/
def decodeTableWord (nbits w : Nat) : Option Instr :=
  match decode (tableWord nbits w) with
  | .ok i => some i
  | .error _ => none

/-- The opcode of a command (R119). -/
def opcodeOf : Instr → BitVec 8
  | .init => 0x01
  | .setMode _ => 0x02
  | .setPalette _ _ => 0x03
  | .setBackground _ => 0x04
  | .setBuffer _ _ _ => 0x05
  | .setOffset _ _ => 0x06
  | .setTextbuffer _ => 0x07

/-- The bits of a command's format that are not reserved: the opcode and the operand fields (R119). -/
def fieldMask : Instr → Word64
  | .init => 0xFF00000000000000
  | .setMode _ => 0xFF000000000000FF
  | .setPalette _ _ => 0xFF000000FFFFFFFF
  | .setBackground _ => 0xFF00000000FFFFFF
  | .setBuffer _ _ _ => 0xFFFFFFFFFFFFFFFF
  | .setOffset _ _ => 0xFF00000000FFFFFF
  | .setTextbuffer _ => 0xFF000000FFFFFFFF

/-- The word of a command: the opcode on top, the operands right-aligned, reserved bits 0 (R118, R119). -/
def encode : Instr → Word64
  | .init => 0x01#8 ++ 0#56
  | .setMode mode => 0x02#8 ++ 0#48 ++ mode
  | .setPalette index rgb => 0x03#8 ++ 0#24 ++ index ++ rgb
  | .setBackground rgb => 0x04#8 ++ 0#32 ++ rgb
  | .setBuffer ptr width height => 0x05#8 ++ ptr ++ width ++ height
  | .setOffset x y => 0x06#8 ++ 0#32 ++ x ++ y
  | .setTextbuffer ptr => 0x07#8 ++ 0#24 ++ ptr

/-- The number of a mode (R116). -/
def DisplayMode.number : DisplayMode → BitVec 8
  | .text80Color => 0
  | .text80Mono => 1
  | .pk1At320x200 => 2
  | .pk2At320x200 => 3
  | .pk4At320x200 => 4
  | .pk4At160x200 => 5
  | .pl4At320x200 => 6
  | .lin8At320x200 => 7

/-- The mode of a number; 8..255 are reserved (R116, R117). -/
def DisplayMode.ofNumber? (n : BitVec 8) : Option DisplayMode :=
  match n.toNat with
  | 0 => some .text80Color
  | 1 => some .text80Mono
  | 2 => some .pk1At320x200
  | 3 => some .pk2At320x200
  | 4 => some .pk4At320x200
  | 5 => some .pk4At160x200
  | 6 => some .pl4At320x200
  | 7 => some .lin8At320x200
  | _ => none

/-- The command a call stands for (R125); a call whose arguments do not fit its fields has none (log 24). -/
def Call.assemble (c : Call) : Option Instr :=
  if c.wellFormed then
    match c with
    | .init => some .init
    | .setMode (.number n) => some (.setMode (BitVec.ofNat 8 n))
    | .setMode (.name m) => some (.setMode m.number)
    | .setPalette index rgb => some (.setPalette (BitVec.ofNat 8 index) (BitVec.ofNat 24 rgb))
    | .setBackground rgb => some (.setBackground (BitVec.ofNat 24 rgb))
    | .setBuffer ptr width height =>
      some (.setBuffer (BitVec.ofNat 32 ptr) (BitVec.ofNat 12 width) (BitVec.ofNat 12 height))
    | .setOffset x y => some (.setOffset (BitVec.ofNat 12 x) (BitVec.ofNat 12 y))
    | .setTextbuffer ptr => some (.setTextbuffer (BitVec.ofNat 32 ptr))
  else none

end Sys2Proof
end

