-- ==== Sys2Proof/Config.lean ====
section
/-! DEFINITION. What is fixed for the life of the machine: the parameters and timing constants of R9 and R10, the
environment's vocabulary of events, and the free values. -/

namespace Sys2Proof

namespace Config

/-! The horizontal and vertical timing of R9 and R10 and the regions of a line buffer (R108). They are unfolded by
simp, so that proofs see numerals. -/

/-- First entry of the back porch, `H_BP_START` (R9). -/
@[simp] abbrev hBpStart : Nat := 96
/-- First active entry, `H_ACTIVE_START` (R9). -/
@[simp] abbrev hActiveStart : Nat := 144
/-- First entry of the front porch, `H_FP_START` (R9). -/
@[simp] abbrev hFpStart : Nat := 784
/-- Entries of a line, `H_TOTAL` (R9). -/
@[simp] abbrev hTotal : Nat := 800
/-- Active entries of a line, `H_ACTIVE` (R9). -/
@[simp] abbrev hActive : Nat := 640
/-- Lines of a frame, `V_TOTAL` (R9). -/
@[simp] abbrev vTotal : Nat := 525
/-- Visible lines, `V_ACTIVE` (R9). -/
@[simp] abbrev vActive : Nat := 480
/-- First line of V-sync, `V_SYNC_START` (R9). -/
@[simp] abbrev vSyncStart : Nat := 490
/-- Lines of V-sync, `V_SYNC_LINES` (R9). -/
@[simp] abbrev vSyncLines : Nat := 2
/-- Lines of the text image: 25 rows of 16 (R193). -/
@[simp] abbrev textLines : Nat := 400

end Config

/-- `CH_ORDER` (R9, R96). -/
inductive ChannelOrder where
  | rgb
  | bgr
deriving DecidableEq, Repr

/-- A colour channel. -/
inductive Channel where
  | red
  | green
  | blue
deriving DecidableEq, Repr

/-- The parameters of R9 that a model may vary. Every rule that depends on one is written for any value of it. -/
structure Params where
  /-- `CH_ORDER` (R96). -/
  chOrder : ChannelOrder
  /-- `PAIR_INVERT` (R95). -/
  pairInvert : Bool
  /-- `INV_MASK` (R152). -/
  invMask : Word64
  /-- `BG_INDEX`, one of 0..250 (R9). -/
  bgIndex : PalIndex
  /-- `HSYNC_ACTIVE_LEVEL` (R157). -/
  hsyncActive : Bool
  /-- `VSYNC_ACTIVE_LEVEL` (R157). -/
  vsyncActive : Bool
  /-- `CTL_CODE[C1][C0]` (R156). -/
  ctlCode : Bool → Bool → Code
  /-- `CTL_IDLE` (R156). -/
  ctlIdle : Code
  /-- `SYNC_CHANNEL` (R156). -/
  syncChannel : Channel
  /-- `FONT[ch][line]`, bit 7 leftmost (R111). -/
  font : Byte → BitVec 4 → Byte
  /-- `CURSOR_FIRST_LINE`, one of 0..15 (R9). -/
  cursorFirst : Fin 16
  /-- `CURSOR_LAST_LINE`, one of 0..15 (R9). -/
  cursorLast : Fin 16

namespace Config

/-- FREE VALUE. `FONT` is open in the source and has no default (R111, U15): nothing is known of a glyph row (log 11). -/
opaque font : Byte → BitVec 4 → Byte

/-- FREE VALUE. What `PINS` carries while the pipeline is stopped (U5), at the time a counter gives (log 17). -/
opaque idlePins : Nat → PinUnit

/-- `CTL_CODE` for (C1, C0) = 00, 01, 10, 11 (R9, R156). -/
def ctlCode : Bool → Bool → Code
  | false, false => 0x354
  | false, true => 0x0AB
  | true, false => 0x154
  | true, true => 0x2AB

/-- The column "value for this hardware" of R9. DESIGN CHOICE where R9 calls the value a default (log 10). -/
def hw : Params where
  chOrder := .rgb
  pairInvert := false
  invMask := 0x3FFFFFFF3FFFFFFF
  bgIndex := 250
  hsyncActive := false
  vsyncActive := false
  ctlCode := ctlCode
  ctlIdle := 0x354
  syncChannel := .blue
  font := font
  cursorFirst := 14
  cursorLast := 15

end Config

/-- The environment drives an input port (R41). -/
inductive PortDrive where
  /-- `CMD_VALID` and `CMD` (R118). -/
  | cmd (valid : Bool) (word : Word64)
  | resOk (v : Bool)
  | blinkEn (v : Bool)
  | blinkPhase (v : Bool)
  | curRow (v : BitVec 5)
  | curCol (v : BitVec 7)
  /-- `RST` (R310). -/
  | rst (v : Bool)
deriving DecidableEq, Repr

/-- One event of one agent (R19): the grain at which R75 orders everything. -/
inductive Event where
  /-- The environment drives an input port. -/
  | drive (d : PortDrive)
  /-- The emulator stores a byte into external memory (R61). -/
  | store (a : Addr) (b : Byte)
  /-- The host's command on `CMD` is taken and all its micro-writes are made before any other agent moves. -/
  | command
  /-- The host's command on `CMD` is taken, and its micro-writes are made one at a time by later `microWrite` events, so
  that other agents may move between them (R67). -/
  | commandSplit
  /-- The host makes the next micro-write of the command in progress (R66). -/
  | microWrite
  /-- The handler runs (R230); `answers` are the bytes the environment gives to reads of the listed addresses where they
  differ from what memory holds (R68). -/
  | tick (answers : List (Addr × Byte))
  /-- The pipeline begins a line (R241). -/
  | lineStart
  /-- The pipeline sends one word (R242). -/
  | emit
deriving DecidableEq, Repr, Inhabited

/-- FREE VALUE. The event that happens at a given time beyond the end of the schedule in State: any agent, any input
(log 1). -/
opaque Config.schedule : Nat → Event

end Sys2Proof
end

