-- ==== Sys2Proof/Machine/Encoder.lean ====
section
/-! DEFINITION. The Signal Encoder (40_signal_encoder.md) and the pure functions of the encoded table
(41_palette_cache.md): no state, no flags, no exceptions (R130). -/

namespace Sys2Proof.Machine

/-- The `n`-bit value whose bit `i` is `f i`. -/
def bitsOf : (n : Nat) → (Nat → Bool) → BitVec n
  | 0, _ => 0#0
  | n + 1, f => BitVec.cons (f n) (bitsOf n f)

/-- The number of bits of `v` that are 1 (R12). -/
def popcount {n : Nat} (v : BitVec n) : Nat := (List.range n).countP fun i => v.getLsbD i

/-- The selector `inv` of `ENC` (R131): more than four ones, or exactly four and the low bit 0. -/
def encInverted (d : Byte) : Bool :=
  decide (4 < popcount d) || (decide (popcount d = 4) && !d.getLsbD 0)

/-- Bit `q[i]` of the chain of R131, each bit chained to the previous encoded, uncomplemented bit (R132). -/
def chainBit (inv : Bool) (d : Byte) : Nat → Bool
  | 0 => d.getLsbD 0
  | i + 1 => if inv then !(chainBit inv d i ^^ d.getLsbD (i + 1)) else chainBit inv d i ^^ d.getLsbD (i + 1)

/-- `ENC(d)` (R131), in the layout of R90: bit 9 set and bits 7:0 complemented when inverted, else bit 8 set. -/
def enc (d : Byte) : Code :=
  let q := bitsOf 8 (chainBit (encInverted d) d)
  if encInverted d then 0b10#2 ++ ~~~q else 0b01#2 ++ q

/-- A differential pair (R95): pair bit 0 is the bit and pair bit 1 its complement, both complemented under
`PAIR_INVERT`. -/
def pair (p : Params) (b : Bool) : BitVec 2 :=
  if p.pairInvert then BitVec.ofBool b ++ BitVec.ofBool (!b) else BitVec.ofBool (!b) ++ BitVec.ofBool b

/-- A unit: one bit of each of the red, green and blue codes (R96). -/
def pinUnit (p : Params) (r g b : Bool) : PinUnit :=
  match p.chOrder with
  | .rgb => pair p r ++ pair p g ++ pair p b
  | .bgr => pair p b ++ pair p g ++ pair p r

/-- `SER(r10, g10, b10)` (R138) by the table of R93: unit 0 (code bit 9) on top, structural zeros in bits 63:62 and
31:30. -/
def ser (p : Params) (r g b : Code) : Word64 :=
  let u (n : Nat) : PinUnit := pinUnit p (r.getLsbD n) (g.getLsbD n) (b.getLsbD n)
  0#2 ++ u 9 ++ u 8 ++ u 7 ++ u 6 ++ u 5 ++ 0#2 ++ u 4 ++ u 3 ++ u 2 ++ u 1 ++ u 0

/-- The ten units of a word in wire order, code bit 0 first, the structural bits dropped (R99, R247). -/
def units (w : Word64) : List PinUnit :=
  [w.extractLsb' 0 6, w.extractLsb' 6 6, w.extractLsb' 12 6, w.extractLsb' 18 6, w.extractLsb' 24 6,
   w.extractLsb' 32 6, w.extractLsb' 38 6, w.extractLsb' 44 6, w.extractLsb' 50 6, w.extractLsb' 56 6]

/-- The red channel of a colour (R100). -/
def redOf (c : Rgb) : Byte := c.extractLsb' 16 8

/-- The green channel of a colour (R100). -/
def greenOf (c : Rgb) : Byte := c.extractLsb' 8 8

/-- The blue channel of a colour (R100). -/
def blueOf (c : Rgb) : Byte := c.extractLsb' 0 8

/-- The primary word of a colour (R151). -/
def primaryWord (p : Params) (c : Rgb) : Word64 := ser p (enc (redOf c)) (enc (greenOf c)) (enc (blueOf c))

/-- `ENTRY(rgb)` (R151): the primary word and, by `INV_MASK`, the secondary word (R152). -/
def entry (p : Params) (c : Rgb) : Entry := ⟨primaryWord p c, primaryWord p c ^^^ p.invMask⟩

/-- `CTLWORD(h, v)` (R157): the sync code on `SYNC_CHANNEL`, `CTL_IDLE` on the two other channels. -/
def ctlWord (p : Params) (h v : Bool) : Word64 :=
  let c0 := !(h ^^ p.hsyncActive)
  let c1 := !(v ^^ p.vsyncActive)
  let s := p.ctlCode c1 c0
  match p.syncChannel with
  | .red => ser p s p.ctlIdle p.ctlIdle
  | .green => ser p p.ctlIdle s p.ctlIdle
  | .blue => ser p p.ctlIdle p.ctlIdle s

/-- Control entry `TAB[251 + k]`, `k` in 0..3: H-sync active for even `k`, V-sync active for `k` of 2 and 3, the same
word in both slots (R158, R159). -/
def ctlEntry (p : Params) (k : Nat) : Entry :=
  let w := ctlWord p (k % 2 == 0) (decide (2 ≤ k))
  ⟨w, w⟩

end Sys2Proof.Machine
end

