-- ==== Sys2Proof/Machine/State.lean ====
section
/-! DEFINITION. The state of the block (10_state.md), its input ports, external memory, and the reasons a step can
stop. -/

namespace Sys2Proof.Machine

/-- `STATE` (R31). -/
inductive DriverState where
  | idle
  | running
  | failed
deriving DecidableEq, Repr, Inhabited

/-- The numbers of `STATE` (R31). -/
def DriverState.number : DriverState → Nat
  | .idle => 0
  | .running => 1
  | .failed => 2

/-- One micro-write of a host command (R66, R67): the indivisible write of one register or one table word. A palette
write reaches only entries 0..250 (R50, R153). -/
inductive MicroWrite where
  | mode (m : DisplayMode)
  | fbPtr (v : Addr)
  | fbWidth (v : BitVec 12)
  | fbHeight (v : BitVec 12)
  | offX (v : BitVec 12)
  | offY (v : BitVec 12)
  | textPtr (v : Addr)
  | palRgb (i : PalIndex) (c : Rgb)
  | tabW0 (i : PalIndex) (w : Word64)
  | tabW1 (i : PalIndex) (w : Word64)
deriving DecidableEq, Repr

/-- The levels on the input ports (R41). -/
structure Ports where
  cmd : Word64
  cmdValid : Bool
  resOk : Bool
  blinkEn : Bool
  blinkPhase : Bool
  curRow : BitVec 5
  curCol : BitVec 7
  rst : Bool
deriving DecidableEq, Repr

/-- External memory: the bytes that differ from `unlistedByte`, addresses strictly rising. -/
abbrev Memory := List Host.Cell

/-- The state of the block, its ports and its environment. The last four fields are the model's own. -/
structure State where
  /-- `MODE` (R21). -/
  mode : DisplayMode
  /-- `FB_PTR` (R22). -/
  fbPtr : Addr
  /-- `FB_WIDTH` (R22). -/
  fbWidth : BitVec 12
  /-- `FB_HEIGHT` (R22). -/
  fbHeight : BitVec 12
  /-- `OFF_X` (R23). -/
  offX : BitVec 12
  /-- `OFF_Y` (R23). -/
  offY : BitVec 12
  /-- `TEXT_PTR` (R24). -/
  textPtr : Addr
  /-- `PALRGB[0..250]` (R26). -/
  palRgb : Bank Rgb 251
  /-- `TAB[0..255]` (R27, R28, R29). -/
  tab : Bank Entry 256
  /-- `LB[0]` (R30). -/
  lb0 : Bank Index 800
  /-- `LB[1]` (R30). -/
  lb1 : Bank Index 800
  /-- `STATE` (R31). -/
  drv : DriverState
  /-- `LINE`, 0..524 (R32). -/
  line : Nat
  /-- `BUFIDX` (R33). -/
  bufIdx : Bool
  /-- `TICKS` (R34). -/
  ticks : BitVec 32
  /-- `SRC` (R35). -/
  src : Bool
  /-- `IRQ_EN` (R36). -/
  irqEn : Bool
  /-- `IRQ_PEND` (R36). -/
  irqPend : Bool
  /-- `PIPE_EN` (R37). -/
  pipeEn : Bool
  /-- `PIPE_CFG_OK` (R37). -/
  pipeCfgOk : Bool
  /-- `ABORT[0..3]`, channel `c` in bit `c` (R38). -/
  abort : BitVec 4
  /-- `CUR` (R39). -/
  cur : Bool
  /-- `POS`, 0..800 (R39). -/
  pos : Nat
  /-- `PHASE` (R39). -/
  phase : Bool
  /-- `IDX` (R39). -/
  idx : Index
  /-- `OUT64`, oldest word first (R246). -/
  out64 : List Word64
  /-- External memory (R61). -/
  mem : Memory
  /-- The input ports (R41). -/
  ports : Ports
  /-- MODEL'S OWN. The micro-writes still to be made of the host command in progress (R67). -/
  hostPend : List MicroWrite
  /-- MODEL'S OWN. The addresses of the `MemRead`s made, oldest first (R69). -/
  memReads : List Addr
  /-- MODEL'S OWN. The events still to happen, soonest first (log 1). -/
  sched : List Event
  /-- MODEL'S OWN. The steps made: the argument of the free values `Config.schedule` (log 1) and `Config.idlePins`
  (log 17). -/
  now : Nat
deriving DecidableEq, Repr

/-- Why a run stops with a fault. No host command raises one. -/
inductive Fault where
  /-- Raised by a `LINE_START` while the interrupt is pending: the schedule breaks the tick deadline (R322), and R323
  and U4 treat such a schedule as a fault. Safe: the model stops where the hardware goes on (log 12). -/
  | handlerOverrun
  /-- Raised by an `EMIT` whose index is 255: the emitted word is unspecified and U3 treats it as a fault. Safe: no
  state a run reaches holds such an index (R47; log 14). -/
  | unassignedIndex
deriving DecidableEq, Repr

/-- Why a step is refused. -/
inductive Refusal where
  /-- Raised by a dispatch arm without a meaning; no arm has it. Safe. -/
  | notModelled (mnemonic : String)
  /-- Raised when the host issues a command while `RST` is asserted: commands are not accepted then (R310), and U20
  treats one as outside the domain. Safe: the model stops where the hardware takes no command (log 15). -/
  | commandDuringReset
deriving DecidableEq, Repr

/-- What an unlisted address of external memory holds. DESIGN CHOICE (log 5): "every other address reads `00`". -/
def unlistedByte : Byte := 0

/-- The ports before the environment drives them (log 9). -/
def Ports.initial : Ports where
  cmd := 0
  cmdValid := false
  resOk := true
  blinkEn := false
  blinkPhase := false
  curRow := 0
  curCol := 0
  rst := false

/-- `TAB` after reset: R52 for 0..250; the control words for 251..254 (log 7) and zero for 255 (log 8). -/
def resetTab : Bank Entry 256 :=
  .tab 256 fun i =>
    if i < 251 then entry Config.hw 0
    else if i < 255 then ctlEntry Config.hw (i - 251)
    else ⟨0, 0⟩

/-- The machine after power-on (R52, R310). -/
def State.reset : State where
  mode := .text80Color
  fbPtr := 0
  fbWidth := 0
  fbHeight := 0
  offX := 0
  offY := 0
  textPtr := 0
  palRgb := .tab 251 fun _ => 0
  tab := resetTab
  lb0 := .tab 800 fun _ => 252
  lb1 := .tab 800 fun _ => 252
  drv := .idle
  line := 0
  bufIdx := false
  ticks := 0
  src := false
  irqEn := false
  irqPend := false
  pipeEn := false
  pipeCfgOk := false
  abort := 0
  cur := false
  pos := 800
  phase := false
  idx := 252
  out64 := []
  mem := []
  ports := .initial
  hostPend := []
  memReads := []
  sched := []
  now := 0

end Sys2Proof.Machine
end

