-- ==== Sys2Proof/Machine/Operands.lean ====
section
/-! DEFINITION. The operand forms: palette indices, display modes and their descriptors, table and buffer indices. -/

namespace Sys2Proof.Machine

/-- The palette entry an 8-bit index operand selects: 0..250, none for 251..255 (R104, R153). -/
def palIndex? (index : Index) : Option PalIndex :=
  if h : index.toNat < 251 then some ⟨index.toNat, h⟩ else none

/-- The slot of `TAB` an 8-bit index selects (R60). -/
def slotOf (index : Index) : Fin 256 := ⟨index.toNat, index.isLt⟩

/-- The slot of `TAB` of a palette entry (R27). -/
def palSlot (i : PalIndex) : Fin 256 := ⟨i.val, Nat.lt_trans i.isLt (by decide)⟩

/-- The palette entry as an 8-bit index (R104). -/
def indexOfPal (i : PalIndex) : Index := BitVec.ofNat 8 i.val

/-- The class of a display mode; a packed mode has its bits per pixel (R116). -/
inductive ModeClass where
  | text
  | packed (bpp : Nat)
  | planar
  | linear8
deriving DecidableEq, Repr

/-- The descriptor of a display mode: the columns of R116. -/
structure ModeInfo where
  cls : ModeClass
  /-- Output entries per logical pixel. -/
  hscale : Nat
  /-- Lines per logical row. -/
  vscale : Nat
  doubleScanned : Bool
deriving DecidableEq, Repr

/-- The table of R116. -/
def modeInfo : DisplayMode → ModeInfo
  | .text80Color => ⟨.text, 1, 1, false⟩
  | .text80Mono => ⟨.text, 1, 1, false⟩
  | .pk1At320x200 => ⟨.packed 1, 2, 2, true⟩
  | .pk2At320x200 => ⟨.packed 2, 2, 2, true⟩
  | .pk4At320x200 => ⟨.packed 4, 2, 2, true⟩
  | .pk4At160x200 => ⟨.packed 4, 4, 2, true⟩
  | .pl4At320x200 => ⟨.planar, 2, 2, true⟩
  | .lin8At320x200 => ⟨.linear8, 2, 2, true⟩

/-- `ceil_div(a, b)` (R12). -/
def ceilDiv (a b : Nat) : Nat := (a + b - 1) / b

/-- `base + offset` modulo 2^32 (R63). -/
def addrAt (base : Addr) (offset : Nat) : Addr := base + BitVec.ofNat 32 offset

end Sys2Proof.Machine
end

