-- ==== Sys2Proof/Machine/Flags.lean ====
section
/-! DEFINITION. The single-bit conditions: V-sync, the reuse decision, and when each agent has a step. No condition is
a side effect of arithmetic (R44). -/

namespace Sys2Proof.Machine

/-- `v(L)`: V-sync is active on lines 490 and 491 (R233). -/
def vsync (line : Nat) : Bool :=
  decide (Config.vSyncStart ≤ line) && decide (line < Config.vSyncStart + Config.vSyncLines)

/-- The index of the H-sync region of a line (R105). -/
def hsyncIndex (line : Nat) : Index := if vsync line then 253 else 251

/-- The index of every other blanking entry of a line (R105). -/
def blankIndex (line : Nat) : Index := if vsync line then 254 else 252

/-- `reuse`: an odd line of a double-scanned mode repeats the line before it (R234). -/
def reuseLine (m : DisplayMode) (line : Nat) : Bool :=
  (modeInfo m).doubleScanned && decide (line % 2 = 1)

/-- `TICK` is enabled: RUNNING, interrupt enabled and pending (R287), and `RST` released (R310). -/
def State.tickEnabled (s : State) : Bool :=
  !s.ports.rst && decide (s.drv = .running) && s.irqEn && s.irqPend

/-- `LINE_START` is enabled: RUNNING, pipeline enabled, the line finished (R241), and `RST` released (R310). -/
def State.lineStartEnabled (s : State) : Bool :=
  !s.ports.rst && decide (s.drv = .running) && s.pipeEn && decide (s.pos = Config.hTotal)

/-- `EMIT` is enabled: RUNNING, pipeline enabled, the line not finished (R242), and `RST` released (R310). -/
def State.emitEnabled (s : State) : Bool :=
  !s.ports.rst && decide (s.drv = .running) && s.pipeEn && decide (s.pos < Config.hTotal)

end Sys2Proof.Machine
end

