-- ==== Sys2Proof/Machine/Ops.lean ====
section
/-! DEFINITION. The named operations over external memory, the register files and the driver state; taking the one
exception; the interrupt; reset; the input and output ports. -/

namespace Sys2Proof.Machine

/-! ## External memory (20_memory.md) -/

/-- The byte at an address. -/
def Memory.read : Memory → Nat → Byte
  | [], _ => unlistedByte
  | c :: rest, a => if c.1 = a then c.2 else Memory.read rest a

/-- The environment stores a byte; the canonical form is kept (log 5). -/
def Memory.write : Memory → Nat → Byte → Memory
  | [], a, b => if b = unlistedByte then [] else [(a, b)]
  | c :: rest, a, b =>
    if a < c.1 then (if b = unlistedByte then c :: rest else (a, b) :: c :: rest)
    else if a = c.1 then (if b = unlistedByte then rest else (a, b) :: rest)
    else c :: Memory.write rest a b

/-- The canonical form: addresses strictly rising and below 2^32, no entry equal to an unlisted byte. -/
def Memory.wf (m : Memory) : Bool :=
  decide (m.Pairwise fun c d => c.1 < d.1) && m.all fun c => decide (c.1 < 2 ^ 32) && decide (c.2 ≠ unlistedByte)

/-- The emulator stores a byte (R61); the block itself never does. -/
def State.storeByte (s : State) (a : Addr) (b : Byte) : State := { s with mem := s.mem.write a.toNat b }

/-- The environment's answer to `MemRead(a, 1)` in a `TICK` (R68): the answer the event carries for the address, else
the byte memory holds (log 6). -/
def memAnswer (m : Memory) (answers : List (Addr × Byte)) (a : Addr) : Byte :=
  match answers.lookup a with
  | some b => b
  | none => m.read a.toNat

/-! ## Register files -/

/-- `LB[b]` (R30). -/
def State.lb (s : State) (b : Bool) : Bank Index 800 := if b then s.lb1 else s.lb0

/-- Every element of `LB[b]` is written (R237). -/
def State.setLb (s : State) (b : Bool) (v : Bank Index 800) : State :=
  if b then { s with lb1 := v } else { s with lb0 := v }

/-- `LB[b][k]`; the pipeline asks only for `k` in 0..799 (R242). -/
def State.lbEntry (s : State) (b : Bool) (k : Nat) : Index :=
  if h : k < 800 then (s.lb b).get ⟨k, h⟩ else 252

/-- `TAB[i]` (R60). -/
def State.tabEntry (s : State) (i : Index) : Entry := s.tab.get (slotOf i)

/-! ## Micro-writes (R66, R67) -/

/-- One micro-write: one register or one table word, nothing else. -/
def State.applyMicro (s : State) : MicroWrite → State
  | .mode m => { s with mode := m }
  | .fbPtr v => { s with fbPtr := v }
  | .fbWidth v => { s with fbWidth := v }
  | .fbHeight v => { s with fbHeight := v }
  | .offX v => { s with offX := v }
  | .offY v => { s with offY := v }
  | .textPtr v => { s with textPtr := v }
  | .palRgb i c => { s with palRgb := s.palRgb.set i c }
  | .tabW0 i w => { s with tab := s.tab.set (palSlot i) { s.tab.get (palSlot i) with w0 := w } }
  | .tabW1 i w => { s with tab := s.tab.set (palSlot i) { s.tab.get (palSlot i) with w1 := w } }

/-- Micro-writes in the order given (R74). -/
def State.applyMicros (s : State) (ws : List MicroWrite) : State := ws.foldl State.applyMicro s

/-- The host makes the next micro-write of its command in progress; with none in progress nothing happens (R67). -/
def State.nextMicro (s : State) : State :=
  match s.hostPend with
  | [] => s
  | w :: rest => { s.applyMicro w with hostPend := rest }

/-- The host begins a command whose micro-writes are made one at a time (R67). -/
def State.setPend (s : State) (ws : List MicroWrite) : State := { s with hostPend := ws }

/-- The word on `CMD` is taken (R118); the model lowers `CMD_VALID` with it, so that one presentation is one command
(log 3). -/
def State.takeCommand (s : State) : State := { s with ports := { s.ports with cmdValid := false } }

/-! ## The exception and the interrupt (60_exceptions.md) -/

/-- Delivery of `FatalInit`: `STATE <- FAILED` and nothing else (R281). There is no vector, no saved state and no
return: only reset leaves FAILED. -/
def State.raiseFatalInit (s : State) : State := { s with drv := .failed }

/-- The scanline interrupt is raised if it is enabled (R241, R286). -/
def State.raiseIrq (s : State) : State := { s with irqPend := s.irqPend || s.irqEn }

/-- "acknowledge the interrupt source": the end of the handler, which stands for the return (R238, R290). -/
def State.ackIrq (s : State) : State := { s with irqPend := false }

/-! ## The steps of INIT (R260) -/

/-- Step 1, "disable interrupt source". -/
def State.disableIrq (s : State) : State := { s with irqEn := false }

/-- Step 2, first part: every channel is told to stop (R262). -/
def State.raiseAborts (s : State) : State := { s with abort := 0b1111 }

/-- Step 2, "block until drained": the line in progress is abandoned (R40, R262). -/
def State.drain (s : State) : State := { s with pos := 800, phase := false }

/-- Step 2, last part: "all transfer-abort flags cleared before returning". -/
def State.clearAborts (s : State) : State := { s with abort := 0 }

/-- Step 3, "disable the serial-output pipeline stages". -/
def State.disablePipe (s : State) : State := { s with pipeEn := false }

/-- Step 4, "reload the pipeline program/configuration" (R263). -/
def State.loadPipeConfig (s : State) : State := { s with pipeCfgOk := true }

/-- The table with the four control entries written (R159). -/
def ctrlTable (p : Params) (t : Bank Entry 256) : Bank Entry 256 :=
  .tab 256 fun i =>
    if 251 ≤ i ∧ i < 255 then ctlEntry p (i - 251) else t.get (slotOf (BitVec.ofNat 8 i))

/-- The table with the palette entries written from the colours (R160). -/
def palTable (p : Params) (colours : Bank Rgb 251) (t : Bank Entry 256) : Bank Entry 256 :=
  .tab 256 fun i =>
    if h : i < 251 then entry p (colours.get ⟨i, h⟩) else t.get (slotOf (BitVec.ofNat 8 i))

/-- Step 5, first part: `BUILD_CTRL` (R159). -/
def State.buildCtrl (s : State) (p : Params) : State := { s with tab := ctrlTable p s.tab }

/-- Step 5, second part: `REBUILD_PAL` (R160). -/
def State.rebuildPal (s : State) (p : Params) : State := { s with tab := palTable p s.palRgb s.tab }

/-- Step 6 of INIT (R265) and step 4 of TICK (R238): `SRC <- BUFIDX`. -/
def State.rearm (s : State) : State := { s with src := s.bufIdx }

/-- Step 7, "re-enable interrupt". -/
def State.enableIrq (s : State) : State := { s with irqEn := true }

/-- Step 8, "start the transfer chain". -/
def State.startChain (s : State) : State := { s with pipeEn := true, drv := .running }

/-! ## Reset and the input ports (R310, R41) -/

/-- `RESET` (R310): every item of R52 takes its reset value and the observations start again. External memory, the
ports and the schedule are the environment's (R312; log 21); a host command in progress is dropped (log 18). -/
def State.resetBlock (s : State) : State :=
  { State.reset with mem := s.mem, ports := s.ports, sched := s.sched, now := s.now }

/-- The levels on the ports after the environment drives one of them (R41). -/
def Ports.drive (q : Ports) : PortDrive → Ports
  | .cmd valid word => { q with cmdValid := valid, cmd := word }
  | .resOk v => { q with resOk := v }
  | .blinkEn v => { q with blinkEn := v }
  | .blinkPhase v => { q with blinkPhase := v }
  | .curRow v => { q with curRow := v }
  | .curCol v => { q with curCol := v }
  | .rst v => { q with rst := v }

/-- The environment drives a port: the level changes, and asserting `RST` resets the block (R310). -/
def State.drivePort (s : State) (d : PortDrive) : State :=
  let t : State := { s with ports := s.ports.drive d }
  if d = .rst true then t.resetBlock else t

/-! ## The output ports (R42) -/

/-- `OUT6`: each word of `OUT64` contributes its ten units (R247). -/
def State.out6 (s : State) : List PinUnit := s.out64.flatMap units

/-- `TICKS_OUT` carries `TICKS` (R42). -/
def State.ticksOut (s : State) : BitVec 32 := s.ticks

/-- `PINS` carries the current unit of the serial output (R42): after an `EMIT`, the last unit sent. While the pipeline is
stopped, and before the first word since reset, it is a free value (U5; log 17). DESIGN CHOICE, unsafe (log 25): while the
pipeline is enabled and no unit is being sent, as after a re-`INIT` and before its first `EMIT` (R270), it keeps the last
unit sent before. -/
def State.pins (s : State) : PinUnit :=
  if s.drv = .running ∧ s.pipeEn = true ∧ s.ports.rst = false then
    (s.out6.getLast?).getD (Config.idlePins s.now)
  else Config.idlePins s.now

/-- A word is handed to the serialiser: `emit(w)` (R13, R246). -/
def State.emitWord (s : State) (w : Word64) : State := { s with out64 := s.out64 ++ [w] }

end Sys2Proof.Machine
end

