-- ==== Sys2Proof/Machine/ConfigCommands.lean ====
section
/-! DEFINITION. `SET_MODE`, `SET_BUFFER`, `SET_OFFSET`, `SET_TEXTBUFFER` (42_config_commands.md). Each is accepted in
every `STATE`, reads no state and cannot fail (R177). -/

namespace Sys2Proof.Machine

/-- The micro-write of `SET_MODE`: none for a reserved mode number (R170, R171). -/
def setModeWrites (mode : BitVec 8) : List MicroWrite :=
  match DisplayMode.ofNumber? mode with
  | some m => [.mode m]
  | none => []

/-- The micro-writes of `SET_BUFFER`: pointer, width, height (R172). -/
def setBufferWrites (ptr : Addr) (width height : BitVec 12) : List MicroWrite :=
  [.fbPtr ptr, .fbWidth width, .fbHeight height]

/-- The micro-writes of `SET_OFFSET`: x, then y (R174). -/
def setOffsetWrites (x y : BitVec 12) : List MicroWrite := [.offX x, .offY y]

/-- The micro-write of `SET_TEXTBUFFER` (R176). -/
def setTextbufferWrites (ptr : Addr) : List MicroWrite := [.textPtr ptr]

/-- `SET_MODE mode` (R170). -/
def execSetMode (mode : BitVec 8) (s : State) : Host.Outcome State Fault Refusal :=
  .next (s.applyMicros (setModeWrites mode))

/-- `SET_BUFFER ptr, width, height` (R172). -/
def execSetBuffer (ptr : Addr) (width height : BitVec 12) (s : State) : Host.Outcome State Fault Refusal :=
  .next (s.applyMicros (setBufferWrites ptr width height))

/-- `SET_OFFSET x, y` (R174). -/
def execSetOffset (x y : BitVec 12) (s : State) : Host.Outcome State Fault Refusal :=
  .next (s.applyMicros (setOffsetWrites x y))

/-- `SET_TEXTBUFFER ptr` (R176). -/
def execSetTextbuffer (ptr : Addr) (s : State) : Host.Outcome State Fault Refusal :=
  .next (s.applyMicros (setTextbufferWrites ptr))

end Sys2Proof.Machine
end

