-- ==== Sys2Proof/Machine/Init.lean ====
section
/-! DEFINITION. `INIT` (45_init.md). -/

namespace Sys2Proof.Machine

/-- The eight steps of `INIT` in the source's order, after the resource check (R260). -/
def State.initSequence (s : State) (p : Params) : State :=
  let s := s.disableIrq
  let s := s.raiseAborts.drain.clearAborts
  let s := s.disablePipe
  let s := s.loadPipeConfig
  let s := (s.buildCtrl p).rebuildPal p
  let s := s.rearm
  let s := s.ackIrq
  let s := s.enableIrq
  s.startChain

/-- `INIT` (R260), one indivisible step: a no-op in FAILED (R271), `FatalInit` without resources (R261), else the
sequence. -/
def execInit (s : State) : Host.Outcome State Fault Refusal :=
  if s.drv = .failed then .next s
  else if s.ports.resOk = false then .next s.raiseFatalInit
  else .next (s.initSequence Config.hw)

end Sys2Proof.Machine
end

