-- ==== Sys2Proof/Machine/Palette.lean ====
section
/-! DEFINITION. `SET_PALETTE` and `SET_BACKGROUND` (41_palette_cache.md). -/

namespace Sys2Proof.Machine

/-- The micro-writes of `SET_PALETTE` to an accepted index, in order: colour, `w0`, `w1` (R153). -/
def paletteWrites (i : PalIndex) (c : Rgb) : List MicroWrite :=
  [.palRgb i c, .tabW0 i (entry Config.hw c).w0, .tabW1 i (entry Config.hw c).w1]

/-- The micro-writes of `SET_PALETTE`: none when the index is 251 or more, a silently ignored no-op (R153). -/
def setPaletteWrites (index : Index) (rgb : Rgb) : List MicroWrite :=
  match palIndex? index with
  | some i => paletteWrites i rgb
  | none => []

/-- The micro-writes of `SET_BACKGROUND`: those of `SET_PALETTE(BG_INDEX, rgb)` (R155). -/
def setBackgroundWrites (rgb : Rgb) : List MicroWrite := paletteWrites Config.hw.bgIndex rgb

/-- `SET_PALETTE index, rgb` (R153), accepted in every `STATE`. -/
def execSetPalette (index : Index) (rgb : Rgb) (s : State) : Host.Outcome State Fault Refusal :=
  .next (s.applyMicros (setPaletteWrites index rgb))

/-- `SET_BACKGROUND rgb` (R155). -/
def execSetBackground (rgb : Rgb) (s : State) : Host.Outcome State Fault Refusal :=
  .next (s.applyMicros (setBackgroundWrites rgb))

end Sys2Proof.Machine
end

