-- ==== Sys2Proof/Machine/Dispatch.lean ====
section
/-! DEFINITION. The dispatch of the seven host commands to their meanings. -/

namespace Sys2Proof.Machine

def exec (i : Instr) (s : State) : Host.Outcome State Fault Refusal :=
  match i with
  | .init => Sys2Proof.Machine.execInit s
  | .setMode mode => Sys2Proof.Machine.execSetMode mode s
  | .setPalette index rgb => Sys2Proof.Machine.execSetPalette index rgb s
  | .setBackground rgb => Sys2Proof.Machine.execSetBackground rgb s
  | .setBuffer ptr width height => Sys2Proof.Machine.execSetBuffer ptr width height s
  | .setOffset x y => Sys2Proof.Machine.execSetOffset x y s
  | .setTextbuffer ptr => Sys2Proof.Machine.execSetTextbuffer ptr s

end Sys2Proof.Machine
end

