-- ==== Sys2Proof/Machine/ModeDecoder.lean ====
section
/-! DEFINITION. The Mode Decoder (43_mode_decoder.md): the 640 palette indices of one visible line, a pure function of
the line number, the sampled configuration and the bytes the environment answers.

`rd a` is the answer to `MemRead(a, 1)` in this tick. Each byte is read once per tick (R69, R202), so the answers of
one tick are a function of the address, whatever the emulator stores meanwhile; which addresses are read, and in which
order, is `lineReads`. -/

namespace Sys2Proof.Machine

/-- The record `cfg` of `SAMPLE()` (R231). -/
structure Cfg where
  mode : DisplayMode
  fbPtr : Addr
  w : BitVec 12
  h : BitVec 12
  ox : BitVec 12
  oy : BitVec 12
  textPtr : Addr
  blinkEn : Bool
  blinkPhase : Bool
  curRow : BitVec 5
  curCol : BitVec 7
deriving DecidableEq, Repr

/-- The background index (R9, R201). -/
def bgFill (p : Params) : Index := indexOfPal p.bgIndex

/-! ## Text modes (R193 to R199, R216) -/

/-- The address of the character of the cell at text row `r`, column `c`; its attribute is the next byte (R194). -/
def cellAddr (cfg : Cfg) (r c : Nat) : Addr := addrAt cfg.textPtr (2 * (r * 80 + c))

/-- The foreground index of an attribute (R195). -/
def fgOf (at_ : Byte) : Index := (at_.extractLsb' 0 4).setWidth 8

/-- The background index of an attribute: four bits, or three when blinking is enabled (R195). -/
def bgOf (blinkEn : Bool) (at_ : Byte) : Index :=
  if blinkEn then (at_.extractLsb' 4 3).setWidth 8 else (at_.extractLsb' 4 4).setWidth 8

/-- The cell's glyph is hidden by the blink attribute (R198). -/
def blinkHides (cfg : Cfg) (at_ : Byte) : Bool := cfg.blinkEn && at_.getLsbD 7 && cfg.blinkPhase

/-- The cursor covers glyph line `gl` of the cell at row `r`, column `c` (R197). -/
def cursorCovers (p : Params) (cfg : Cfg) (r c gl : Nat) : Bool :=
  cfg.blinkPhase && decide (r = cfg.curRow.toNat) && decide (c = cfg.curCol.toNat) &&
    decide (p.cursorFirst.val ≤ gl) && decide (gl ≤ p.cursorLast.val)

/-- The eight bits of a cell's glyph line: blink wins over cursor, cursor over glyph (R199). -/
def glyphBits (p : Params) (cfg : Cfg) (r c gl : Nat) (ch at_ : Byte) : Byte :=
  if blinkHides cfg at_ then 0x00
  else if cursorCovers p cfg r c gl then 0xFF
  else p.font ch (BitVec.ofNat 4 gl)

/-- Active entry `X` of line `L` in a text mode (R199). -/
def textPixel (p : Params) (cfg : Cfg) (L : Nat) (rd : Addr → Byte) (X : Nat) : Index :=
  if Config.textLines ≤ L then bgFill p
  else
    let r := L / 16
    let gl := L % 16
    let c := X / 8
    let a := cellAddr cfg r c
    let at_ := rd (a + 1)
    if (glyphBits p cfg r c gl (rd a) at_).getLsbD (7 - X % 8) then fgOf at_ else bgOf cfg.blinkEn at_

/-! ## Graphics modes (R200 to R214) -/

/-- The logical row of the framebuffer that line `L` shows, or none above or below the image (R200). -/
def sourceRow? (cfg : Cfg) (L : Nat) : Option Nat :=
  let ly := L / (modeInfo cfg.mode).vscale
  if ly < cfg.oy.toNat ∨ cfg.h.toNat ≤ ly - cfg.oy.toNat then none else some (ly - cfg.oy.toNat)

/-- The logical column of the framebuffer that active entry `X` shows, or none beside the image (R200). -/
def sourceCol? (cfg : Cfg) (X : Nat) : Option Nat :=
  let lx := X / (modeInfo cfg.mode).hscale
  if lx < cfg.ox.toNat ∨ cfg.w.toNat ≤ lx - cfg.ox.toNat then none else some (lx - cfg.ox.toNat)

/-- The byte holding a packed pixel (R204). -/
def packedAddr (bpp : Nat) (cfg : Cfg) (row col : Nat) : Addr :=
  addrAt cfg.fbPtr (row * ceilDiv (cfg.w.toNat * bpp) 8 + col / (8 / bpp))

/-- `PIXEL_PK(bpp)` (R204). -/
def packedPixel (bpp : Nat) (cfg : Cfg) (rd : Addr → Byte) (row col : Nat) : Index :=
  let byte := rd (packedAddr bpp cfg row col)
  let sh := 8 - bpp * (col % (8 / bpp) + 1)
  (byte >>> sh) &&& BitVec.ofNat 8 (2 ^ bpp - 1)

/-- The address of plane 0 of the group holding a planar pixel; plane `p` is at the `p`-th byte after it (R210). -/
def planarBase (cfg : Cfg) (row col : Nat) : Addr :=
  addrAt cfg.fbPtr (4 * (row * ceilDiv cfg.w.toNat 8 + col / 8))

/-- `SPREAD(b)`: bit `4*i` of the result is bit `i` of `b`, every other bit 0 (R211). -/
def spread (b : Byte) : BitVec 32 := bitsOf 32 fun k => k % 4 == 0 && b.getLsbD (k / 4)

/-- `PIXEL_PL` (R210). -/
def planarPixel (cfg : Cfg) (rd : Addr → Byte) (row col : Nat) : Index :=
  let base := planarBase cfg row col
  let word := spread (rd base) ||| (spread (rd (base + 1)) <<< 1) ||| (spread (rd (base + 2)) <<< 2) |||
    (spread (rd (base + 3)) <<< 3)
  (word.extractLsb' (4 * (7 - col % 8)) 4).setWidth 8

/-- The byte of a linear pixel (R214). -/
def linearAddr (cfg : Cfg) (row col : Nat) : Addr := addrAt cfg.fbPtr (row * cfg.w.toNat + col)

/-- `PIXEL_L8`: a byte of 251 or more is index 0 (R214). -/
def linearPixel (cfg : Cfg) (rd : Addr → Byte) (row col : Nat) : Index :=
  let byte := rd (linearAddr cfg row col)
  if 251 ≤ byte.toNat then 0 else byte

/-- `DECODE_GFX` with the pixel function `pixel`, at active entry `X` of line `L` (R200, R201). -/
def gfxPixel (p : Params) (cfg : Cfg) (L : Nat) (pixel : Nat → Nat → Index) (X : Nat) : Index :=
  match sourceRow? cfg L, sourceCol? cfg X with
  | some row, some col => pixel row col
  | _, _ => bgFill p

/-- `DECODE_LINE(L, cfg)` at active entry `X`: the dispatch on the mode (R191). -/
def decodePixel (p : Params) (cfg : Cfg) (L : Nat) (rd : Addr → Byte) (X : Nat) : Index :=
  match (modeInfo cfg.mode).cls with
  | .text => textPixel p cfg L rd X
  | .packed bpp => gfxPixel p cfg L (packedPixel bpp cfg rd) X
  | .planar => gfxPixel p cfg L (planarPixel cfg rd) X
  | .linear8 => gfxPixel p cfg L (linearPixel cfg rd) X

/-! ## The reads of a line (R69, R72, R194, R202) -/

/-- The addresses in the order of their first use, given those already read: the per-line memo of R202. -/
def firstUses (memo : List Addr) : List Addr → List Addr
  | [] => []
  | a :: rest => if a ∈ memo then firstUses memo rest else a :: firstUses (a :: memo) rest

/-- The bytes a framebuffer pixel needs, in order; a planar pixel needs plane 0 to plane 3 (R69). -/
def pixelAddrs (cfg : Cfg) (row col : Nat) : List Addr :=
  match (modeInfo cfg.mode).cls with
  | .text => []
  | .packed bpp => [packedAddr bpp cfg row col]
  | .planar =>
    let base := planarBase cfg row col
    [base, base + 1, base + 2, base + 3]
  | .linear8 => [linearAddr cfg row col]

/-- The bytes active entry `X` of line `L` needs: for a text cell the character, then the attribute (R194). -/
def entryAddrs (cfg : Cfg) (L X : Nat) : List Addr :=
  match (modeInfo cfg.mode).cls with
  | .text =>
    if Config.textLines ≤ L then []
    else
      let a := cellAddr cfg (L / 16) (X / 8)
      [a, a + 1]
  | _ =>
    match sourceRow? cfg L, sourceCol? cfg X with
    | some row, some col => pixelAddrs cfg row col
    | _, _ => []

/-- The `MemRead`s of `DECODE_LINE(L, cfg)`, in order: left to right across the line, each byte once (R69, R202). -/
def lineReads (cfg : Cfg) (L : Nat) : List Addr :=
  firstUses [] ((List.range Config.hActive).flatMap (entryAddrs cfg L))

end Sys2Proof.Machine
end

