-- ==== Sys2Proof/Machine/Scheduler.lean ====
section
/-! DEFINITION. The Scanline Pipeline Scheduler (44_scheduler.md): `TICK`, `LINE_START` and `EMIT`. -/

namespace Sys2Proof.Machine

/-- `SAMPLE()` (R231). -/
def State.sample (s : State) : Cfg where
  mode := s.mode
  fbPtr := s.fbPtr
  w := s.fbWidth
  h := s.fbHeight
  ox := s.offX
  oy := s.offY
  textPtr := s.textPtr
  blinkEn := s.ports.blinkEn
  blinkPhase := s.ports.blinkPhase
  curRow := s.ports.curRow
  curCol := s.ports.curCol

/-- The line counter advances by one and wraps after line 524 (R232). -/
def nextLine (line : Nat) : Nat := if line = 524 then 0 else line + 1

/-- Entry `k` of `COMPOSE_LINE(L, cfg)` (R237). -/
def lineEntry (p : Params) (cfg : Cfg) (L : Nat) (rd : Addr → Byte) (k : Nat) : Index :=
  if k < Config.hBpStart then hsyncIndex L
  else if k < Config.hActiveStart then blankIndex L
  else if k < Config.hFpStart then
    if L < Config.vActive then decodePixel p cfg L rd (k - Config.hActiveStart) else blankIndex L
  else blankIndex L

/-- `COMPOSE_LINE(L, cfg)`: the 800 entries of a regenerated line (R237). -/
def composeLine (p : Params) (cfg : Cfg) (L : Nat) (rd : Addr → Byte) : Bank Index 800 :=
  .tab 800 (lineEntry p cfg L rd)

/-- The `MemRead`s of a regenerated line: the decoder runs only on a visible line (R190, R237). -/
def composeReads (cfg : Cfg) (L : Nat) : List Addr := if L < Config.vActive then lineReads cfg L else []

/-- The counters of a tick: `TICKS` and `LINE` (R230 step 1, R232, R239). -/
def State.advanceCounters (s : State) : State := { s with ticks := s.ticks + 1, line := nextLine s.line }

/-- `BUFIDX <- BUFIDX ^ 1` (R230 step 3). -/
def State.toggleBuf (s : State) : State := { s with bufIdx := !s.bufIdx }

/-- The `MemRead`s made are recorded (log 16). -/
def State.logReads (s : State) (as : List Addr) : State := { s with memReads := s.memReads ++ as }

/-- Step 3 of a tick on a regenerated line: toggle, compose into the now-inactive buffer (R230). -/
def State.regenerate (s : State) (p : Params) (cfg : Cfg) (rd : Addr → Byte) : State :=
  let t := s.toggleBuf
  (t.setLb t.bufIdx (composeLine p cfg t.line rd)).logReads (composeReads cfg t.line)

/-- `TICK` (R230), one finite step (R253). -/
def State.tick (s : State) (p : Params) (answers : List (Addr × Byte)) : State :=
  let cfg := s.sample
  let t := s.advanceCounters
  let t := if reuseLine cfg.mode t.line then t else t.regenerate p cfg (memAnswer s.mem answers)
  t.rearm.ackIrq

/-- `LINE_START` (R241). -/
def State.beginLine (s : State) : State :=
  let t : State := { s with cur := s.src, pos := 0, phase := false }
  t.raiseIrq

/-- `LINE_START` as an event: a line begun while the interrupt is pending is an overrun (R322, R323, U4). -/
def lineStart (s : State) : Host.Outcome State Fault Refusal :=
  if s.irqPend then .fault .handlerOverrun else .next s.beginLine

/-- `EMIT` in phase 0: fetch the index and send the primary word (R242). -/
def State.emitPrimary (s : State) : State :=
  let i := s.lbEntry s.cur s.pos
  { s.emitWord (s.tabEntry i).w0 with idx := i, phase := true }

/-- `EMIT` in phase 1: send the secondary word and finish the entry (R242). -/
def State.emitSecondary (s : State) : State :=
  { s.emitWord (s.tabEntry s.idx).w1 with phase := false, pos := s.pos + 1 }

/-- `EMIT` (R242); the word of index 255 is unspecified and stops the model (U3). -/
def emit (s : State) : Host.Outcome State Fault Refusal :=
  if s.phase then
    if s.idx = 255 then .fault .unassignedIndex else .next s.emitSecondary
  else
    if s.lbEntry s.cur s.pos = 255 then .fault .unassignedIndex else .next s.emitPrimary

end Sys2Proof.Machine
end

