-- ==== Sys2Proof/Machine/Agents.lean ====
section
/-! DEFINITION. One event of one agent (R19, R287, R288). An event whose agent has no step in the state it meets leaves
the state as it is (log 1). -/

namespace Sys2Proof.Machine

/-- The micro-writes of a command, in order; `INIT` is one indivisible step and has none (R67, R260). -/
def commandWrites : Instr → Option (List MicroWrite)
  | .init => none
  | .setMode mode => some (setModeWrites mode)
  | .setPalette index rgb => some (setPaletteWrites index rgb)
  | .setBackground rgb => some (setBackgroundWrites rgb)
  | .setBuffer ptr width height => some (setBufferWrites ptr width height)
  | .setOffset x y => some (setOffsetWrites x y)
  | .setTextbuffer ptr => some (setTextbufferWrites ptr)

/-- A command waits on the port and the host has none in progress: the host's commands never overlap (R177, R331). -/
def State.commandReady (s : State) : Bool := s.ports.cmdValid && s.hostPend.isEmpty

/-- The host's command on `CMD` is taken (R118) and `run` does what it does. A word with a reserved opcode changes no
state (R121 (a); log 13); while `RST` is asserted no command is accepted (R310, U20). -/
def takeWord (run : Instr → State → Host.Outcome State Fault Refusal) (s : State) : Host.Outcome State Fault Refusal :=
  if s.commandReady then
    if s.ports.rst then .refused .commandDuringReset
    else
      match decode s.ports.cmd with
      | .ok i => run i s.takeCommand
      | .error _ => .next s.takeCommand
  else .next s

/-- A command begun so that other agents may move between its micro-writes (R67). -/
def beginSplit (i : Instr) (s : State) : Host.Outcome State Fault Refusal :=
  match commandWrites i with
  | some ws => .next (s.setPend ws)
  | none => exec i s

/-- What one event does. -/
def runEvent (e : Event) (s : State) : Host.Outcome State Fault Refusal :=
  match e with
  | .drive d => .next (s.drivePort d)
  | .store a b => .next (s.storeByte a b)
  | .command => takeWord exec s
  | .commandSplit => takeWord beginSplit s
  | .microWrite => if s.ports.rst then .next s else .next s.nextMicro
  | .tick answers => if s.tickEnabled then .next (s.tick Config.hw answers) else .next s
  | .lineStart => if s.lineStartEnabled then lineStart s else .next s
  | .emit => if s.emitEnabled then emit s else .next s

/-- The event that happens next, and the state without it, one step later: the soonest of the schedule, or, once the
schedule is empty, any event, by the opaque `Config.schedule` (log 1). -/
def nextEvent (s : State) : Event × State :=
  match s.sched with
  | e :: rest => (e, { s with sched := rest, now := s.now + 1 })
  | [] => (Config.schedule s.now, { s with now := s.now + 1 })

end Sys2Proof.Machine
end

