-- ==== Sys2Proof/Machine/Step.lean ====
section
/-! DEFINITION. One step of the machine, and where it fetches its next command. -/

namespace Sys2Proof.Machine

/-- One step: the next event happens (R75). -/
def step (s : State) : Host.Outcome State Fault Refusal := runEvent (nextEvent s).1 (nextEvent s).2

/-- `s` with the command word whose bits are `w` waiting on `CMD`, no command in progress, `RST` released, and the
taking of that command as the next event (log 2). -/
def State.withFetchWord (s : State) (nbits w : Nat) : State :=
  { s with
    ports := { s.ports with cmd := tableWord nbits w, cmdValid := true, rst := false }
    hostPend := []
    sched := .command :: s.sched }

end Sys2Proof.Machine
end

