-- ==== Sys2Proof/Safety.lean ====
section
/-! DEFINITION. The terms claims use: the invariant of 10_state.md section 9, safe outcomes, the words of a line, runs
of completed commands, and the bit positions of a word. -/

namespace Sys2Proof.Machine

/-- The invariant of the machine. `posOfPhase` and `idxOfPhase` say what `PHASE = 1` means (R39); the others cite their
rule. -/
structure State.Inv (s : State) : Prop where
  /-- External memory is in its canonical form (log 5). -/
  memWf : s.mem.wf = true
  /-- R49. -/
  lineLe : s.line ≤ 524
  /-- R49. -/
  posLe : s.pos ≤ 800
  /-- R38, R49. -/
  abortClear : s.abort = 0
  /-- R47. -/
  lbLe : ∀ (b : Bool) (k : Fin 800), ((s.lb b).get k).toNat ≤ 254
  /-- R39: `IDX` is an element fetched from a line buffer, or its reset value. -/
  idxLe : s.idx.toNat ≤ 254
  /-- R39. -/
  posOfPhase : s.phase = true → s.pos < 800
  /-- R39: between its two words, `IDX` is the entry at `POS` of the line being streamed. -/
  idxOfPhase : s.phase = true → s.idx = s.lbEntry s.cur s.pos
  /-- R46: the palette entries are those of the colours, once the micro-writes of the command in progress are made. -/
  palette : ∀ i : PalIndex,
    (s.applyMicros s.hostPend).tab.get (palSlot i) = entry Config.hw ((s.applyMicros s.hostPend).palRgb.get i)
  /-- R28, R158: the control entries hold their words while RUNNING. -/
  control : s.drv = .running → ∀ k : Fin 4, s.tab.get ⟨251 + k.val, by omega⟩ = ctlEntry Config.hw k.val
  /-- R286: between step 8 of an `INIT` and the next, the interrupt and the pipeline are enabled. -/
  enabled : s.drv = .running → s.irqEn = true ∧ s.pipeEn = true ∧ s.pipeCfgOk = true
  /-- R310, R311: in IDLE nothing is enabled, pending or in flight. -/
  idle : s.drv = .idle → s.irqEn = false ∧ s.irqPend = false ∧ s.pipeEn = false ∧ s.pos = 800 ∧ s.phase = false
  /-- R267: `SRC` equals `BUFIDX` after any completed `TICK` or `INIT`. -/
  srcIsBuf : s.src = s.bufIdx
  /-- R250: while a tick is due, the buffer being streamed is the one `BUFIDX` names. -/
  curIsBuf : s.irqPend = true → s.cur = s.bufIdx

/-- Every item of the table of R52 that the spec gives a reset value has it; `ENTRY(0x000000)` by its two words (V3.1 of
95_test_vectors.md). -/
structure State.HasResetValues (t : State) : Prop where
  drv : t.drv = .idle
  mode : t.mode.number = 0
  geometry : t.fbPtr = 0 ∧ t.fbWidth = 0 ∧ t.fbHeight = 0 ∧ t.offX = 0 ∧ t.offY = 0 ∧ t.textPtr = 0
  colours : ∀ i, t.palRgb.get i = 0
  table : ∀ i : PalIndex, t.tab.get (palSlot i) = ⟨0x2A56AAAA2AAAAAAA, 0x15A9555515555555⟩
  buffers : ∀ k, t.lb0.get k = 252 ∧ t.lb1.get k = 252
  handler : t.line = 0 ∧ t.bufIdx = false ∧ t.ticks = 0 ∧ t.src = false
  enables : t.irqEn = false ∧ t.irqPend = false ∧ t.pipeEn = false ∧ t.pipeCfgOk = false ∧ t.abort = 0
  pipeline : t.cur = false ∧ t.phase = false ∧ t.pos = 800 ∧ t.idx = 252
  output : t.out64 = [] ∧ t.out6 = []

/-- A step that stops neither by a fault nor by a refusal. -/
def SafeOutcome (o : Host.Outcome State Fault Refusal) : Prop := ∃ t, o = .next t

/-- The schedule keeps the tick deadline of R322 at this step: no `LINE_START` while the interrupt is pending. -/
def State.MeetsDeadline (s : State) : Prop := (nextEvent s).1 = .lineStart → s.irqPend = false

/-- The words that streaming `LB[b]` puts out with the table as it stands: for each entry its primary, then its
secondary word (R246). -/
def State.lineWords (s : State) (b : Bool) : List Word64 :=
  (s.lb b).cells.flatMap fun i => [(s.tabEntry i).w0, (s.tabEntry i).w1]

/-- Completed host commands, one after the other (R74). -/
def runCommands : List Instr → State → Host.Outcome State Fault Refusal
  | [], s => .next s
  | i :: rest, s =>
    match exec i s with
    | .next t => runCommands rest t
    | .fault r => .fault r
    | .refused r => .refused r

/-- The colour a command gives to palette entry `i`, if it is an accepted `SET_PALETTE` or `SET_BACKGROUND` to it. -/
def colourGiven (i : PalIndex) : Instr → Option Rgb
  | .setPalette index rgb => if index.toNat = i.val then some rgb else none
  | .setBackground rgb => if Config.hw.bgIndex = i then some rgb else none
  | _ => none

/-- The colour of the last accepted `SET_PALETTE` or `SET_BACKGROUND` to `i`, or `c` if there was none (R154). -/
def lastColour (i : PalIndex) : List Instr → Rgb → Rgb
  | [], c => c
  | cmd :: rest, c => lastColour i rest ((colourGiven i cmd).getD c)

/-- `lo(n)`: the lowest word bit of the unit of code bit `n` (R93). -/
def unitLow (n : Nat) : Nat := if n < 5 then 6 * n else 6 * n + 2

/-- `s(c)`: the pair slot of a channel within a unit (R97). -/
def pairSlot (p : Params) : Channel → Nat
  | .red => match p.chOrder with | .rgb => 2 | .bgr => 0
  | .green => 1
  | .blue => match p.chOrder with | .rgb => 0 | .bgr => 2

/-- The code of a channel among three. -/
def codeOf (r g b : Code) : Channel → Code
  | .red => r
  | .green => g
  | .blue => b

end Sys2Proof.Machine
end

