-- ==== Sys2Proof/Certificates/Slice0/Obligations.lean ====
section
/-! DEFINITION. The statements for the provers. -/

open Sys2Proof Sys2Proof.Machine

/-! ## Encodings -/

/-- Decode and encode agree on every command, and off the reserved bits a word decodes to a command exactly when it is
that command's word (R118, R119, R121 (d)). -/
def Obligations.DecodeAndEncodeAgree : Prop :=
  (∀ i : Instr, i.wellFormed = true → decode (encode i) = .ok i) ∧
  (∀ (w : Word64) (i : Instr), decode w = .ok i ↔ w &&& fieldMask i = encode i)

/-- The opcode alone decides which command a word is: 0x01 to 0x07 are the seven commands in order, every other opcode
is reserved (R120). -/
def Obligations.OpcodeAloneSelectsTheCommand : Prop :=
  (∀ (w : Word64) (i : Instr), decode w = .ok i → opcodeOf i = w.extractLsb' 56 8) ∧
  (∀ w : Word64, (∃ i, decode w = .ok i) ↔ 1 ≤ (w.extractLsb' 56 8).toNat ∧ (w.extractLsb' 56 8).toNat ≤ 7) ∧
  (∀ (w : Word64) (e : DecodeError), decode w = .error e →
    e = .reservedOpcode (w.extractLsb' 56 8) ∧
      ((w.extractLsb' 56 8).toNat = 0 ∨ 8 ≤ (w.extractLsb' 56 8).toNat))

/-- Words written out from R119 and the table of 95_test_vectors.md V4.1 decode to the commands they stand for. -/
def Obligations.WrittenWordsDecode : Prop :=
  decode 0x0100000000000000 = .ok .init ∧
  decode 0x0200000000000007 = .ok (.setMode 7) ∧
  decode 0x03000000FBFFFFFF = .ok (.setPalette 251 0xFFFFFF) ∧
  decode 0x04000000000000AA = .ok (.setBackground 0x0000AA) ∧
  decode 0x05200100001400C8 = .ok (.setBuffer 0x20010000 320 200) ∧
  decode 0x0600000000008014 = .ok (.setOffset 8 20) ∧
  decode 0x0700000020008000 = .ok (.setTextbuffer 0x20008000) ∧
  decode 0x02FFFFFFFFFFFF07 = .ok (.setMode 7)

/-- Each call of R125 stands for its command exactly when every argument fits its field, and the command's operands are
then the arguments, in the order of R119; a mode given by its name is its number in R116. That a call with an argument
that does not fit stands for no command is the model's choice (log 24). -/
def Obligations.CallsAssembleToTheirCommands : Prop :=
  Call.init.assemble = some .init ∧
  (∀ (n : Nat) (i : Instr), (Call.setMode (.number n)).assemble = some i ↔
    n < 256 ∧ ∃ m : BitVec 8, i = .setMode m ∧ m.toNat = n) ∧
  ([.text80Color, .text80Mono, .pk1At320x200, .pk2At320x200, .pk4At320x200, .pk4At160x200, .pl4At320x200,
      .lin8At320x200].map fun m => (Call.setMode (.name m)).assemble) =
    [0, 1, 2, 3, 4, 5, 6, 7].map (fun m => some (.setMode m)) ∧
  (∀ (index rgb : Nat) (i : Instr), (Call.setPalette index rgb).assemble = some i ↔
    index < 256 ∧ rgb < 16777216 ∧
      ∃ (a : BitVec 8) (c : BitVec 24), i = .setPalette a c ∧ a.toNat = index ∧ c.toNat = rgb) ∧
  (∀ (rgb : Nat) (i : Instr), (Call.setBackground rgb).assemble = some i ↔
    rgb < 16777216 ∧ ∃ c : BitVec 24, i = .setBackground c ∧ c.toNat = rgb) ∧
  (∀ (ptr width height : Nat) (i : Instr), (Call.setBuffer ptr width height).assemble = some i ↔
    ptr < 4294967296 ∧ width < 4096 ∧ height < 4096 ∧
      ∃ (p : BitVec 32) (w h : BitVec 12),
        i = .setBuffer p w h ∧ p.toNat = ptr ∧ w.toNat = width ∧ h.toNat = height) ∧
  (∀ (x y : Nat) (i : Instr), (Call.setOffset x y).assemble = some i ↔
    x < 4096 ∧ y < 4096 ∧ ∃ a b : BitVec 12, i = .setOffset a b ∧ a.toNat = x ∧ b.toNat = y) ∧
  (∀ (ptr : Nat) (i : Instr), (Call.setTextbuffer ptr).assemble = some i ↔
    ptr < 4294967296 ∧ ∃ p : BitVec 32, i = .setTextbuffer p ∧ p.toNat = ptr)

/-! ## The Signal Encoder and the encoded table -/

/-- `ENC` (R131): the selector from the count of ones, the chain of the encoded uncomplemented bits upward from the
input's low bit, the two balance bits and the one complement at the end (R132). -/
def Obligations.EncodeChannelFollowsTheChain : Prop :=
  ∀ d : Byte,
    let ones := ((List.range 8).filter fun i => d.getLsbD i).length
    let inv := decide (4 < ones) || (decide (ones = 4) && !d.getLsbD 0)
    ∃ q : Byte, q.getLsbD 0 = d.getLsbD 0 ∧
      (∀ i < 7, q.getLsbD (i + 1) = if inv then !(q.getLsbD i ^^ d.getLsbD (i + 1)) else q.getLsbD i ^^ d.getLsbD (i + 1)) ∧
      enc d = if inv then 0b10#2 ++ ~~~q else 0b01#2 ++ q

/-- The facts about `ENC` (R133): which of bits 9 and 8 is set, injectivity, the branch counts, the count of ones, and
no control code among the results. -/
def Obligations.EncodedCodesFacts : Prop :=
  (∀ d : Byte, (enc d).extractLsb' 8 2 = 0b01#2 ∨ (enc d).extractLsb' 8 2 = 0b10#2) ∧
  (∀ a b : Byte, enc a = enc b → a = b) ∧
  ((List.range 256).countP fun n => (enc (BitVec.ofNat 8 n)).extractLsb' 8 2 == 0b01#2) = 128 ∧
  ((List.range 256).countP fun n => (enc (BitVec.ofNat 8 n)).extractLsb' 8 2 == 0b10#2) = 128 ∧
  (∀ d : Byte, 1 ≤ popcount (enc d) ∧ popcount (enc d) ≤ 9) ∧ popcount (enc 0x00) = 1 ∧ popcount (enc 0x01) = 9 ∧
  ((List.range 256).countP fun n => popcount (enc (BitVec.ofNat 8 n)) == 5) = 52 ∧
  (∀ d : Byte, enc d ≠ 0x354 ∧ enc d ≠ 0x0AB ∧ enc d ≠ 0x154 ∧ enc d ≠ 0x2AB)

/-- The closed form of a data bit of a word, and every data bit given by exactly one channel, code bit and pair bit
(R97), at the places of R93. -/
def Obligations.SerialisedBitPlacement : Prop :=
  (∀ (p : Params) (r g b : Code) (c : Channel) (n j : Nat), n < 10 → j < 2 →
    (ser p r g b).getLsbD (unitLow n + 2 * pairSlot p c + j) =
      ((codeOf r g b c).getLsbD n ^^ decide (j = 1) ^^ p.pairInvert)) ∧
  (∀ (p : Params) (k : Nat), k < 30 ∨ (32 ≤ k ∧ k < 62) →
    ∃ (c : Channel) (n j : Nat), n < 10 ∧ j < 2 ∧ unitLow n + 2 * pairSlot p c + j = k ∧
      ∀ (c' : Channel) (n' j' : Nat), n' < 10 → j' < 2 → unitLow n' + 2 * pairSlot p c' + j' = k →
        c' = c ∧ n' = n ∧ j' = j)

/-- The structural bits 63, 62, 31 and 30 are 0 in every word a rule produces: serialised words, control words and both
words of a palette entry; the data mask is the other 60 bits (R94). -/
def Obligations.StructuralBitsAreZero : Prop :=
  (∀ k < 64, (0x3FFFFFFF3FFFFFFF : Word64).getLsbD k = true ↔ k < 30 ∨ (32 ≤ k ∧ k < 62)) ∧
  (∀ (p : Params) (r g b : Code), ser p r g b &&& 0xC0000000C0000000 = 0) ∧
  (∀ (p : Params) (h v : Bool), ctlWord p h v &&& 0xC0000000C0000000 = 0) ∧
  (∀ c : Rgb, (entry Config.hw c).w0 &&& 0xC0000000C0000000 = 0 ∧ (entry Config.hw c).w1 &&& 0xC0000000C0000000 = 0)

/-- In every unit each channel's two pair bits are complements, also after XOR with `INV_MASK` (R98). -/
def Obligations.PairBitsAreComplements : Prop :=
  ∀ (p : Params) (r g b : Code) (n slot : Nat), n < 10 → slot < 3 →
    (ser p r g b).getLsbD (unitLow n + 2 * slot + 1) = !(ser p r g b).getLsbD (unitLow n + 2 * slot) ∧
    (ser p r g b ^^^ Config.hw.invMask).getLsbD (unitLow n + 2 * slot + 1) =
      !(ser p r g b ^^^ Config.hw.invMask).getLsbD (unitLow n + 2 * slot)

/-- The facts about `SER` (R139): injective on triples of codes; complementing the codes, or `PAIR_INVERT`, flips exactly
the data bits; exchanging red and blue is changing `CH_ORDER`. -/
def Obligations.SerialiserAlgebra : Prop :=
  (∀ (p : Params) (r g b r' g' b' : Code), ser p r g b = ser p r' g' b' → r = r' ∧ g = g' ∧ b = b') ∧
  (∀ (p : Params) (r g b : Code), ser p (~~~r) (~~~g) (~~~b) = ser p r g b ^^^ 0x3FFFFFFF3FFFFFFF) ∧
  (∀ (p : Params) (r g b : Code),
    ser { p with pairInvert := true } r g b = ser { p with pairInvert := false } r g b ^^^ 0x3FFFFFFF3FFFFFFF) ∧
  (∀ (p : Params) (r g b : Code), ser { p with chOrder := .rgb } b g r = ser { p with chOrder := .bgr } r g b)

/-- On the wire the units of a word go out code bit 0 first, one bit of each channel in each (R99). -/
def Obligations.WireSendsLowCodeBitFirst : Prop :=
  ∀ (p : Params) (r g b : Code), (units (ser p r g b)).length = 10 ∧
    ∀ n < 10, (units (ser p r g b))[n]? = some (pinUnit p (r.getLsbD n) (g.getLsbD n) (b.getLsbD n))

/-- DC balance (R134): a code and its complement have ten ones, and each word of a palette entry has thirty of its sixty
data bits set. -/
def Obligations.PaletteEntriesAreBalanced : Prop :=
  (∀ c : Code, popcount c + popcount (~~~c) = 10) ∧
  (∀ c : Rgb, popcount (entry Config.hw c).w0 = 30 ∧ popcount (entry Config.hw c).w1 = 30)

/-- The secondary word of a palette entry is the primary word with its 60 data bits inverted, which is the word of the
three complemented codes (R152). -/
def Obligations.SecondaryWordIsTheComplement : Prop :=
  ∀ c : Rgb,
    (entry Config.hw c).w0 = ser Config.hw (enc (c.extractLsb' 16 8)) (enc (c.extractLsb' 8 8)) (enc (c.extractLsb' 0 8)) ∧
    (entry Config.hw c).w1 = (entry Config.hw c).w0 ^^^ 0x3FFFFFFF3FFFFFFF ∧
    (entry Config.hw c).w1 =
      ser Config.hw (~~~ enc (c.extractLsb' 16 8)) (~~~ enc (c.extractLsb' 8 8)) (~~~ enc (c.extractLsb' 0 8))

/-- The four control entries with the spec's parameters hold one word in both slots (R157, R158). -/
def Obligations.ControlEntriesTable : Prop :=
  (ctlEntry Config.hw 0).w0 = 0x1656A56A15A95AAA ∧ (ctlEntry Config.hw 1).w0 = 0x155A95A916A56A69 ∧
  (ctlEntry Config.hw 2).w0 = 0x1556A56A15A95AAA ∧ (ctlEntry Config.hw 3).w0 = 0x165A95A916A56A69 ∧
  ∀ k, (ctlEntry Config.hw k).w1 = (ctlEntry Config.hw k).w0

/-! ## The host commands -/

/-- `SET_MODE` of a defined number: the mode of that number, and nothing else is written; of a reserved number: nothing;
and setting any mode twice is setting it once (R170). The modes are those of the table of R116: for each number the name,
the class with its bits per pixel, `hscale`, `vscale` and the double-scan column. -/
def Obligations.SetModeSelectsTheMode : Prop :=
  (∀ (mode : BitVec 8) (s : State), 8 ≤ mode.toNat → exec (.setMode mode) s = .next s) ∧
  (∀ (mode : BitVec 8) (s : State), mode.toNat < 8 →
    ∃ t, exec (.setMode mode) s = .next t ∧ t.mode.number = mode ∧ t = { s with mode := t.mode }) ∧
  (∀ (mode : BitVec 8) (s : State), ∃ t, exec (.setMode mode) s = .next t ∧ exec (.setMode mode) t = .next t) ∧
  (∀ s : State,
    exec (.setMode 0) s = .next { s with mode := .text80Color } ∧ modeInfo .text80Color = ⟨.text, 1, 1, false⟩ ∧
    exec (.setMode 1) s = .next { s with mode := .text80Mono } ∧ modeInfo .text80Mono = ⟨.text, 1, 1, false⟩ ∧
    exec (.setMode 2) s = .next { s with mode := .pk1At320x200 } ∧ modeInfo .pk1At320x200 = ⟨.packed 1, 2, 2, true⟩ ∧
    exec (.setMode 3) s = .next { s with mode := .pk2At320x200 } ∧ modeInfo .pk2At320x200 = ⟨.packed 2, 2, 2, true⟩ ∧
    exec (.setMode 4) s = .next { s with mode := .pk4At320x200 } ∧ modeInfo .pk4At320x200 = ⟨.packed 4, 2, 2, true⟩ ∧
    exec (.setMode 5) s = .next { s with mode := .pk4At160x200 } ∧ modeInfo .pk4At160x200 = ⟨.packed 4, 4, 2, true⟩ ∧
    exec (.setMode 6) s = .next { s with mode := .pl4At320x200 } ∧ modeInfo .pl4At320x200 = ⟨.planar, 2, 2, true⟩ ∧
    exec (.setMode 7) s = .next { s with mode := .lin8At320x200 } ∧ modeInfo .lin8At320x200 = ⟨.linear8, 2, 2, true⟩)

/-- `SET_MODE` with `mode` in 8..255 is a no-op (R171). -/
def Obligations.ReservedModeIsNoOp : Prop :=
  ∀ (mode : BitVec 8) (s : State), 8 ≤ mode.toNat → exec (.setMode mode) s = .next s

/-- `SET_PALETTE` in every `STATE` and for every index: below 251 it writes the one colour and the two words of the one
entry, from 251 on it changes nothing; nothing else is written. The writes are three micro-writes in this order: colour,
primary, secondary word (R153). -/
def Obligations.SetPaletteWritesOneEntry : Prop :=
  (∀ (i : PalIndex) (rgb : Rgb), commandWrites (.setPalette (indexOfPal i) rgb) =
    some [.palRgb i rgb, .tabW0 i (entry Config.hw rgb).w0, .tabW1 i (entry Config.hw rgb).w1]) ∧
  ∀ (index : Index) (rgb : Rgb) (s : State), ∃ t, exec (.setPalette index rgb) s = .next t ∧
    (∀ j : PalIndex, t.palRgb.get j = if j.val = index.toNat then rgb else s.palRgb.get j) ∧
    (∀ k : Fin 256, t.tab.get k =
      if k.val = index.toNat ∧ index.toNat < 251 then entry Config.hw rgb else s.tab.get k) ∧
    t = { s with palRgb := t.palRgb, tab := t.tab }

/-- `SET_BACKGROUND rgb` is `SET_PALETTE BG_INDEX, rgb`, never rejected (R155). -/
def Obligations.SetBackgroundIsSetPaletteOfBackground : Prop :=
  ∀ (rgb : Rgb) (s : State),
    exec (.setBackground rgb) s = exec (.setPalette (indexOfPal Config.hw.bgIndex) rgb) s ∧
    ∃ t, exec (.setBackground rgb) s = .next t ∧
      (∀ j : PalIndex, t.palRgb.get j = if j = Config.hw.bgIndex then rgb else s.palRgb.get j) ∧
      (∀ k : Fin 256, t.tab.get k = if k.val = Config.hw.bgIndex.val then entry Config.hw rgb else s.tab.get k) ∧
      t = { s with palRgb := t.palRgb, tab := t.tab }

/-- `SET_BUFFER`, `SET_OFFSET` and `SET_TEXTBUFFER` write their registers and nothing else, for every operand (R172, R174,
R176). -/
def Obligations.GeometrySettersWriteTheirRegisters : Prop :=
  (∀ (ptr : Addr) (width height : BitVec 12) (s : State),
    exec (.setBuffer ptr width height) s = .next { s with fbPtr := ptr, fbWidth := width, fbHeight := height }) ∧
  (∀ (x y : BitVec 12) (s : State), exec (.setOffset x y) s = .next { s with offX := x, offY := y }) ∧
  (∀ (ptr : Addr) (s : State), exec (.setTextbuffer ptr) s = .next { s with textPtr := ptr })

/-- `INIT` with resources, not in FAILED: the pipeline and the interrupt enabled, nothing pending or in flight, the
control entries built, the palette rebuilt from the colours, `SRC` at the last completed buffer, and nothing else
written: not the counters, the line buffers, the configuration or memory (R260, R265). -/
def Obligations.InitStartsTheMachine : Prop :=
  ∀ s : State, s.drv ≠ .failed → s.ports.resOk = true →
    ∃ t, exec .init s = .next t ∧
      (∀ i : PalIndex, t.tab.get (palSlot i) = entry Config.hw (s.palRgb.get i)) ∧
      (∀ k : Fin 4, t.tab.get ⟨251 + k.val, by omega⟩ = ctlEntry Config.hw k.val) ∧
      t.tab.get 255 = s.tab.get 255 ∧
      t = { s with
            drv := .running, irqEn := true, irqPend := false, pipeEn := true, pipeCfgOk := true, abort := 0
            src := s.bufIdx, pos := 800, phase := false, tab := t.tab }

/-- `INIT` without resources raises `FatalInit`: `STATE <- FAILED` and nothing else is written. In FAILED the pipeline and
the handler have no step, and the other commands still write what they write in any `STATE` (R281). -/
def Obligations.InitWithoutResourcesFails : Prop :=
  (∀ s : State, s.drv ≠ .failed → s.ports.resOk = false → exec .init s = .next { s with drv := .failed }) ∧
  (∀ s : State, s.drv = .failed →
    runEvent .lineStart s = .next s ∧ runEvent .emit s = .next s ∧ ∀ answers, runEvent (.tick answers) s = .next s) ∧
  (∀ (i : Instr) (s t : State), i ≠ .init → exec i s = .next t →
    exec i { s with drv := .failed } = .next { t with drv := .failed })

/-- Once `STATE = FAILED`, `INIT` does nothing, whatever `RES_OK` is, and only reset leaves FAILED (R271). -/
def Obligations.OnlyResetLeavesFailed : Prop :=
  (∀ s : State, s.drv = .failed → exec .init s = .next s) ∧
  (∀ s t : State, s.drv = .failed → step s = .next t → (nextEvent s).1 ≠ .drive (.rst true) → t.drv = .failed)

/-- Two `INIT`s in a row leave what one leaves; and an `INIT` while RUNNING, from a state of the invariant with no command
in progress, changes only `POS`, `PHASE` and `IRQ_PEND` (R267). -/
def Obligations.InitIsIdempotent : Prop :=
  (∀ s t : State, exec .init s = .next t → exec .init t = .next t) ∧
  (∀ s : State, s.Inv → s.drv = .running → s.hostPend = [] → s.ports.resOk = true →
    exec .init s = .next { s with pos := 800, phase := false, irqPend := false })

/-- After any sequence of completed host commands since reset, a palette entry is `ENTRY` of the colour of the last
accepted `SET_PALETTE` or `SET_BACKGROUND` to it, or of 0x000000 (R154). The ports and memory are any: they are the
environment's. -/
def Obligations.PaletteHoldsTheLastColours : Prop :=
  ∀ (cmds : List Instr) (q : Ports) (m : Memory),
    ∃ t, runCommands cmds { State.reset with ports := q, mem := m } = .next t ∧
      ∀ i : PalIndex, t.tab.get (palSlot i) = entry Config.hw (lastColour i cmds 0)

/-- No command touches what the handler and the pipeline own, external memory or the output (R50, R25, R61): a frame of
all seven commands at once. `POS`, `PHASE`, `SRC` and `IRQ_PEND` are those `INIT` may write. -/
def Obligations.CommandsLeaveHandlerStateAlone : Prop :=
  ∀ (i : Instr) (s t : State), exec i s = .next t →
    t.line = s.line ∧ t.bufIdx = s.bufIdx ∧ t.ticks = s.ticks ∧ t.lb0 = s.lb0 ∧ t.lb1 = s.lb1 ∧
    t.cur = s.cur ∧ t.idx = s.idx ∧ t.out64 = s.out64 ∧ t.ports = s.ports ∧
    (∀ a : Nat, t.mem.read a = s.mem.read a) ∧
    (i ≠ .init → t.drv = s.drv ∧ t.pos = s.pos ∧ t.phase = s.phase ∧ t.src = s.src ∧ t.irqPend = s.irqPend ∧
      t.irqEn = s.irqEn ∧ t.pipeEn = s.pipeEn ∧ t.pipeCfgOk = s.pipeCfgOk ∧ t.abort = s.abort)

/-! ## The command port -/

/-- A step whose event is the taking of a command runs the decoded command: on the state with the event off the schedule,
the step counted and `CMD_VALID` lowered. How the taking is scheduled and that it lowers `CMD_VALID` are the model's
(log 1, log 3). -/
def Obligations.StepRunsTheDecodedCommand : Prop :=
  ∀ (s : State) (i : Instr) (rest : List Event),
    s.sched = .command :: rest → s.hostPend = [] → s.ports.cmdValid = true → s.ports.rst = false →
    decode s.ports.cmd = .ok i →
    step s = exec i { s with sched := rest, now := s.now + 1, ports := { s.ports with cmdValid := false } }

/-- A command word with a reserved opcode changes no state of the block (R121 (a)). The no-op among the two treatments of
U7 is the model's (log 13), and so are how the taking is scheduled and that the word is taken, lowering `CMD_VALID`
(log 1, log 3). -/
def Obligations.ReservedOpcodeChangesNothing : Prop :=
  ∀ (s : State) (e : DecodeError) (rest : List Event),
    s.sched = .command :: rest → s.hostPend = [] → s.ports.cmdValid = true → s.ports.rst = false →
    decode s.ports.cmd = .error e →
    step s = .next { s with sched := rest, now := s.now + 1, ports := { s.ports with cmdValid := false } }

/-- While `RST` is asserted a waiting command is not accepted, and no agent of the block has a step (R310; that the model
then refuses the command is the treatment of U20, log 15). -/
def Obligations.NothingRunsDuringReset : Prop :=
  ∀ s : State, s.ports.rst = true →
    (s.hostPend = [] → s.ports.cmdValid = true →
      runEvent .command s = .refused .commandDuringReset ∧ runEvent .commandSplit s = .refused .commandDuringReset) ∧
    runEvent .microWrite s = .next s ∧ runEvent .lineStart s = .next s ∧ runEvent .emit s = .next s ∧
    ∀ answers, runEvent (.tick answers) s = .next s

/-- A command split into its micro-writes, with nothing between them, does what the command taken whole does: one more
step per micro-write is all the difference (R67, R74). -/
def Obligations.SplitCommandEqualsWholeCommand : Prop :=
  ∀ (s : State) (i : Instr) (ws : List MicroWrite) (rest : List Event),
    s.hostPend = [] → s.ports.cmdValid = true → s.ports.rst = false → decode s.ports.cmd = .ok i →
    commandWrites i = some ws →
    ∃ t, Sys2Proof.core.run 1 { s with sched := .command :: rest } = .next t ∧
      Sys2Proof.core.run (1 + ws.length)
        { s with sched := .commandSplit :: (List.replicate ws.length .microWrite ++ rest) } =
          .next { t with now := t.now + ws.length }

/-- A palette command caught in part (R77, R325): both pipeline reads between its two word writes send the new primary
word with the old secondary word; both word writes between the two reads send the old primary word with the new
secondary word. The entry is whole afterwards. -/
def Obligations.PaletteEntryCanBeSentTorn : Prop :=
  ∀ (s : State) (i : PalIndex) (c : Rgb) (rest : List Event),
    s.emitEnabled = true → s.phase = false → s.lbEntry s.cur s.pos = indexOfPal i →
    s.hostPend = [.tabW0 i (entry Config.hw c).w0, .tabW1 i (entry Config.hw c).w1] →
    (∃ t, Sys2Proof.core.run 4 { s with sched := .microWrite :: .emit :: .emit :: .microWrite :: rest } = .next t ∧
      t.out64 = s.out64 ++ [(entry Config.hw c).w0, (s.tab.get (palSlot i)).w1] ∧
      t.tab.get (palSlot i) = entry Config.hw c ∧ t.hostPend = []) ∧
    (∃ t, Sys2Proof.core.run 4 { s with sched := .emit :: .microWrite :: .microWrite :: .emit :: rest } = .next t ∧
      t.out64 = s.out64 ++ [(s.tab.get (palSlot i)).w0, (entry Config.hw c).w1] ∧
      t.tab.get (palSlot i) = entry Config.hw c ∧ t.hostPend = [])

/-! ## The handler -/

/-- A tick on a reused line: the counters advance, the same buffer is re-armed, the interrupt is acknowledged, and nothing
else changes: no toggle, no read of memory, no element of a line buffer (R235). -/
def Obligations.ReusedLineTouchesNoBuffer : Prop :=
  ∀ (s : State) (answers : List (Addr × Byte)), s.tickEnabled = true →
    (modeInfo s.mode).doubleScanned = true → (if s.line = 524 then 0 else s.line + 1) % 2 = 1 →
    runEvent (.tick answers) s =
      .next { s with ticks := s.ticks + 1, line := s.line + 1, src := s.bufIdx, irqPend := false }

/-- A tick on a regenerated line (R230, R237): the buffer index toggles, the buffer it now names gets all 800 entries of
the line's layout, the other buffer is kept, `SRC` follows, the decoder's reads are made on visible lines only, and
nothing else changes. -/
def Obligations.RegeneratedLineFillsTheIdleBuffer : Prop :=
  ∀ (s : State) (answers : List (Addr × Byte)), s.tickEnabled = true →
    let L := if s.line = 524 then 0 else s.line + 1
    let v : Nat := if 490 ≤ L ∧ L ≤ 491 then 1 else 0
    ((modeInfo s.mode).doubleScanned = false ∨ L % 2 = 0) →
    ∃ t, runEvent (.tick answers) s = .next t ∧
      t.lb s.bufIdx = s.lb s.bufIdx ∧
      (∀ k : Fin 800, (t.lb (!s.bufIdx)).get k =
        if k.val < 96 then BitVec.ofNat 8 (251 + 2 * v)
        else if 144 ≤ k.val ∧ k.val < 784 ∧ L < 480 then
          decodePixel Config.hw s.sample L (memAnswer s.mem answers) (k.val - 144)
        else BitVec.ofNat 8 (252 + 2 * v)) ∧
      t.memReads = s.memReads ++ (if L < 480 then lineReads s.sample L else []) ∧
      t = { s with
            ticks := s.ticks + 1, line := L, bufIdx := !s.bufIdx, lb0 := t.lb0, lb1 := t.lb1, src := !s.bufIdx
            irqPend := false, memReads := t.memReads }

/-- An odd line has the blanking and V-sync state of the even line before it, so that reuse is safe on every odd line
(R234). -/
def Obligations.OddLinesShareTheirPairsBlanking : Prop :=
  ∀ L : Nat, L % 2 = 1 →
    (L < 480 ↔ L - 1 < 480) ∧ hsyncIndex L = hsyncIndex (L - 1) ∧ blankIndex L = blankIndex (L - 1)

/-- In IDLE and in FAILED neither the handler nor the pipeline has a step (R229). -/
def Obligations.OnlyRunningMachineMoves : Prop :=
  ∀ s : State, s.drv ≠ .running →
    runEvent .lineStart s = .next s ∧ runEvent .emit s = .next s ∧ ∀ answers, runEvent (.tick answers) s = .next s

/-! ## The pipeline -/

/-- `LINE_START` latches `SRC`, begins the line and raises the interrupt if it is enabled (R241). -/
def Obligations.LineStartLatchesTheSource : Prop :=
  ∀ s : State, s.lineStartEnabled = true → s.irqPend = false →
    runEvent .lineStart s = .next { s with cur := s.src, pos := 0, phase := false, irqPend := s.irqEn }

/-- A `LINE_START` while the interrupt is pending is a fault of the schedule (U4; the model's stop, log 12). -/
def Obligations.OverrunIsAFault : Prop :=
  ∀ s : State, s.lineStartEnabled = true → s.irqPend = true → runEvent .lineStart s = .fault .handlerOverrun

/-- `EMIT` in phase 0 fetches the index and sends the primary word; in phase 1 it sends the secondary word and finishes
the entry (R242). Index 255 is left out: it is the fault of U3 (log 14). -/
def Obligations.EmitSendsPrimaryThenSecondary : Prop :=
  (∀ s : State, s.emitEnabled = true → s.phase = false → s.lbEntry s.cur s.pos ≠ 255 →
    runEvent .emit s =
      .next { s with
        idx := s.lbEntry s.cur s.pos, out64 := s.out64 ++ [(s.tabEntry (s.lbEntry s.cur s.pos)).w0], phase := true }) ∧
  (∀ s : State, s.emitEnabled = true → s.phase = true → s.idx ≠ 255 →
    runEvent .emit s =
      .next { s with out64 := s.out64 ++ [(s.tabEntry s.idx).w1], phase := false, pos := s.pos + 1 }) ∧
  (∀ s : State, s.emitEnabled = true →
    ((s.phase = false ∧ s.lbEntry s.cur s.pos = 255) ∨ (s.phase = true ∧ s.idx = 255)) →
    runEvent .emit s = .fault .unassignedIndex)

/-- A word emitted adds its ten units to `OUT6`, code bit 0 first, and `PINS` then carries the last of them (R247, R42). -/
def Obligations.EmittedWordReachesThePins : Prop :=
  ∀ s t : State, s.emitEnabled = true → runEvent .emit s = .next t →
    ∃ w, t.out64 = s.out64 ++ [w] ∧ t.out6 = s.out6 ++ units w ∧ t.pins = w.extractLsb' 56 6

/-- One line contributes 1600 words: 1600 `EMIT`s from the start of a line send, for each of its 800 entries, the primary
and then the secondary word, and leave the line finished (R246). -/
def Obligations.LineStreamsSixteenHundredWords : Prop :=
  ∀ (s : State) (rest : List Event),
    s.drv = .running → s.pipeEn = true → s.ports.rst = false → s.pos = 0 → s.phase = false →
    (∀ k : Fin 800, (s.lb s.cur).get k ≠ 255) → s.sched = List.replicate 1600 .emit ++ rest →
    ∃ t, Sys2Proof.core.run 1600 s = .next t ∧
      t.out64 = s.out64 ++ s.lineWords s.cur ∧ (s.lineWords s.cur).length = 1600 ∧
      t = { s with
            out64 := t.out64, pos := 800, phase := false, idx := s.lbEntry s.cur 799, sched := rest
            now := s.now + 1600 }

/-- One line period in steady state (R248, R249): a `LINE_START`, 1600 `EMIT`s and one `TICK` after any `m` of them (R287)
stream the buffer `SRC` named before, with the table as it was, advance the counters by one line, and leave the machine
ready for the next line. -/
def Obligations.LinePeriodStreamsTheLatchedBuffer : Prop :=
  ∀ (s : State) (m : Nat) (answers : List (Addr × Byte)) (rest : List Event),
    s.Inv → s.drv = .running → s.ports.rst = false → s.pos = 800 → s.irqPend = false → m ≤ 1600 →
    s.sched = .lineStart :: (List.replicate m .emit ++ .tick answers :: (List.replicate (1600 - m) .emit ++ rest)) →
    ∃ t, Sys2Proof.core.run 1602 s = .next t ∧
      t.out64 = s.out64 ++ s.lineWords s.src ∧ t.cur = s.src ∧
      t.line = (if s.line = 524 then 0 else s.line + 1) ∧ t.ticks = s.ticks + 1 ∧
      t.pos = 800 ∧ t.phase = false ∧ t.irqPend = false ∧ t.drv = .running ∧ t.src = t.bufIdx ∧
      t.tab = s.tab ∧ t.sched = rest

/-! ## The Mode Decoder -/

/-- A text line (R199): cell by cell, the colours of R195, the glyph, the cursor over it and the blink attribute over
both; lines 400 and after are background. -/
def Obligations.TextLineShowsItsCells : Prop :=
  ∀ (p : Params) (cfg : Cfg) (L : Nat) (rd : Addr → Byte), (modeInfo cfg.mode).cls = .text →
    (400 ≤ L → ∀ X, decodePixel p cfg L rd X = indexOfPal p.bgIndex) ∧
    (L < 400 → ∀ c < 80, ∀ j < 8,
      let r := L / 16
      let gl := L % 16
      let a := cfg.textPtr + BitVec.ofNat 32 (2 * (r * 80 + c))
      let ch := rd a
      let attr := rd (a + 1)
      let hide := cfg.blinkEn = true ∧ attr.getLsbD 7 = true ∧ cfg.blinkPhase = true
      let curs := cfg.blinkPhase = true ∧ r = cfg.curRow.toNat ∧ c = cfg.curCol.toNat ∧ p.cursorFirst.val ≤ gl ∧
        gl ≤ p.cursorLast.val
      let lit := ¬ hide ∧ (curs ∨ (p.font ch (BitVec.ofNat 4 gl)).getLsbD (7 - j) = true)
      (lit → (decodePixel p cfg L rd (8 * c + j)).toNat = attr.toNat % 16) ∧
      (¬ lit → (decodePixel p cfg L rd (8 * c + j)).toNat =
        if cfg.blinkEn = true then attr.toNat / 16 % 8 else attr.toNat / 16))

/-- A packed pixel is its field of its byte, the leftmost pixel in the most significant bits (R112, R204). -/
def Obligations.PackedPixelIsItsField : Prop :=
  ∀ (bpp : Nat) (cfg : Cfg) (rd : Addr → Byte) (row col : Nat), bpp = 1 ∨ bpp = 2 ∨ bpp = 4 →
    let stride := (cfg.w.toNat * bpp + 7) / 8
    let byte := rd (cfg.fbPtr + BitVec.ofNat 32 (row * stride + col / (8 / bpp)))
    let k := col % (8 / bpp)
    (packedPixel bpp cfg rd row col).toNat = byte.toNat / 2 ^ (8 - bpp * (k + 1)) % 2 ^ bpp

/-- The planar pixel by spreading and shifting is the plain gather of one bit from each of the four plane bytes, plane 0
least significant, bit 7 leftmost (R113, R211). -/
def Obligations.PlanarPixelGathersThePlanes : Prop :=
  ∀ (cfg : Cfg) (rd : Addr → Byte) (row col : Nat),
    let base := cfg.fbPtr + BitVec.ofNat 32 (4 * (row * ((cfg.w.toNat + 7) / 8) + col / 8))
    ∀ i < 8, (planarPixel cfg rd row col).getLsbD i =
      (decide (i < 4) && (rd (base + BitVec.ofNat 32 i)).getLsbD (7 - col % 8))

/-- `SPREAD(b)` has bit `4*i` equal to `b[i]` for `i` = 0..7 and every other bit 0, with the table of R211. -/
def Obligations.SpreadPlacesBitsInNibbles : Prop :=
  (∀ (b : Byte) (k : Nat), (spread b).getLsbD k = (decide (k < 32) && decide (k % 4 = 0) && b.getLsbD (k / 4))) ∧
  [0x00, 0x01, 0x02, 0x80, 0x0F, 0x33, 0x3C, 0x55, 0xA5, 0xFF].map spread =
    [0x00000000, 0x00000001, 0x00000010, 0x10000000, 0x00001111, 0x00110011, 0x00111100, 0x01010101, 0x10100101,
     0x11111111]

/-- A linear pixel is its byte, and 251..255 give index 0 (R214). -/
def Obligations.LinearPixelClampsReservedIndices : Prop :=
  ∀ (cfg : Cfg) (rd : Addr → Byte) (row col : Nat),
    let byte := rd (cfg.fbPtr + BitVec.ofNat 32 (row * cfg.w.toNat + col))
    (byte.toNat ≤ 250 → linearPixel cfg rd row col = byte) ∧ (251 ≤ byte.toNat → linearPixel cfg rd row col = 0)

/-- Placement, doubling and clipping in the graphics modes (R200, R201): an entry the image covers shows the pixel of its
logical row and column, every other entry is `BG_INDEX`. -/
def Obligations.GraphicsModesPlaceAndClipTheImage : Prop :=
  ∀ (p : Params) (cfg : Cfg) (L : Nat) (rd : Addr → Byte) (X : Nat),
    let m := modeInfo cfg.mode
    let covered := cfg.oy.toNat ≤ L / m.vscale ∧ L / m.vscale < cfg.oy.toNat + cfg.h.toNat ∧
      cfg.ox.toNat ≤ X / m.hscale ∧ X / m.hscale < cfg.ox.toNat + cfg.w.toNat
    let row := L / m.vscale - cfg.oy.toNat
    let col := X / m.hscale - cfg.ox.toNat
    (m.cls ≠ .text → ¬ covered → decodePixel p cfg L rd X = indexOfPal p.bgIndex) ∧
    (∀ bpp, m.cls = .packed bpp → covered → decodePixel p cfg L rd X = packedPixel bpp cfg rd row col) ∧
    (m.cls = .planar → covered → decodePixel p cfg L rd X = planarPixel cfg rd row col) ∧
    (m.cls = .linear8 → covered → decodePixel p cfg L rd X = linearPixel cfg rd row col)

/-- Every value the Mode Decoder returns is in 0..250 (R218). -/
def Obligations.DecoderReturnsPaletteIndices : Prop :=
  ∀ (p : Params) (cfg : Cfg) (L : Nat) (rd : Addr → Byte) (X : Nat), (decodePixel p cfg L rd X).toNat ≤ 250

/-- The text modes ignore the framebuffer registers and the graphics modes ignore the text buffer, the cursor and the
blink inputs (R172, R174, R176, R199, R200). -/
def Obligations.EachModeClassIgnoresTheOthersRegisters : Prop :=
  (∀ (p : Params) (cfg : Cfg) (L X : Nat) (rd : Addr → Byte) (ptr : Addr) (w h ox oy : BitVec 12),
    (modeInfo cfg.mode).cls = .text →
    decodePixel p { cfg with fbPtr := ptr, w := w, h := h, ox := ox, oy := oy } L rd X = decodePixel p cfg L rd X) ∧
  (∀ (p : Params) (cfg : Cfg) (L X : Nat) (rd : Addr → Byte) (ptr : Addr) (en ph : Bool) (r : BitVec 5) (c : BitVec 7),
    (modeInfo cfg.mode).cls ≠ .text →
    decodePixel p { cfg with textPtr := ptr, blinkEn := en, blinkPhase := ph, curRow := r, curCol := c } L rd X =
      decodePixel p cfg L rd X)

/-- The decoder is deterministic given the answers to its reads (R219), and its reads are only those of its footprint
(R72): answers that agree on the bytes read give the same line. -/
def Obligations.DecoderDependsOnlyOnItsReads : Prop :=
  ∀ (p : Params) (cfg : Cfg) (L : Nat) (rd rd' : Addr → Byte), (∀ a ∈ lineReads cfg L, rd a = rd' a) →
    ∀ X < 640, decodePixel p cfg L rd X = decodePixel p cfg L rd' X

/-- Each byte is read once per line (R69), and the text modes read the 80 cells of their row in order, character before
attribute, and nothing below the text (R194, R199). -/
def Obligations.EachByteIsReadOnceInOrder : Prop :=
  (∀ (cfg : Cfg) (L : Nat), (lineReads cfg L).Nodup) ∧
  (∀ (cfg : Cfg) (L : Nat), (modeInfo cfg.mode).cls = .text →
    lineReads cfg L =
      if L < 400 then
        (List.range 160).map fun n => cfg.textPtr + BitVec.ofNat 32 (160 * (L / 16) + n)
      else [])

/-- A 256-colour line reads the bytes of its visible columns, left to right, and no more than 640 (R72, R190). -/
def Obligations.LinearLineReadsItsVisibleColumns : Prop :=
  ∀ (cfg : Cfg) (L : Nat), cfg.mode = .lin8At320x200 →
    (lineReads cfg L).length ≤ 640 ∧
    lineReads cfg L =
      if cfg.oy.toNat ≤ L / 2 ∧ L / 2 < cfg.oy.toNat + cfg.h.toNat then
        (List.range (min cfg.w.toNat (320 - cfg.ox.toNat))).map fun n =>
          cfg.fbPtr + BitVec.ofNat 32 ((L / 2 - cfg.oy.toNat) * cfg.w.toNat + n)
      else []

/-- The reads of a packed and of a planar line (R72, R69): when the line's logical row lies in the image, the bytes that
hold its visible pixels, left to right, each once, and for a planar group plane 0 to plane 3; else none. A screen row has
`columns` logical columns: 320, or 160 in the mode with `hscale` 4. -/
def Obligations.PackedAndPlanarLinesReadTheirVisibleBytes : Prop :=
  (∀ (cfg : Cfg) (L bpp columns : Nat),
    (cfg.mode = .pk1At320x200 ∧ bpp = 1 ∧ columns = 320) ∨ (cfg.mode = .pk2At320x200 ∧ bpp = 2 ∧ columns = 320) ∨
      (cfg.mode = .pk4At320x200 ∧ bpp = 4 ∧ columns = 320) ∨ (cfg.mode = .pk4At160x200 ∧ bpp = 4 ∧ columns = 160) →
    lineReads cfg L =
      if cfg.oy.toNat ≤ L / 2 ∧ L / 2 < cfg.oy.toNat + cfg.h.toNat then
        (List.range ((min cfg.w.toNat (columns - cfg.ox.toNat) * bpp + 7) / 8)).map fun j =>
          cfg.fbPtr + BitVec.ofNat 32 ((L / 2 - cfg.oy.toNat) * ((cfg.w.toNat * bpp + 7) / 8) + j)
      else []) ∧
  (∀ (cfg : Cfg) (L : Nat), cfg.mode = .pl4At320x200 →
    lineReads cfg L =
      if cfg.oy.toNat ≤ L / 2 ∧ L / 2 < cfg.oy.toNat + cfg.h.toNat then
        (List.range ((min cfg.w.toNat (320 - cfg.ox.toNat) + 7) / 8)).flatMap fun g =>
          (List.range 4).map fun p =>
            cfg.fbPtr + BitVec.ofNat 32 (4 * ((L / 2 - cfg.oy.toNat) * ((cfg.w.toNat + 7) / 8) + g) + p)
      else [])

/-! ## Memory, reset and the whole machine -/

/-- What a `MemRead` may return (R68): with a quiescent writer the byte last written at the address, every other byte as
before; and with a concurrent one any byte at all at any address. -/
def Obligations.MemoryReadAnswers : Prop :=
  (∀ (s : State) (a : Addr) (b : Byte), s.mem.wf = true →
    ∃ t, runEvent (.store a b) s = .next t ∧
      ∀ a' : Addr, memAnswer t.mem [] a' = if a' = a then b else memAnswer s.mem [] a') ∧
  (∀ (m : Memory) (a : Addr) (b : Byte), ∃ answers, memAnswer m answers a = b ∧
    ∀ a' : Addr, a' ≠ a → memAnswer m answers a' = memAnswer m [] a')

/-- The block never writes external memory (R61): only the emulator's store changes a byte. -/
def Obligations.BlockNeverWritesMemory : Prop :=
  ∀ (e : Event) (s t : State), runEvent e s = .next t → (∀ a b, e ≠ .store a b) →
    ∀ a : Nat, t.mem.read a = s.mem.read a

/-- Reset (R52): after power-on, and after asserting `RST` in any state, every item has its reset value. Slots 251 to 255
of the table are not spoken of: the spec gives them none. -/
def Obligations.ResetRestoresEveryItem : Prop :=
  State.reset.HasResetValues ∧ ∀ s : State, ∃ t, runEvent (.drive (.rst true)) s = .next t ∧ t.HasResetValues

/-- The invariant holds after reset. -/
def Obligations.ResetMeetsTheInvariant : Prop := State.reset.Inv

/-- Every step keeps the invariant, whatever event of whatever agent it is: the ranges of R49, the elements of R47, the
table of R46 and R158, what RUNNING and IDLE mean, and the buffer relations behind R250. -/
def Obligations.EveryStepKeepsTheInvariant : Prop :=
  ∀ s t : State, s.Inv → step s = .next t → t.Inv

/-- The buffer being streamed is not the one a tick writes (R48, R250). -/
def Obligations.StreamedBufferIsNotWritten : Prop :=
  ∀ (s t : State) (answers : List (Addr × Byte)), s.Inv → s.tickEnabled = true →
    runEvent (.tick answers) s = .next t → t.cur = s.cur ∧ t.lb s.cur = s.lb s.cur

/-- The only fault a step can end in is the overrun, and only when the schedule breaks the tick deadline (R322): from a
state of the invariant no word of index 255 is ever asked for (R47). -/
def Obligations.OnlyABrokenDeadlineFaults : Prop :=
  ∀ s : State, s.Inv → (∀ r, step s = .fault r → r = .handlerOverrun) ∧ (s.MeetsDeadline → ∀ r, step s ≠ .fault r)

/-- Who may write what (R50), reset apart: the configuration, the colours, the table, `STATE` and the enables are written
by host events only; the counters and the line buffers by the handler only; `CUR` and `IDX` by the pipeline only, `POS`
and `PHASE` by the pipeline and the host; `SRC` by the handler and the host, not by `LINE_START`; `IRQ_PEND` by
`LINE_START`, the handler and the host. -/
def Obligations.OwnersAloneWrite : Prop :=
  ∀ (e : Event) (s t : State), runEvent e s = .next t → e ≠ .drive (.rst true) →
    (e ≠ .command → e ≠ .commandSplit → e ≠ .microWrite →
      t.mode = s.mode ∧ t.fbPtr = s.fbPtr ∧ t.fbWidth = s.fbWidth ∧ t.fbHeight = s.fbHeight ∧ t.offX = s.offX ∧
      t.offY = s.offY ∧ t.textPtr = s.textPtr ∧ t.palRgb = s.palRgb ∧ t.tab = s.tab ∧ t.drv = s.drv ∧
      t.irqEn = s.irqEn ∧ t.pipeEn = s.pipeEn ∧ t.pipeCfgOk = s.pipeCfgOk ∧ t.abort = s.abort) ∧
    ((∀ answers, e ≠ .tick answers) →
      t.line = s.line ∧ t.bufIdx = s.bufIdx ∧ t.ticks = s.ticks ∧ t.lb0 = s.lb0 ∧ t.lb1 = s.lb1) ∧
    (e ≠ .lineStart → e ≠ .emit → t.cur = s.cur ∧ t.idx = s.idx ∧ t.out64 = s.out64) ∧
    (e ≠ .command → e ≠ .commandSplit → e ≠ .lineStart → e ≠ .emit → t.pos = s.pos ∧ t.phase = s.phase) ∧
    (e ≠ .command → e ≠ .commandSplit → (∀ answers, e ≠ .tick answers) → t.src = s.src) ∧
    (e ≠ .command → e ≠ .commandSplit → e ≠ .lineStart → (∀ answers, e ≠ .tick answers) → t.irqPend = s.irqPend)
end

