-- ==== Sys2Proof/Laws/Bank.lean ====
section
/-! SUPPORT. The laws of a register file: reading after building, reading after writing, equality by elements. -/

namespace Sys2Proof

/-- Reading the file built from `f` gives `f`. -/
@[simp] theorem Bank.get_tab {α : Type} {n : Nat} (f : Nat → α) (i : Fin n) : (Bank.tab n f).get i = f i.val := by
  simp [Bank.get, Bank.tab]

/-- Reading after a write: the element written, or the old one elsewhere. -/
theorem Bank.get_set {α : Type} {n : Nat} (b : Bank α n) (i j : Fin n) (v : α) :
    (b.set i v).get j = if j = i then v else b.get j := by
  by_cases h : j = i
  · subst h; simp [Bank.get, Bank.set]
  · have : i.val ≠ j.val := fun e => h (Fin.ext e.symm)
    simp [Bank.get, Bank.set, h, this]

@[simp] theorem Bank.get_set_same {α : Type} {n : Nat} (b : Bank α n) (i : Fin n) (v : α) : (b.set i v).get i = v := by
  simp [Bank.get_set]

theorem Bank.get_set_ne {α : Type} {n : Nat} (b : Bank α n) {i j : Fin n} (v : α) (h : j ≠ i) :
    (b.set i v).get j = b.get j := by simp [Bank.get_set, h]

/-- Two files with equal elements are equal. -/
@[ext] theorem Bank.ext_get {α : Type} {n : Nat} {a b : Bank α n} (h : ∀ i, a.get i = b.get i) : a = b := by
  obtain ⟨xs, hx⟩ := a
  obtain ⟨ys, hy⟩ := b
  congr
  apply List.ext_getElem (by rw [hx, hy])
  intro k h1 h2
  exact h ⟨k, hx ▸ h1⟩

/-- A later write to the same element wins. -/
@[simp] theorem Bank.set_set {α : Type} {n : Nat} (b : Bank α n) (i : Fin n) (v w : α) :
    (b.set i v).set i w = b.set i w := by
  apply Bank.ext_get
  intro j
  by_cases h : j = i <;> simp [Bank.get_set, h]

/-- Writing what an element holds changes nothing. -/
@[simp] theorem Bank.set_get_self {α : Type} {n : Nat} (b : Bank α n) (i : Fin n) : b.set i (b.get i) = b := by
  apply Bank.ext_get
  intro j
  by_cases h : j = i <;> simp [Bank.get_set, h]

/-- A file is the list of its elements. -/
theorem Bank.cells_eq {α : Type} {n : Nat} (b : Bank α n) : b.cells = (List.finRange n).map b.get := by
  apply List.ext_getElem (by simp [b.size_eq])
  intro k h1 h2
  simp [Bank.get]

end Sys2Proof
end

