-- ==== Sys2Proof/Laws/Bits.lean ====
section
/-! SUPPORT. The bits of the values the encoder builds: one lemma per bit-level definition. -/

namespace Sys2Proof.Machine

/-- The bits of `bitsOf`. -/
@[simp] theorem getLsbD_bitsOf (n : Nat) (f : Nat → Bool) (i : Nat) :
    (bitsOf n f).getLsbD i = (decide (i < n) && f i) := by
  induction n with
  | zero => simp [bitsOf]
  | succ n ih =>
    rw [bitsOf, BitVec.getLsbD_cons, ih]
    by_cases h : i = n
    · simp [h]
    · by_cases h2 : i < n
      · simp [h, h2, Nat.lt_succ_of_lt h2]
      · have : ¬ i < n + 1 := by omega
        simp [h, h2, this]

@[simp] theorem getElem_bitsOf (n : Nat) (f : Nat → Bool) (i : Nat) (h : i < n) : (bitsOf n f)[i] = f i := by
  rw [← BitVec.getLsbD_eq_getElem, getLsbD_bitsOf]
  simp [h]

/-- The bits of a pair: bit 0 is the code bit and bit 1 its complement, both flipped by `PAIR_INVERT` (R95). -/
theorem getLsbD_pair (p : Params) (b : Bool) (j : Nat) :
    (pair p b).getLsbD j = (decide (j < 2) && (b ^^ decide (j = 1) ^^ p.pairInvert)) := by
  unfold pair
  rcases j with _ | _ | j
  · cases h : p.pairInvert <;> cases b <;> simp
  · cases h : p.pairInvert <;> cases b <;> simp
  · have : ¬ (j + 1 + 1 < 2) := by omega
    simp only [this, decide_false, Bool.false_and]
    exact BitVec.getLsbD_of_ge _ _ (by omega)

/-- The bit of a unit for channel bits `r`, `g`, `b` (R96): slots 2, 1, 0 hold red, green, blue under `RGB`, blue, green,
red under `BGR`. -/
theorem getLsbD_pinUnit (p : Params) (r g b : Bool) (k : Nat) :
    (pinUnit p r g b).getLsbD k =
      match p.chOrder with
      | .rgb => if k < 2 then (pair p b).getLsbD k
                else if k < 4 then (pair p g).getLsbD (k - 2) else (pair p r).getLsbD (k - 4)
      | .bgr => if k < 2 then (pair p r).getLsbD k
                else if k < 4 then (pair p g).getLsbD (k - 2) else (pair p b).getLsbD (k - 4) := by
  unfold pinUnit
  cases p.chOrder <;> simp only [BitVec.getLsbD_append] <;> split <;> (try rfl) <;>
    split <;> rename_i h1 h2 <;>
    first
      | (rw [if_pos (by omega)])
      | (rw [if_neg (by omega)]; congr 1)

theorem getElem_pair (p : Params) (b : Bool) (j : Nat) (h : j < 2) :
    (pair p b)[j] = (b ^^ decide (j = 1) ^^ p.pairInvert) := by
  rw [← BitVec.getLsbD_eq_getElem, getLsbD_pair]
  simp [h]

theorem getElem_pinUnit (p : Params) (r g b : Bool) (k : Nat) (h : k < 6) :
    (pinUnit p r g b)[k] =
      match p.chOrder with
      | .rgb => if k < 2 then (pair p b).getLsbD k
                else if k < 4 then (pair p g).getLsbD (k - 2) else (pair p r).getLsbD (k - 4)
      | .bgr => if k < 2 then (pair p r).getLsbD k
                else if k < 4 then (pair p g).getLsbD (k - 2) else (pair p b).getLsbD (k - 4) := by
  rw [← BitVec.getLsbD_eq_getElem, getLsbD_pinUnit]

/-- The bits of a serialised word: those of its units at the places of R93, zero at 63, 62, 31 and 30. -/
theorem getLsbD_ser (p : Params) (r g b : Code) (k : Nat) :
    (ser p r g b).getLsbD k =
      if k < 30 then
        (pinUnit p (r.getLsbD (k / 6)) (g.getLsbD (k / 6)) (b.getLsbD (k / 6))).getLsbD (k % 6)
      else if k < 32 then false
      else if k < 62 then
        (pinUnit p (r.getLsbD ((k - 2) / 6)) (g.getLsbD ((k - 2) / 6)) (b.getLsbD ((k - 2) / 6))).getLsbD ((k - 2) % 6)
      else false := by
  by_cases h0 : k < 64
  · unfold ser
    simp only [BitVec.getLsbD_append]
    interval_cases k <;> simp
  · rw [BitVec.getLsbD_of_ge _ _ (by omega)]
    simp [show ¬ k < 30 by omega, show ¬ k < 32 by omega, show ¬ k < 62 by omega]

/-- The bits of a code: bits 7:0 are the chain, complemented when inverted; exactly one of bits 8 and 9 is set (R90,
R131). -/
theorem getLsbD_enc (d : Byte) (n : Nat) :
    (enc d).getLsbD n =
      if n < 8 then chainBit (encInverted d) d n ^^ encInverted d
      else if n = 8 then !encInverted d
      else decide (n = 9) && encInverted d := by
  unfold enc
  cases h : encInverted d
  · simp only [Bool.false_eq_true, if_false, BitVec.getLsbD_append]
    by_cases h8 : n < 8
    · simp [h8]
    · rcases Nat.lt_or_ge n 10 with h10 | h10
      · interval_cases n <;> simp at *
      · simp [h8, show n ≠ 8 by omega, BitVec.getLsbD_of_ge (1#2) (n - 8) (by omega)]
  · simp only [if_true, BitVec.getLsbD_append]
    by_cases h8 : n < 8
    · simp [h8]
    · rcases Nat.lt_or_ge n 10 with h10 | h10
      · interval_cases n <;> simp at *
      · simp [h8, show n ≠ 8 by omega, show n ≠ 9 by omega, BitVec.getLsbD_of_ge (2#2) (n - 8) (by omega)]

/-- The bits of `SPREAD` (R211). -/
@[simp] theorem getLsbD_spread (b : Byte) (k : Nat) :
    (spread b).getLsbD k = (decide (k < 32) && (k % 4 == 0 && b.getLsbD (k / 4))) := by
  simp [spread]

end Sys2Proof.Machine
end

