-- ==== Sys2Proof/Laws/Decoding.lean ====
section
/-! SUPPORT. The decoder, case by case of the opcode. -/

namespace Sys2Proof

/-- Everything the decoder can answer, by the opcode (R120). -/
theorem decode_cases (w : Word64) :
    (w.extractLsb' 56 8 = 1 ∧ decode w = .ok .init) ∨
    (w.extractLsb' 56 8 = 2 ∧ decode w = .ok (.setMode (w.extractLsb' 0 8))) ∨
    (w.extractLsb' 56 8 = 3 ∧ decode w = .ok (.setPalette (w.extractLsb' 24 8) (w.extractLsb' 0 24))) ∨
    (w.extractLsb' 56 8 = 4 ∧ decode w = .ok (.setBackground (w.extractLsb' 0 24))) ∨
    (w.extractLsb' 56 8 = 5 ∧
      decode w = .ok (.setBuffer (w.extractLsb' 24 32) (w.extractLsb' 12 12) (w.extractLsb' 0 12))) ∨
    (w.extractLsb' 56 8 = 6 ∧ decode w = .ok (.setOffset (w.extractLsb' 12 12) (w.extractLsb' 0 12))) ∨
    (w.extractLsb' 56 8 = 7 ∧ decode w = .ok (.setTextbuffer (w.extractLsb' 0 32))) ∨
    (((w.extractLsb' 56 8).toNat = 0 ∨ 8 ≤ (w.extractLsb' 56 8).toNat) ∧
      decode w = .error (.reservedOpcode (w.extractLsb' 56 8))) := by
  have key : ∀ k : Nat, k < 256 → (w.extractLsb' 56 8).toNat = k → w.extractLsb' 56 8 = BitVec.ofNat 8 k := by
    intro k hk h
    apply BitVec.eq_of_toNat_eq
    rw [h, BitVec.toNat_ofNat, Nat.mod_eq_of_lt hk]
  unfold decode opcodeField
  split <;> rename_i h
  · exact .inl ⟨key 1 (by decide) h, rfl⟩
  · exact .inr (.inl ⟨key 2 (by decide) h, rfl⟩)
  · exact .inr (.inr (.inl ⟨key 3 (by decide) h, rfl⟩))
  · exact .inr (.inr (.inr (.inl ⟨key 4 (by decide) h, rfl⟩)))
  · exact .inr (.inr (.inr (.inr (.inl ⟨key 5 (by decide) h, rfl⟩))))
  · exact .inr (.inr (.inr (.inr (.inr (.inl ⟨key 6 (by decide) h, rfl⟩)))))
  · exact .inr (.inr (.inr (.inr (.inr (.inr (.inl ⟨key 7 (by decide) h, rfl⟩))))))
  · refine .inr (.inr (.inr (.inr (.inr (.inr (.inr ⟨?_, rfl⟩))))))
    by_contra hc
    have h8 : (w.extractLsb' 56 8).toNat < 8 := by omega
    have h0 : (w.extractLsb' 56 8).toNat ≠ 0 := by omega
    revert h
    generalize (w.extractLsb' 56 8).toNat = n at *
    interval_cases n <;> simp_all

/-- A mode number denotes the mode it is the number of (R116). -/
@[simp] theorem ofNumber_number (m : DisplayMode) : DisplayMode.ofNumber? m.number = some m := by
  cases m <;> rfl

/-- The modes are the numbers 0..7, and 8..255 are reserved (R116, R117). -/
theorem ofNumber_cases (n : BitVec 8) :
    (∃ m, DisplayMode.ofNumber? n = some m ∧ m.number = n ∧ n.toNat < 8) ∨
      (DisplayMode.ofNumber? n = none ∧ 8 ≤ n.toNat) := by
  have key : ∀ k : Nat, k < 256 → n.toNat = k → n = BitVec.ofNat 8 k := by
    intro k hk h
    apply BitVec.eq_of_toNat_eq
    rw [h, BitVec.toNat_ofNat, Nat.mod_eq_of_lt hk]
  by_cases h : n.toNat < 8
  · left
    have hn : n = BitVec.ofNat 8 n.toNat := by simp
    generalize n.toNat = k at *
    subst hn
    interval_cases k <;> exact ⟨_, rfl, rfl, by decide⟩
  · right
    refine ⟨?_, by omega⟩
    unfold DisplayMode.ofNumber?
    generalize n.toNat = k at *
    split <;> first | omega | rfl

end Sys2Proof
end

