-- ==== Sys2Proof/Laws/Memory.lean ====
section
/-! SUPPORT. External memory keeps its canonical form. -/

namespace Sys2Proof.Machine

/-- What the canonical form says. -/
theorem Memory.wf_iff (m : Memory) :
    m.wf = true ↔ m.Pairwise (fun c d => c.1 < d.1) ∧ ∀ c ∈ m, c.1 < 2 ^ 32 ∧ c.2 ≠ unlistedByte := by
  simp [Memory.wf]

/-- The empty memory has the form. -/
theorem Memory.wf_nil : Memory.wf [] = true := by decide

/-- A part after the first cell has the form. -/
theorem Memory.wf_tail {c : Host.Cell} {m : Memory} (h : Memory.wf (c :: m) = true) : Memory.wf m = true := by
  rw [Memory.wf_iff] at *
  exact ⟨(List.pairwise_cons.mp h.1).2, fun d hd => h.2 d (List.mem_cons_of_mem _ hd)⟩

/-- The addresses a write leaves listed: those listed before and the one written. -/
theorem Memory.mem_write {m : Memory} {a : Nat} {b : Byte} {c : Host.Cell} (h : c ∈ m.write a b) :
    c ∈ m ∨ (c = (a, b) ∧ b ≠ unlistedByte) := by
  induction m with
  | nil =>
    simp only [Memory.write] at h
    split at h
    · cases h
    · exact .inr ⟨by simpa using h, ‹_›⟩
  | cons d m ih =>
    simp only [Memory.write] at h
    split at h
    · split at h
      · exact .inl h
      · rcases List.mem_cons.mp h with h | h
        · exact .inr ⟨h, ‹_›⟩
        · exact .inl h
    · split at h
      · split at h
        · exact .inl (List.mem_cons_of_mem _ h)
        · rcases List.mem_cons.mp h with h | h
          · exact .inr ⟨h, ‹_›⟩
          · exact .inl (List.mem_cons_of_mem _ h)
      · rcases List.mem_cons.mp h with h | h
        · exact .inl (h ▸ List.mem_cons_self)
        · exact (ih h).imp (List.mem_cons_of_mem _) id

/-- A write keeps the canonical form. -/
theorem Memory.write_wf {m : Memory} {a : Nat} {b : Byte} (h : m.wf = true) (ha : a < 2 ^ 32) :
    (m.write a b).wf = true := by
  rw [Memory.wf_iff]
  refine ⟨?_, fun c hc => ?_⟩
  · induction m with
    | nil => simp only [Memory.write]; split <;> simp
    | cons d m ih =>
      have hp := List.pairwise_cons.mp ((Memory.wf_iff _).mp h).1
      simp only [Memory.write]
      split
      · split
        · exact ((Memory.wf_iff _).mp h).1
        · refine List.pairwise_cons.mpr ⟨fun e he => ?_, ((Memory.wf_iff _).mp h).1⟩
          rcases List.mem_cons.mp he with he | he
          · exact he ▸ ‹a < d.1›
          · exact Nat.lt_trans ‹a < d.1› (hp.1 e he)
      · split
        · split
          · exact hp.2
          · exact List.pairwise_cons.mpr ⟨fun e he => (show a = d.1 from ‹_›) ▸ hp.1 e he, hp.2⟩
        · refine List.pairwise_cons.mpr ⟨fun e he => ?_, ih (Memory.wf_tail h)⟩
          rcases Memory.mem_write he with he | ⟨rfl, -⟩
          · exact hp.1 e he
          · exact lt_of_le_of_ne (not_lt.mp ‹_›) (Ne.symm ‹_›)
  · rcases Memory.mem_write hc with hc | ⟨rfl, hb⟩
    · exact ((Memory.wf_iff _).mp h).2 c hc
    · exact ⟨ha, hb⟩

/-- The emulator's store keeps the canonical form. -/
theorem State.storeByte_wf (s : State) (a : Addr) (b : Byte) (h : s.mem.wf = true) : (s.storeByte a b).mem.wf = true :=
  Memory.write_wf h a.isLt

/-- The memory after reset has the canonical form. -/
theorem State.reset_mem_wf : State.reset.mem.wf = true := Memory.wf_nil

end Sys2Proof.Machine
end

