-- ==== Sys2Proof/Laws/State.lean ====
section
/-! SUPPORT. One lemma per field per update of State, true by rfl and tagged simp, so that no proof unfolds a record
update. -/

namespace Sys2Proof.Machine

/-! ### storeByte -/

@[simp] theorem State.storeByte_mode (s : State) (a : Addr) (b : Byte) : (s.storeByte a b).mode = s.mode := rfl
@[simp] theorem State.storeByte_fbPtr (s : State) (a : Addr) (b : Byte) : (s.storeByte a b).fbPtr = s.fbPtr := rfl
@[simp] theorem State.storeByte_fbWidth (s : State) (a : Addr) (b : Byte) : (s.storeByte a b).fbWidth = s.fbWidth := rfl
@[simp] theorem State.storeByte_fbHeight (s : State) (a : Addr) (b : Byte) : (s.storeByte a b).fbHeight = s.fbHeight := rfl
@[simp] theorem State.storeByte_offX (s : State) (a : Addr) (b : Byte) : (s.storeByte a b).offX = s.offX := rfl
@[simp] theorem State.storeByte_offY (s : State) (a : Addr) (b : Byte) : (s.storeByte a b).offY = s.offY := rfl
@[simp] theorem State.storeByte_textPtr (s : State) (a : Addr) (b : Byte) : (s.storeByte a b).textPtr = s.textPtr := rfl
@[simp] theorem State.storeByte_palRgb (s : State) (a : Addr) (b : Byte) : (s.storeByte a b).palRgb = s.palRgb := rfl
@[simp] theorem State.storeByte_tab (s : State) (a : Addr) (b : Byte) : (s.storeByte a b).tab = s.tab := rfl
@[simp] theorem State.storeByte_lb0 (s : State) (a : Addr) (b : Byte) : (s.storeByte a b).lb0 = s.lb0 := rfl
@[simp] theorem State.storeByte_lb1 (s : State) (a : Addr) (b : Byte) : (s.storeByte a b).lb1 = s.lb1 := rfl
@[simp] theorem State.storeByte_drv (s : State) (a : Addr) (b : Byte) : (s.storeByte a b).drv = s.drv := rfl
@[simp] theorem State.storeByte_line (s : State) (a : Addr) (b : Byte) : (s.storeByte a b).line = s.line := rfl
@[simp] theorem State.storeByte_bufIdx (s : State) (a : Addr) (b : Byte) : (s.storeByte a b).bufIdx = s.bufIdx := rfl
@[simp] theorem State.storeByte_ticks (s : State) (a : Addr) (b : Byte) : (s.storeByte a b).ticks = s.ticks := rfl
@[simp] theorem State.storeByte_src (s : State) (a : Addr) (b : Byte) : (s.storeByte a b).src = s.src := rfl
@[simp] theorem State.storeByte_irqEn (s : State) (a : Addr) (b : Byte) : (s.storeByte a b).irqEn = s.irqEn := rfl
@[simp] theorem State.storeByte_irqPend (s : State) (a : Addr) (b : Byte) : (s.storeByte a b).irqPend = s.irqPend := rfl
@[simp] theorem State.storeByte_pipeEn (s : State) (a : Addr) (b : Byte) : (s.storeByte a b).pipeEn = s.pipeEn := rfl
@[simp] theorem State.storeByte_pipeCfgOk (s : State) (a : Addr) (b : Byte) : (s.storeByte a b).pipeCfgOk = s.pipeCfgOk := rfl
@[simp] theorem State.storeByte_abort (s : State) (a : Addr) (b : Byte) : (s.storeByte a b).abort = s.abort := rfl
@[simp] theorem State.storeByte_cur (s : State) (a : Addr) (b : Byte) : (s.storeByte a b).cur = s.cur := rfl
@[simp] theorem State.storeByte_pos (s : State) (a : Addr) (b : Byte) : (s.storeByte a b).pos = s.pos := rfl
@[simp] theorem State.storeByte_phase (s : State) (a : Addr) (b : Byte) : (s.storeByte a b).phase = s.phase := rfl
@[simp] theorem State.storeByte_idx (s : State) (a : Addr) (b : Byte) : (s.storeByte a b).idx = s.idx := rfl
@[simp] theorem State.storeByte_out64 (s : State) (a : Addr) (b : Byte) : (s.storeByte a b).out64 = s.out64 := rfl
@[simp] theorem State.storeByte_mem (s : State) (a : Addr) (b : Byte) : (s.storeByte a b).mem = s.mem.write a.toNat b := rfl
@[simp] theorem State.storeByte_ports (s : State) (a : Addr) (b : Byte) : (s.storeByte a b).ports = s.ports := rfl
@[simp] theorem State.storeByte_hostPend (s : State) (a : Addr) (b : Byte) : (s.storeByte a b).hostPend = s.hostPend := rfl
@[simp] theorem State.storeByte_memReads (s : State) (a : Addr) (b : Byte) : (s.storeByte a b).memReads = s.memReads := rfl
@[simp] theorem State.storeByte_sched (s : State) (a : Addr) (b : Byte) : (s.storeByte a b).sched = s.sched := rfl
@[simp] theorem State.storeByte_now (s : State) (a : Addr) (b : Byte) : (s.storeByte a b).now = s.now := rfl
@[simp] theorem State.storeByte_lb (s : State) (a : Addr) (b : Byte) (c : Bool) : (s.storeByte a b).lb c = s.lb c := rfl
@[simp] theorem State.storeByte_lbEntry (s : State) (a : Addr) (b : Byte) (c : Bool) (k : Nat) : (s.storeByte a b).lbEntry c k = s.lbEntry c k := rfl
@[simp] theorem State.storeByte_tabEntry (s : State) (a : Addr) (b : Byte) (i : Index) : (s.storeByte a b).tabEntry i = s.tabEntry i := rfl

/-! ### setPend -/

@[simp] theorem State.setPend_mode (s : State) (ws : List MicroWrite) : (s.setPend ws).mode = s.mode := rfl
@[simp] theorem State.setPend_fbPtr (s : State) (ws : List MicroWrite) : (s.setPend ws).fbPtr = s.fbPtr := rfl
@[simp] theorem State.setPend_fbWidth (s : State) (ws : List MicroWrite) : (s.setPend ws).fbWidth = s.fbWidth := rfl
@[simp] theorem State.setPend_fbHeight (s : State) (ws : List MicroWrite) : (s.setPend ws).fbHeight = s.fbHeight := rfl
@[simp] theorem State.setPend_offX (s : State) (ws : List MicroWrite) : (s.setPend ws).offX = s.offX := rfl
@[simp] theorem State.setPend_offY (s : State) (ws : List MicroWrite) : (s.setPend ws).offY = s.offY := rfl
@[simp] theorem State.setPend_textPtr (s : State) (ws : List MicroWrite) : (s.setPend ws).textPtr = s.textPtr := rfl
@[simp] theorem State.setPend_palRgb (s : State) (ws : List MicroWrite) : (s.setPend ws).palRgb = s.palRgb := rfl
@[simp] theorem State.setPend_tab (s : State) (ws : List MicroWrite) : (s.setPend ws).tab = s.tab := rfl
@[simp] theorem State.setPend_lb0 (s : State) (ws : List MicroWrite) : (s.setPend ws).lb0 = s.lb0 := rfl
@[simp] theorem State.setPend_lb1 (s : State) (ws : List MicroWrite) : (s.setPend ws).lb1 = s.lb1 := rfl
@[simp] theorem State.setPend_drv (s : State) (ws : List MicroWrite) : (s.setPend ws).drv = s.drv := rfl
@[simp] theorem State.setPend_line (s : State) (ws : List MicroWrite) : (s.setPend ws).line = s.line := rfl
@[simp] theorem State.setPend_bufIdx (s : State) (ws : List MicroWrite) : (s.setPend ws).bufIdx = s.bufIdx := rfl
@[simp] theorem State.setPend_ticks (s : State) (ws : List MicroWrite) : (s.setPend ws).ticks = s.ticks := rfl
@[simp] theorem State.setPend_src (s : State) (ws : List MicroWrite) : (s.setPend ws).src = s.src := rfl
@[simp] theorem State.setPend_irqEn (s : State) (ws : List MicroWrite) : (s.setPend ws).irqEn = s.irqEn := rfl
@[simp] theorem State.setPend_irqPend (s : State) (ws : List MicroWrite) : (s.setPend ws).irqPend = s.irqPend := rfl
@[simp] theorem State.setPend_pipeEn (s : State) (ws : List MicroWrite) : (s.setPend ws).pipeEn = s.pipeEn := rfl
@[simp] theorem State.setPend_pipeCfgOk (s : State) (ws : List MicroWrite) : (s.setPend ws).pipeCfgOk = s.pipeCfgOk := rfl
@[simp] theorem State.setPend_abort (s : State) (ws : List MicroWrite) : (s.setPend ws).abort = s.abort := rfl
@[simp] theorem State.setPend_cur (s : State) (ws : List MicroWrite) : (s.setPend ws).cur = s.cur := rfl
@[simp] theorem State.setPend_pos (s : State) (ws : List MicroWrite) : (s.setPend ws).pos = s.pos := rfl
@[simp] theorem State.setPend_phase (s : State) (ws : List MicroWrite) : (s.setPend ws).phase = s.phase := rfl
@[simp] theorem State.setPend_idx (s : State) (ws : List MicroWrite) : (s.setPend ws).idx = s.idx := rfl
@[simp] theorem State.setPend_out64 (s : State) (ws : List MicroWrite) : (s.setPend ws).out64 = s.out64 := rfl
@[simp] theorem State.setPend_mem (s : State) (ws : List MicroWrite) : (s.setPend ws).mem = s.mem := rfl
@[simp] theorem State.setPend_ports (s : State) (ws : List MicroWrite) : (s.setPend ws).ports = s.ports := rfl
@[simp] theorem State.setPend_hostPend (s : State) (ws : List MicroWrite) : (s.setPend ws).hostPend = ws := rfl
@[simp] theorem State.setPend_memReads (s : State) (ws : List MicroWrite) : (s.setPend ws).memReads = s.memReads := rfl
@[simp] theorem State.setPend_sched (s : State) (ws : List MicroWrite) : (s.setPend ws).sched = s.sched := rfl
@[simp] theorem State.setPend_now (s : State) (ws : List MicroWrite) : (s.setPend ws).now = s.now := rfl
@[simp] theorem State.setPend_lb (s : State) (ws : List MicroWrite) (c : Bool) : (s.setPend ws).lb c = s.lb c := rfl
@[simp] theorem State.setPend_lbEntry (s : State) (ws : List MicroWrite) (c : Bool) (k : Nat) : (s.setPend ws).lbEntry c k = s.lbEntry c k := rfl
@[simp] theorem State.setPend_tabEntry (s : State) (ws : List MicroWrite) (i : Index) : (s.setPend ws).tabEntry i = s.tabEntry i := rfl

/-! ### takeCommand -/

@[simp] theorem State.takeCommand_mode (s : State) : s.takeCommand.mode = s.mode := rfl
@[simp] theorem State.takeCommand_fbPtr (s : State) : s.takeCommand.fbPtr = s.fbPtr := rfl
@[simp] theorem State.takeCommand_fbWidth (s : State) : s.takeCommand.fbWidth = s.fbWidth := rfl
@[simp] theorem State.takeCommand_fbHeight (s : State) : s.takeCommand.fbHeight = s.fbHeight := rfl
@[simp] theorem State.takeCommand_offX (s : State) : s.takeCommand.offX = s.offX := rfl
@[simp] theorem State.takeCommand_offY (s : State) : s.takeCommand.offY = s.offY := rfl
@[simp] theorem State.takeCommand_textPtr (s : State) : s.takeCommand.textPtr = s.textPtr := rfl
@[simp] theorem State.takeCommand_palRgb (s : State) : s.takeCommand.palRgb = s.palRgb := rfl
@[simp] theorem State.takeCommand_tab (s : State) : s.takeCommand.tab = s.tab := rfl
@[simp] theorem State.takeCommand_lb0 (s : State) : s.takeCommand.lb0 = s.lb0 := rfl
@[simp] theorem State.takeCommand_lb1 (s : State) : s.takeCommand.lb1 = s.lb1 := rfl
@[simp] theorem State.takeCommand_drv (s : State) : s.takeCommand.drv = s.drv := rfl
@[simp] theorem State.takeCommand_line (s : State) : s.takeCommand.line = s.line := rfl
@[simp] theorem State.takeCommand_bufIdx (s : State) : s.takeCommand.bufIdx = s.bufIdx := rfl
@[simp] theorem State.takeCommand_ticks (s : State) : s.takeCommand.ticks = s.ticks := rfl
@[simp] theorem State.takeCommand_src (s : State) : s.takeCommand.src = s.src := rfl
@[simp] theorem State.takeCommand_irqEn (s : State) : s.takeCommand.irqEn = s.irqEn := rfl
@[simp] theorem State.takeCommand_irqPend (s : State) : s.takeCommand.irqPend = s.irqPend := rfl
@[simp] theorem State.takeCommand_pipeEn (s : State) : s.takeCommand.pipeEn = s.pipeEn := rfl
@[simp] theorem State.takeCommand_pipeCfgOk (s : State) : s.takeCommand.pipeCfgOk = s.pipeCfgOk := rfl
@[simp] theorem State.takeCommand_abort (s : State) : s.takeCommand.abort = s.abort := rfl
@[simp] theorem State.takeCommand_cur (s : State) : s.takeCommand.cur = s.cur := rfl
@[simp] theorem State.takeCommand_pos (s : State) : s.takeCommand.pos = s.pos := rfl
@[simp] theorem State.takeCommand_phase (s : State) : s.takeCommand.phase = s.phase := rfl
@[simp] theorem State.takeCommand_idx (s : State) : s.takeCommand.idx = s.idx := rfl
@[simp] theorem State.takeCommand_out64 (s : State) : s.takeCommand.out64 = s.out64 := rfl
@[simp] theorem State.takeCommand_mem (s : State) : s.takeCommand.mem = s.mem := rfl
@[simp] theorem State.takeCommand_ports (s : State) : s.takeCommand.ports = { s.ports with cmdValid := false } := rfl
@[simp] theorem State.takeCommand_hostPend (s : State) : s.takeCommand.hostPend = s.hostPend := rfl
@[simp] theorem State.takeCommand_memReads (s : State) : s.takeCommand.memReads = s.memReads := rfl
@[simp] theorem State.takeCommand_sched (s : State) : s.takeCommand.sched = s.sched := rfl
@[simp] theorem State.takeCommand_now (s : State) : s.takeCommand.now = s.now := rfl
@[simp] theorem State.takeCommand_lb (s : State) (c : Bool) : s.takeCommand.lb c = s.lb c := rfl
@[simp] theorem State.takeCommand_lbEntry (s : State) (c : Bool) (k : Nat) : s.takeCommand.lbEntry c k = s.lbEntry c k := rfl
@[simp] theorem State.takeCommand_tabEntry (s : State) (i : Index) : s.takeCommand.tabEntry i = s.tabEntry i := rfl

/-! ### raiseFatalInit -/

@[simp] theorem State.raiseFatalInit_mode (s : State) : s.raiseFatalInit.mode = s.mode := rfl
@[simp] theorem State.raiseFatalInit_fbPtr (s : State) : s.raiseFatalInit.fbPtr = s.fbPtr := rfl
@[simp] theorem State.raiseFatalInit_fbWidth (s : State) : s.raiseFatalInit.fbWidth = s.fbWidth := rfl
@[simp] theorem State.raiseFatalInit_fbHeight (s : State) : s.raiseFatalInit.fbHeight = s.fbHeight := rfl
@[simp] theorem State.raiseFatalInit_offX (s : State) : s.raiseFatalInit.offX = s.offX := rfl
@[simp] theorem State.raiseFatalInit_offY (s : State) : s.raiseFatalInit.offY = s.offY := rfl
@[simp] theorem State.raiseFatalInit_textPtr (s : State) : s.raiseFatalInit.textPtr = s.textPtr := rfl
@[simp] theorem State.raiseFatalInit_palRgb (s : State) : s.raiseFatalInit.palRgb = s.palRgb := rfl
@[simp] theorem State.raiseFatalInit_tab (s : State) : s.raiseFatalInit.tab = s.tab := rfl
@[simp] theorem State.raiseFatalInit_lb0 (s : State) : s.raiseFatalInit.lb0 = s.lb0 := rfl
@[simp] theorem State.raiseFatalInit_lb1 (s : State) : s.raiseFatalInit.lb1 = s.lb1 := rfl
@[simp] theorem State.raiseFatalInit_drv (s : State) : s.raiseFatalInit.drv = .failed := rfl
@[simp] theorem State.raiseFatalInit_line (s : State) : s.raiseFatalInit.line = s.line := rfl
@[simp] theorem State.raiseFatalInit_bufIdx (s : State) : s.raiseFatalInit.bufIdx = s.bufIdx := rfl
@[simp] theorem State.raiseFatalInit_ticks (s : State) : s.raiseFatalInit.ticks = s.ticks := rfl
@[simp] theorem State.raiseFatalInit_src (s : State) : s.raiseFatalInit.src = s.src := rfl
@[simp] theorem State.raiseFatalInit_irqEn (s : State) : s.raiseFatalInit.irqEn = s.irqEn := rfl
@[simp] theorem State.raiseFatalInit_irqPend (s : State) : s.raiseFatalInit.irqPend = s.irqPend := rfl
@[simp] theorem State.raiseFatalInit_pipeEn (s : State) : s.raiseFatalInit.pipeEn = s.pipeEn := rfl
@[simp] theorem State.raiseFatalInit_pipeCfgOk (s : State) : s.raiseFatalInit.pipeCfgOk = s.pipeCfgOk := rfl
@[simp] theorem State.raiseFatalInit_abort (s : State) : s.raiseFatalInit.abort = s.abort := rfl
@[simp] theorem State.raiseFatalInit_cur (s : State) : s.raiseFatalInit.cur = s.cur := rfl
@[simp] theorem State.raiseFatalInit_pos (s : State) : s.raiseFatalInit.pos = s.pos := rfl
@[simp] theorem State.raiseFatalInit_phase (s : State) : s.raiseFatalInit.phase = s.phase := rfl
@[simp] theorem State.raiseFatalInit_idx (s : State) : s.raiseFatalInit.idx = s.idx := rfl
@[simp] theorem State.raiseFatalInit_out64 (s : State) : s.raiseFatalInit.out64 = s.out64 := rfl
@[simp] theorem State.raiseFatalInit_mem (s : State) : s.raiseFatalInit.mem = s.mem := rfl
@[simp] theorem State.raiseFatalInit_ports (s : State) : s.raiseFatalInit.ports = s.ports := rfl
@[simp] theorem State.raiseFatalInit_hostPend (s : State) : s.raiseFatalInit.hostPend = s.hostPend := rfl
@[simp] theorem State.raiseFatalInit_memReads (s : State) : s.raiseFatalInit.memReads = s.memReads := rfl
@[simp] theorem State.raiseFatalInit_sched (s : State) : s.raiseFatalInit.sched = s.sched := rfl
@[simp] theorem State.raiseFatalInit_now (s : State) : s.raiseFatalInit.now = s.now := rfl
@[simp] theorem State.raiseFatalInit_lb (s : State) (c : Bool) : s.raiseFatalInit.lb c = s.lb c := rfl
@[simp] theorem State.raiseFatalInit_lbEntry (s : State) (c : Bool) (k : Nat) : s.raiseFatalInit.lbEntry c k = s.lbEntry c k := rfl
@[simp] theorem State.raiseFatalInit_tabEntry (s : State) (i : Index) : s.raiseFatalInit.tabEntry i = s.tabEntry i := rfl

/-! ### raiseIrq -/

@[simp] theorem State.raiseIrq_mode (s : State) : s.raiseIrq.mode = s.mode := rfl
@[simp] theorem State.raiseIrq_fbPtr (s : State) : s.raiseIrq.fbPtr = s.fbPtr := rfl
@[simp] theorem State.raiseIrq_fbWidth (s : State) : s.raiseIrq.fbWidth = s.fbWidth := rfl
@[simp] theorem State.raiseIrq_fbHeight (s : State) : s.raiseIrq.fbHeight = s.fbHeight := rfl
@[simp] theorem State.raiseIrq_offX (s : State) : s.raiseIrq.offX = s.offX := rfl
@[simp] theorem State.raiseIrq_offY (s : State) : s.raiseIrq.offY = s.offY := rfl
@[simp] theorem State.raiseIrq_textPtr (s : State) : s.raiseIrq.textPtr = s.textPtr := rfl
@[simp] theorem State.raiseIrq_palRgb (s : State) : s.raiseIrq.palRgb = s.palRgb := rfl
@[simp] theorem State.raiseIrq_tab (s : State) : s.raiseIrq.tab = s.tab := rfl
@[simp] theorem State.raiseIrq_lb0 (s : State) : s.raiseIrq.lb0 = s.lb0 := rfl
@[simp] theorem State.raiseIrq_lb1 (s : State) : s.raiseIrq.lb1 = s.lb1 := rfl
@[simp] theorem State.raiseIrq_drv (s : State) : s.raiseIrq.drv = s.drv := rfl
@[simp] theorem State.raiseIrq_line (s : State) : s.raiseIrq.line = s.line := rfl
@[simp] theorem State.raiseIrq_bufIdx (s : State) : s.raiseIrq.bufIdx = s.bufIdx := rfl
@[simp] theorem State.raiseIrq_ticks (s : State) : s.raiseIrq.ticks = s.ticks := rfl
@[simp] theorem State.raiseIrq_src (s : State) : s.raiseIrq.src = s.src := rfl
@[simp] theorem State.raiseIrq_irqEn (s : State) : s.raiseIrq.irqEn = s.irqEn := rfl
@[simp] theorem State.raiseIrq_irqPend (s : State) : s.raiseIrq.irqPend = (s.irqPend || s.irqEn) := rfl
@[simp] theorem State.raiseIrq_pipeEn (s : State) : s.raiseIrq.pipeEn = s.pipeEn := rfl
@[simp] theorem State.raiseIrq_pipeCfgOk (s : State) : s.raiseIrq.pipeCfgOk = s.pipeCfgOk := rfl
@[simp] theorem State.raiseIrq_abort (s : State) : s.raiseIrq.abort = s.abort := rfl
@[simp] theorem State.raiseIrq_cur (s : State) : s.raiseIrq.cur = s.cur := rfl
@[simp] theorem State.raiseIrq_pos (s : State) : s.raiseIrq.pos = s.pos := rfl
@[simp] theorem State.raiseIrq_phase (s : State) : s.raiseIrq.phase = s.phase := rfl
@[simp] theorem State.raiseIrq_idx (s : State) : s.raiseIrq.idx = s.idx := rfl
@[simp] theorem State.raiseIrq_out64 (s : State) : s.raiseIrq.out64 = s.out64 := rfl
@[simp] theorem State.raiseIrq_mem (s : State) : s.raiseIrq.mem = s.mem := rfl
@[simp] theorem State.raiseIrq_ports (s : State) : s.raiseIrq.ports = s.ports := rfl
@[simp] theorem State.raiseIrq_hostPend (s : State) : s.raiseIrq.hostPend = s.hostPend := rfl
@[simp] theorem State.raiseIrq_memReads (s : State) : s.raiseIrq.memReads = s.memReads := rfl
@[simp] theorem State.raiseIrq_sched (s : State) : s.raiseIrq.sched = s.sched := rfl
@[simp] theorem State.raiseIrq_now (s : State) : s.raiseIrq.now = s.now := rfl
@[simp] theorem State.raiseIrq_lb (s : State) (c : Bool) : s.raiseIrq.lb c = s.lb c := rfl
@[simp] theorem State.raiseIrq_lbEntry (s : State) (c : Bool) (k : Nat) : s.raiseIrq.lbEntry c k = s.lbEntry c k := rfl
@[simp] theorem State.raiseIrq_tabEntry (s : State) (i : Index) : s.raiseIrq.tabEntry i = s.tabEntry i := rfl

/-! ### ackIrq -/

@[simp] theorem State.ackIrq_mode (s : State) : s.ackIrq.mode = s.mode := rfl
@[simp] theorem State.ackIrq_fbPtr (s : State) : s.ackIrq.fbPtr = s.fbPtr := rfl
@[simp] theorem State.ackIrq_fbWidth (s : State) : s.ackIrq.fbWidth = s.fbWidth := rfl
@[simp] theorem State.ackIrq_fbHeight (s : State) : s.ackIrq.fbHeight = s.fbHeight := rfl
@[simp] theorem State.ackIrq_offX (s : State) : s.ackIrq.offX = s.offX := rfl
@[simp] theorem State.ackIrq_offY (s : State) : s.ackIrq.offY = s.offY := rfl
@[simp] theorem State.ackIrq_textPtr (s : State) : s.ackIrq.textPtr = s.textPtr := rfl
@[simp] theorem State.ackIrq_palRgb (s : State) : s.ackIrq.palRgb = s.palRgb := rfl
@[simp] theorem State.ackIrq_tab (s : State) : s.ackIrq.tab = s.tab := rfl
@[simp] theorem State.ackIrq_lb0 (s : State) : s.ackIrq.lb0 = s.lb0 := rfl
@[simp] theorem State.ackIrq_lb1 (s : State) : s.ackIrq.lb1 = s.lb1 := rfl
@[simp] theorem State.ackIrq_drv (s : State) : s.ackIrq.drv = s.drv := rfl
@[simp] theorem State.ackIrq_line (s : State) : s.ackIrq.line = s.line := rfl
@[simp] theorem State.ackIrq_bufIdx (s : State) : s.ackIrq.bufIdx = s.bufIdx := rfl
@[simp] theorem State.ackIrq_ticks (s : State) : s.ackIrq.ticks = s.ticks := rfl
@[simp] theorem State.ackIrq_src (s : State) : s.ackIrq.src = s.src := rfl
@[simp] theorem State.ackIrq_irqEn (s : State) : s.ackIrq.irqEn = s.irqEn := rfl
@[simp] theorem State.ackIrq_irqPend (s : State) : s.ackIrq.irqPend = false := rfl
@[simp] theorem State.ackIrq_pipeEn (s : State) : s.ackIrq.pipeEn = s.pipeEn := rfl
@[simp] theorem State.ackIrq_pipeCfgOk (s : State) : s.ackIrq.pipeCfgOk = s.pipeCfgOk := rfl
@[simp] theorem State.ackIrq_abort (s : State) : s.ackIrq.abort = s.abort := rfl
@[simp] theorem State.ackIrq_cur (s : State) : s.ackIrq.cur = s.cur := rfl
@[simp] theorem State.ackIrq_pos (s : State) : s.ackIrq.pos = s.pos := rfl
@[simp] theorem State.ackIrq_phase (s : State) : s.ackIrq.phase = s.phase := rfl
@[simp] theorem State.ackIrq_idx (s : State) : s.ackIrq.idx = s.idx := rfl
@[simp] theorem State.ackIrq_out64 (s : State) : s.ackIrq.out64 = s.out64 := rfl
@[simp] theorem State.ackIrq_mem (s : State) : s.ackIrq.mem = s.mem := rfl
@[simp] theorem State.ackIrq_ports (s : State) : s.ackIrq.ports = s.ports := rfl
@[simp] theorem State.ackIrq_hostPend (s : State) : s.ackIrq.hostPend = s.hostPend := rfl
@[simp] theorem State.ackIrq_memReads (s : State) : s.ackIrq.memReads = s.memReads := rfl
@[simp] theorem State.ackIrq_sched (s : State) : s.ackIrq.sched = s.sched := rfl
@[simp] theorem State.ackIrq_now (s : State) : s.ackIrq.now = s.now := rfl
@[simp] theorem State.ackIrq_lb (s : State) (c : Bool) : s.ackIrq.lb c = s.lb c := rfl
@[simp] theorem State.ackIrq_lbEntry (s : State) (c : Bool) (k : Nat) : s.ackIrq.lbEntry c k = s.lbEntry c k := rfl
@[simp] theorem State.ackIrq_tabEntry (s : State) (i : Index) : s.ackIrq.tabEntry i = s.tabEntry i := rfl

/-! ### disableIrq -/

@[simp] theorem State.disableIrq_mode (s : State) : s.disableIrq.mode = s.mode := rfl
@[simp] theorem State.disableIrq_fbPtr (s : State) : s.disableIrq.fbPtr = s.fbPtr := rfl
@[simp] theorem State.disableIrq_fbWidth (s : State) : s.disableIrq.fbWidth = s.fbWidth := rfl
@[simp] theorem State.disableIrq_fbHeight (s : State) : s.disableIrq.fbHeight = s.fbHeight := rfl
@[simp] theorem State.disableIrq_offX (s : State) : s.disableIrq.offX = s.offX := rfl
@[simp] theorem State.disableIrq_offY (s : State) : s.disableIrq.offY = s.offY := rfl
@[simp] theorem State.disableIrq_textPtr (s : State) : s.disableIrq.textPtr = s.textPtr := rfl
@[simp] theorem State.disableIrq_palRgb (s : State) : s.disableIrq.palRgb = s.palRgb := rfl
@[simp] theorem State.disableIrq_tab (s : State) : s.disableIrq.tab = s.tab := rfl
@[simp] theorem State.disableIrq_lb0 (s : State) : s.disableIrq.lb0 = s.lb0 := rfl
@[simp] theorem State.disableIrq_lb1 (s : State) : s.disableIrq.lb1 = s.lb1 := rfl
@[simp] theorem State.disableIrq_drv (s : State) : s.disableIrq.drv = s.drv := rfl
@[simp] theorem State.disableIrq_line (s : State) : s.disableIrq.line = s.line := rfl
@[simp] theorem State.disableIrq_bufIdx (s : State) : s.disableIrq.bufIdx = s.bufIdx := rfl
@[simp] theorem State.disableIrq_ticks (s : State) : s.disableIrq.ticks = s.ticks := rfl
@[simp] theorem State.disableIrq_src (s : State) : s.disableIrq.src = s.src := rfl
@[simp] theorem State.disableIrq_irqEn (s : State) : s.disableIrq.irqEn = false := rfl
@[simp] theorem State.disableIrq_irqPend (s : State) : s.disableIrq.irqPend = s.irqPend := rfl
@[simp] theorem State.disableIrq_pipeEn (s : State) : s.disableIrq.pipeEn = s.pipeEn := rfl
@[simp] theorem State.disableIrq_pipeCfgOk (s : State) : s.disableIrq.pipeCfgOk = s.pipeCfgOk := rfl
@[simp] theorem State.disableIrq_abort (s : State) : s.disableIrq.abort = s.abort := rfl
@[simp] theorem State.disableIrq_cur (s : State) : s.disableIrq.cur = s.cur := rfl
@[simp] theorem State.disableIrq_pos (s : State) : s.disableIrq.pos = s.pos := rfl
@[simp] theorem State.disableIrq_phase (s : State) : s.disableIrq.phase = s.phase := rfl
@[simp] theorem State.disableIrq_idx (s : State) : s.disableIrq.idx = s.idx := rfl
@[simp] theorem State.disableIrq_out64 (s : State) : s.disableIrq.out64 = s.out64 := rfl
@[simp] theorem State.disableIrq_mem (s : State) : s.disableIrq.mem = s.mem := rfl
@[simp] theorem State.disableIrq_ports (s : State) : s.disableIrq.ports = s.ports := rfl
@[simp] theorem State.disableIrq_hostPend (s : State) : s.disableIrq.hostPend = s.hostPend := rfl
@[simp] theorem State.disableIrq_memReads (s : State) : s.disableIrq.memReads = s.memReads := rfl
@[simp] theorem State.disableIrq_sched (s : State) : s.disableIrq.sched = s.sched := rfl
@[simp] theorem State.disableIrq_now (s : State) : s.disableIrq.now = s.now := rfl
@[simp] theorem State.disableIrq_lb (s : State) (c : Bool) : s.disableIrq.lb c = s.lb c := rfl
@[simp] theorem State.disableIrq_lbEntry (s : State) (c : Bool) (k : Nat) : s.disableIrq.lbEntry c k = s.lbEntry c k := rfl
@[simp] theorem State.disableIrq_tabEntry (s : State) (i : Index) : s.disableIrq.tabEntry i = s.tabEntry i := rfl

/-! ### raiseAborts -/

@[simp] theorem State.raiseAborts_mode (s : State) : s.raiseAborts.mode = s.mode := rfl
@[simp] theorem State.raiseAborts_fbPtr (s : State) : s.raiseAborts.fbPtr = s.fbPtr := rfl
@[simp] theorem State.raiseAborts_fbWidth (s : State) : s.raiseAborts.fbWidth = s.fbWidth := rfl
@[simp] theorem State.raiseAborts_fbHeight (s : State) : s.raiseAborts.fbHeight = s.fbHeight := rfl
@[simp] theorem State.raiseAborts_offX (s : State) : s.raiseAborts.offX = s.offX := rfl
@[simp] theorem State.raiseAborts_offY (s : State) : s.raiseAborts.offY = s.offY := rfl
@[simp] theorem State.raiseAborts_textPtr (s : State) : s.raiseAborts.textPtr = s.textPtr := rfl
@[simp] theorem State.raiseAborts_palRgb (s : State) : s.raiseAborts.palRgb = s.palRgb := rfl
@[simp] theorem State.raiseAborts_tab (s : State) : s.raiseAborts.tab = s.tab := rfl
@[simp] theorem State.raiseAborts_lb0 (s : State) : s.raiseAborts.lb0 = s.lb0 := rfl
@[simp] theorem State.raiseAborts_lb1 (s : State) : s.raiseAborts.lb1 = s.lb1 := rfl
@[simp] theorem State.raiseAborts_drv (s : State) : s.raiseAborts.drv = s.drv := rfl
@[simp] theorem State.raiseAborts_line (s : State) : s.raiseAborts.line = s.line := rfl
@[simp] theorem State.raiseAborts_bufIdx (s : State) : s.raiseAborts.bufIdx = s.bufIdx := rfl
@[simp] theorem State.raiseAborts_ticks (s : State) : s.raiseAborts.ticks = s.ticks := rfl
@[simp] theorem State.raiseAborts_src (s : State) : s.raiseAborts.src = s.src := rfl
@[simp] theorem State.raiseAborts_irqEn (s : State) : s.raiseAborts.irqEn = s.irqEn := rfl
@[simp] theorem State.raiseAborts_irqPend (s : State) : s.raiseAborts.irqPend = s.irqPend := rfl
@[simp] theorem State.raiseAborts_pipeEn (s : State) : s.raiseAborts.pipeEn = s.pipeEn := rfl
@[simp] theorem State.raiseAborts_pipeCfgOk (s : State) : s.raiseAborts.pipeCfgOk = s.pipeCfgOk := rfl
@[simp] theorem State.raiseAborts_abort (s : State) : s.raiseAborts.abort = 0b1111 := rfl
@[simp] theorem State.raiseAborts_cur (s : State) : s.raiseAborts.cur = s.cur := rfl
@[simp] theorem State.raiseAborts_pos (s : State) : s.raiseAborts.pos = s.pos := rfl
@[simp] theorem State.raiseAborts_phase (s : State) : s.raiseAborts.phase = s.phase := rfl
@[simp] theorem State.raiseAborts_idx (s : State) : s.raiseAborts.idx = s.idx := rfl
@[simp] theorem State.raiseAborts_out64 (s : State) : s.raiseAborts.out64 = s.out64 := rfl
@[simp] theorem State.raiseAborts_mem (s : State) : s.raiseAborts.mem = s.mem := rfl
@[simp] theorem State.raiseAborts_ports (s : State) : s.raiseAborts.ports = s.ports := rfl
@[simp] theorem State.raiseAborts_hostPend (s : State) : s.raiseAborts.hostPend = s.hostPend := rfl
@[simp] theorem State.raiseAborts_memReads (s : State) : s.raiseAborts.memReads = s.memReads := rfl
@[simp] theorem State.raiseAborts_sched (s : State) : s.raiseAborts.sched = s.sched := rfl
@[simp] theorem State.raiseAborts_now (s : State) : s.raiseAborts.now = s.now := rfl
@[simp] theorem State.raiseAborts_lb (s : State) (c : Bool) : s.raiseAborts.lb c = s.lb c := rfl
@[simp] theorem State.raiseAborts_lbEntry (s : State) (c : Bool) (k : Nat) : s.raiseAborts.lbEntry c k = s.lbEntry c k := rfl
@[simp] theorem State.raiseAborts_tabEntry (s : State) (i : Index) : s.raiseAborts.tabEntry i = s.tabEntry i := rfl

/-! ### drain -/

@[simp] theorem State.drain_mode (s : State) : s.drain.mode = s.mode := rfl
@[simp] theorem State.drain_fbPtr (s : State) : s.drain.fbPtr = s.fbPtr := rfl
@[simp] theorem State.drain_fbWidth (s : State) : s.drain.fbWidth = s.fbWidth := rfl
@[simp] theorem State.drain_fbHeight (s : State) : s.drain.fbHeight = s.fbHeight := rfl
@[simp] theorem State.drain_offX (s : State) : s.drain.offX = s.offX := rfl
@[simp] theorem State.drain_offY (s : State) : s.drain.offY = s.offY := rfl
@[simp] theorem State.drain_textPtr (s : State) : s.drain.textPtr = s.textPtr := rfl
@[simp] theorem State.drain_palRgb (s : State) : s.drain.palRgb = s.palRgb := rfl
@[simp] theorem State.drain_tab (s : State) : s.drain.tab = s.tab := rfl
@[simp] theorem State.drain_lb0 (s : State) : s.drain.lb0 = s.lb0 := rfl
@[simp] theorem State.drain_lb1 (s : State) : s.drain.lb1 = s.lb1 := rfl
@[simp] theorem State.drain_drv (s : State) : s.drain.drv = s.drv := rfl
@[simp] theorem State.drain_line (s : State) : s.drain.line = s.line := rfl
@[simp] theorem State.drain_bufIdx (s : State) : s.drain.bufIdx = s.bufIdx := rfl
@[simp] theorem State.drain_ticks (s : State) : s.drain.ticks = s.ticks := rfl
@[simp] theorem State.drain_src (s : State) : s.drain.src = s.src := rfl
@[simp] theorem State.drain_irqEn (s : State) : s.drain.irqEn = s.irqEn := rfl
@[simp] theorem State.drain_irqPend (s : State) : s.drain.irqPend = s.irqPend := rfl
@[simp] theorem State.drain_pipeEn (s : State) : s.drain.pipeEn = s.pipeEn := rfl
@[simp] theorem State.drain_pipeCfgOk (s : State) : s.drain.pipeCfgOk = s.pipeCfgOk := rfl
@[simp] theorem State.drain_abort (s : State) : s.drain.abort = s.abort := rfl
@[simp] theorem State.drain_cur (s : State) : s.drain.cur = s.cur := rfl
@[simp] theorem State.drain_pos (s : State) : s.drain.pos = 800 := rfl
@[simp] theorem State.drain_phase (s : State) : s.drain.phase = false := rfl
@[simp] theorem State.drain_idx (s : State) : s.drain.idx = s.idx := rfl
@[simp] theorem State.drain_out64 (s : State) : s.drain.out64 = s.out64 := rfl
@[simp] theorem State.drain_mem (s : State) : s.drain.mem = s.mem := rfl
@[simp] theorem State.drain_ports (s : State) : s.drain.ports = s.ports := rfl
@[simp] theorem State.drain_hostPend (s : State) : s.drain.hostPend = s.hostPend := rfl
@[simp] theorem State.drain_memReads (s : State) : s.drain.memReads = s.memReads := rfl
@[simp] theorem State.drain_sched (s : State) : s.drain.sched = s.sched := rfl
@[simp] theorem State.drain_now (s : State) : s.drain.now = s.now := rfl
@[simp] theorem State.drain_lb (s : State) (c : Bool) : s.drain.lb c = s.lb c := rfl
@[simp] theorem State.drain_lbEntry (s : State) (c : Bool) (k : Nat) : s.drain.lbEntry c k = s.lbEntry c k := rfl
@[simp] theorem State.drain_tabEntry (s : State) (i : Index) : s.drain.tabEntry i = s.tabEntry i := rfl

/-! ### clearAborts -/

@[simp] theorem State.clearAborts_mode (s : State) : s.clearAborts.mode = s.mode := rfl
@[simp] theorem State.clearAborts_fbPtr (s : State) : s.clearAborts.fbPtr = s.fbPtr := rfl
@[simp] theorem State.clearAborts_fbWidth (s : State) : s.clearAborts.fbWidth = s.fbWidth := rfl
@[simp] theorem State.clearAborts_fbHeight (s : State) : s.clearAborts.fbHeight = s.fbHeight := rfl
@[simp] theorem State.clearAborts_offX (s : State) : s.clearAborts.offX = s.offX := rfl
@[simp] theorem State.clearAborts_offY (s : State) : s.clearAborts.offY = s.offY := rfl
@[simp] theorem State.clearAborts_textPtr (s : State) : s.clearAborts.textPtr = s.textPtr := rfl
@[simp] theorem State.clearAborts_palRgb (s : State) : s.clearAborts.palRgb = s.palRgb := rfl
@[simp] theorem State.clearAborts_tab (s : State) : s.clearAborts.tab = s.tab := rfl
@[simp] theorem State.clearAborts_lb0 (s : State) : s.clearAborts.lb0 = s.lb0 := rfl
@[simp] theorem State.clearAborts_lb1 (s : State) : s.clearAborts.lb1 = s.lb1 := rfl
@[simp] theorem State.clearAborts_drv (s : State) : s.clearAborts.drv = s.drv := rfl
@[simp] theorem State.clearAborts_line (s : State) : s.clearAborts.line = s.line := rfl
@[simp] theorem State.clearAborts_bufIdx (s : State) : s.clearAborts.bufIdx = s.bufIdx := rfl
@[simp] theorem State.clearAborts_ticks (s : State) : s.clearAborts.ticks = s.ticks := rfl
@[simp] theorem State.clearAborts_src (s : State) : s.clearAborts.src = s.src := rfl
@[simp] theorem State.clearAborts_irqEn (s : State) : s.clearAborts.irqEn = s.irqEn := rfl
@[simp] theorem State.clearAborts_irqPend (s : State) : s.clearAborts.irqPend = s.irqPend := rfl
@[simp] theorem State.clearAborts_pipeEn (s : State) : s.clearAborts.pipeEn = s.pipeEn := rfl
@[simp] theorem State.clearAborts_pipeCfgOk (s : State) : s.clearAborts.pipeCfgOk = s.pipeCfgOk := rfl
@[simp] theorem State.clearAborts_abort (s : State) : s.clearAborts.abort = 0 := rfl
@[simp] theorem State.clearAborts_cur (s : State) : s.clearAborts.cur = s.cur := rfl
@[simp] theorem State.clearAborts_pos (s : State) : s.clearAborts.pos = s.pos := rfl
@[simp] theorem State.clearAborts_phase (s : State) : s.clearAborts.phase = s.phase := rfl
@[simp] theorem State.clearAborts_idx (s : State) : s.clearAborts.idx = s.idx := rfl
@[simp] theorem State.clearAborts_out64 (s : State) : s.clearAborts.out64 = s.out64 := rfl
@[simp] theorem State.clearAborts_mem (s : State) : s.clearAborts.mem = s.mem := rfl
@[simp] theorem State.clearAborts_ports (s : State) : s.clearAborts.ports = s.ports := rfl
@[simp] theorem State.clearAborts_hostPend (s : State) : s.clearAborts.hostPend = s.hostPend := rfl
@[simp] theorem State.clearAborts_memReads (s : State) : s.clearAborts.memReads = s.memReads := rfl
@[simp] theorem State.clearAborts_sched (s : State) : s.clearAborts.sched = s.sched := rfl
@[simp] theorem State.clearAborts_now (s : State) : s.clearAborts.now = s.now := rfl
@[simp] theorem State.clearAborts_lb (s : State) (c : Bool) : s.clearAborts.lb c = s.lb c := rfl
@[simp] theorem State.clearAborts_lbEntry (s : State) (c : Bool) (k : Nat) : s.clearAborts.lbEntry c k = s.lbEntry c k := rfl
@[simp] theorem State.clearAborts_tabEntry (s : State) (i : Index) : s.clearAborts.tabEntry i = s.tabEntry i := rfl

/-! ### disablePipe -/

@[simp] theorem State.disablePipe_mode (s : State) : s.disablePipe.mode = s.mode := rfl
@[simp] theorem State.disablePipe_fbPtr (s : State) : s.disablePipe.fbPtr = s.fbPtr := rfl
@[simp] theorem State.disablePipe_fbWidth (s : State) : s.disablePipe.fbWidth = s.fbWidth := rfl
@[simp] theorem State.disablePipe_fbHeight (s : State) : s.disablePipe.fbHeight = s.fbHeight := rfl
@[simp] theorem State.disablePipe_offX (s : State) : s.disablePipe.offX = s.offX := rfl
@[simp] theorem State.disablePipe_offY (s : State) : s.disablePipe.offY = s.offY := rfl
@[simp] theorem State.disablePipe_textPtr (s : State) : s.disablePipe.textPtr = s.textPtr := rfl
@[simp] theorem State.disablePipe_palRgb (s : State) : s.disablePipe.palRgb = s.palRgb := rfl
@[simp] theorem State.disablePipe_tab (s : State) : s.disablePipe.tab = s.tab := rfl
@[simp] theorem State.disablePipe_lb0 (s : State) : s.disablePipe.lb0 = s.lb0 := rfl
@[simp] theorem State.disablePipe_lb1 (s : State) : s.disablePipe.lb1 = s.lb1 := rfl
@[simp] theorem State.disablePipe_drv (s : State) : s.disablePipe.drv = s.drv := rfl
@[simp] theorem State.disablePipe_line (s : State) : s.disablePipe.line = s.line := rfl
@[simp] theorem State.disablePipe_bufIdx (s : State) : s.disablePipe.bufIdx = s.bufIdx := rfl
@[simp] theorem State.disablePipe_ticks (s : State) : s.disablePipe.ticks = s.ticks := rfl
@[simp] theorem State.disablePipe_src (s : State) : s.disablePipe.src = s.src := rfl
@[simp] theorem State.disablePipe_irqEn (s : State) : s.disablePipe.irqEn = s.irqEn := rfl
@[simp] theorem State.disablePipe_irqPend (s : State) : s.disablePipe.irqPend = s.irqPend := rfl
@[simp] theorem State.disablePipe_pipeEn (s : State) : s.disablePipe.pipeEn = false := rfl
@[simp] theorem State.disablePipe_pipeCfgOk (s : State) : s.disablePipe.pipeCfgOk = s.pipeCfgOk := rfl
@[simp] theorem State.disablePipe_abort (s : State) : s.disablePipe.abort = s.abort := rfl
@[simp] theorem State.disablePipe_cur (s : State) : s.disablePipe.cur = s.cur := rfl
@[simp] theorem State.disablePipe_pos (s : State) : s.disablePipe.pos = s.pos := rfl
@[simp] theorem State.disablePipe_phase (s : State) : s.disablePipe.phase = s.phase := rfl
@[simp] theorem State.disablePipe_idx (s : State) : s.disablePipe.idx = s.idx := rfl
@[simp] theorem State.disablePipe_out64 (s : State) : s.disablePipe.out64 = s.out64 := rfl
@[simp] theorem State.disablePipe_mem (s : State) : s.disablePipe.mem = s.mem := rfl
@[simp] theorem State.disablePipe_ports (s : State) : s.disablePipe.ports = s.ports := rfl
@[simp] theorem State.disablePipe_hostPend (s : State) : s.disablePipe.hostPend = s.hostPend := rfl
@[simp] theorem State.disablePipe_memReads (s : State) : s.disablePipe.memReads = s.memReads := rfl
@[simp] theorem State.disablePipe_sched (s : State) : s.disablePipe.sched = s.sched := rfl
@[simp] theorem State.disablePipe_now (s : State) : s.disablePipe.now = s.now := rfl
@[simp] theorem State.disablePipe_lb (s : State) (c : Bool) : s.disablePipe.lb c = s.lb c := rfl
@[simp] theorem State.disablePipe_lbEntry (s : State) (c : Bool) (k : Nat) : s.disablePipe.lbEntry c k = s.lbEntry c k := rfl
@[simp] theorem State.disablePipe_tabEntry (s : State) (i : Index) : s.disablePipe.tabEntry i = s.tabEntry i := rfl

/-! ### loadPipeConfig -/

@[simp] theorem State.loadPipeConfig_mode (s : State) : s.loadPipeConfig.mode = s.mode := rfl
@[simp] theorem State.loadPipeConfig_fbPtr (s : State) : s.loadPipeConfig.fbPtr = s.fbPtr := rfl
@[simp] theorem State.loadPipeConfig_fbWidth (s : State) : s.loadPipeConfig.fbWidth = s.fbWidth := rfl
@[simp] theorem State.loadPipeConfig_fbHeight (s : State) : s.loadPipeConfig.fbHeight = s.fbHeight := rfl
@[simp] theorem State.loadPipeConfig_offX (s : State) : s.loadPipeConfig.offX = s.offX := rfl
@[simp] theorem State.loadPipeConfig_offY (s : State) : s.loadPipeConfig.offY = s.offY := rfl
@[simp] theorem State.loadPipeConfig_textPtr (s : State) : s.loadPipeConfig.textPtr = s.textPtr := rfl
@[simp] theorem State.loadPipeConfig_palRgb (s : State) : s.loadPipeConfig.palRgb = s.palRgb := rfl
@[simp] theorem State.loadPipeConfig_tab (s : State) : s.loadPipeConfig.tab = s.tab := rfl
@[simp] theorem State.loadPipeConfig_lb0 (s : State) : s.loadPipeConfig.lb0 = s.lb0 := rfl
@[simp] theorem State.loadPipeConfig_lb1 (s : State) : s.loadPipeConfig.lb1 = s.lb1 := rfl
@[simp] theorem State.loadPipeConfig_drv (s : State) : s.loadPipeConfig.drv = s.drv := rfl
@[simp] theorem State.loadPipeConfig_line (s : State) : s.loadPipeConfig.line = s.line := rfl
@[simp] theorem State.loadPipeConfig_bufIdx (s : State) : s.loadPipeConfig.bufIdx = s.bufIdx := rfl
@[simp] theorem State.loadPipeConfig_ticks (s : State) : s.loadPipeConfig.ticks = s.ticks := rfl
@[simp] theorem State.loadPipeConfig_src (s : State) : s.loadPipeConfig.src = s.src := rfl
@[simp] theorem State.loadPipeConfig_irqEn (s : State) : s.loadPipeConfig.irqEn = s.irqEn := rfl
@[simp] theorem State.loadPipeConfig_irqPend (s : State) : s.loadPipeConfig.irqPend = s.irqPend := rfl
@[simp] theorem State.loadPipeConfig_pipeEn (s : State) : s.loadPipeConfig.pipeEn = s.pipeEn := rfl
@[simp] theorem State.loadPipeConfig_pipeCfgOk (s : State) : s.loadPipeConfig.pipeCfgOk = true := rfl
@[simp] theorem State.loadPipeConfig_abort (s : State) : s.loadPipeConfig.abort = s.abort := rfl
@[simp] theorem State.loadPipeConfig_cur (s : State) : s.loadPipeConfig.cur = s.cur := rfl
@[simp] theorem State.loadPipeConfig_pos (s : State) : s.loadPipeConfig.pos = s.pos := rfl
@[simp] theorem State.loadPipeConfig_phase (s : State) : s.loadPipeConfig.phase = s.phase := rfl
@[simp] theorem State.loadPipeConfig_idx (s : State) : s.loadPipeConfig.idx = s.idx := rfl
@[simp] theorem State.loadPipeConfig_out64 (s : State) : s.loadPipeConfig.out64 = s.out64 := rfl
@[simp] theorem State.loadPipeConfig_mem (s : State) : s.loadPipeConfig.mem = s.mem := rfl
@[simp] theorem State.loadPipeConfig_ports (s : State) : s.loadPipeConfig.ports = s.ports := rfl
@[simp] theorem State.loadPipeConfig_hostPend (s : State) : s.loadPipeConfig.hostPend = s.hostPend := rfl
@[simp] theorem State.loadPipeConfig_memReads (s : State) : s.loadPipeConfig.memReads = s.memReads := rfl
@[simp] theorem State.loadPipeConfig_sched (s : State) : s.loadPipeConfig.sched = s.sched := rfl
@[simp] theorem State.loadPipeConfig_now (s : State) : s.loadPipeConfig.now = s.now := rfl
@[simp] theorem State.loadPipeConfig_lb (s : State) (c : Bool) : s.loadPipeConfig.lb c = s.lb c := rfl
@[simp] theorem State.loadPipeConfig_lbEntry (s : State) (c : Bool) (k : Nat) : s.loadPipeConfig.lbEntry c k = s.lbEntry c k := rfl
@[simp] theorem State.loadPipeConfig_tabEntry (s : State) (i : Index) : s.loadPipeConfig.tabEntry i = s.tabEntry i := rfl

/-! ### buildCtrl -/

@[simp] theorem State.buildCtrl_mode (s : State) (p : Params) : (s.buildCtrl p).mode = s.mode := rfl
@[simp] theorem State.buildCtrl_fbPtr (s : State) (p : Params) : (s.buildCtrl p).fbPtr = s.fbPtr := rfl
@[simp] theorem State.buildCtrl_fbWidth (s : State) (p : Params) : (s.buildCtrl p).fbWidth = s.fbWidth := rfl
@[simp] theorem State.buildCtrl_fbHeight (s : State) (p : Params) : (s.buildCtrl p).fbHeight = s.fbHeight := rfl
@[simp] theorem State.buildCtrl_offX (s : State) (p : Params) : (s.buildCtrl p).offX = s.offX := rfl
@[simp] theorem State.buildCtrl_offY (s : State) (p : Params) : (s.buildCtrl p).offY = s.offY := rfl
@[simp] theorem State.buildCtrl_textPtr (s : State) (p : Params) : (s.buildCtrl p).textPtr = s.textPtr := rfl
@[simp] theorem State.buildCtrl_palRgb (s : State) (p : Params) : (s.buildCtrl p).palRgb = s.palRgb := rfl
@[simp] theorem State.buildCtrl_tab (s : State) (p : Params) : (s.buildCtrl p).tab = ctrlTable p s.tab := rfl
@[simp] theorem State.buildCtrl_lb0 (s : State) (p : Params) : (s.buildCtrl p).lb0 = s.lb0 := rfl
@[simp] theorem State.buildCtrl_lb1 (s : State) (p : Params) : (s.buildCtrl p).lb1 = s.lb1 := rfl
@[simp] theorem State.buildCtrl_drv (s : State) (p : Params) : (s.buildCtrl p).drv = s.drv := rfl
@[simp] theorem State.buildCtrl_line (s : State) (p : Params) : (s.buildCtrl p).line = s.line := rfl
@[simp] theorem State.buildCtrl_bufIdx (s : State) (p : Params) : (s.buildCtrl p).bufIdx = s.bufIdx := rfl
@[simp] theorem State.buildCtrl_ticks (s : State) (p : Params) : (s.buildCtrl p).ticks = s.ticks := rfl
@[simp] theorem State.buildCtrl_src (s : State) (p : Params) : (s.buildCtrl p).src = s.src := rfl
@[simp] theorem State.buildCtrl_irqEn (s : State) (p : Params) : (s.buildCtrl p).irqEn = s.irqEn := rfl
@[simp] theorem State.buildCtrl_irqPend (s : State) (p : Params) : (s.buildCtrl p).irqPend = s.irqPend := rfl
@[simp] theorem State.buildCtrl_pipeEn (s : State) (p : Params) : (s.buildCtrl p).pipeEn = s.pipeEn := rfl
@[simp] theorem State.buildCtrl_pipeCfgOk (s : State) (p : Params) : (s.buildCtrl p).pipeCfgOk = s.pipeCfgOk := rfl
@[simp] theorem State.buildCtrl_abort (s : State) (p : Params) : (s.buildCtrl p).abort = s.abort := rfl
@[simp] theorem State.buildCtrl_cur (s : State) (p : Params) : (s.buildCtrl p).cur = s.cur := rfl
@[simp] theorem State.buildCtrl_pos (s : State) (p : Params) : (s.buildCtrl p).pos = s.pos := rfl
@[simp] theorem State.buildCtrl_phase (s : State) (p : Params) : (s.buildCtrl p).phase = s.phase := rfl
@[simp] theorem State.buildCtrl_idx (s : State) (p : Params) : (s.buildCtrl p).idx = s.idx := rfl
@[simp] theorem State.buildCtrl_out64 (s : State) (p : Params) : (s.buildCtrl p).out64 = s.out64 := rfl
@[simp] theorem State.buildCtrl_mem (s : State) (p : Params) : (s.buildCtrl p).mem = s.mem := rfl
@[simp] theorem State.buildCtrl_ports (s : State) (p : Params) : (s.buildCtrl p).ports = s.ports := rfl
@[simp] theorem State.buildCtrl_hostPend (s : State) (p : Params) : (s.buildCtrl p).hostPend = s.hostPend := rfl
@[simp] theorem State.buildCtrl_memReads (s : State) (p : Params) : (s.buildCtrl p).memReads = s.memReads := rfl
@[simp] theorem State.buildCtrl_sched (s : State) (p : Params) : (s.buildCtrl p).sched = s.sched := rfl
@[simp] theorem State.buildCtrl_now (s : State) (p : Params) : (s.buildCtrl p).now = s.now := rfl
@[simp] theorem State.buildCtrl_lb (s : State) (p : Params) (c : Bool) : (s.buildCtrl p).lb c = s.lb c := rfl
@[simp] theorem State.buildCtrl_lbEntry (s : State) (p : Params) (c : Bool) (k : Nat) : (s.buildCtrl p).lbEntry c k = s.lbEntry c k := rfl

/-! ### rebuildPal -/

@[simp] theorem State.rebuildPal_mode (s : State) (p : Params) : (s.rebuildPal p).mode = s.mode := rfl
@[simp] theorem State.rebuildPal_fbPtr (s : State) (p : Params) : (s.rebuildPal p).fbPtr = s.fbPtr := rfl
@[simp] theorem State.rebuildPal_fbWidth (s : State) (p : Params) : (s.rebuildPal p).fbWidth = s.fbWidth := rfl
@[simp] theorem State.rebuildPal_fbHeight (s : State) (p : Params) : (s.rebuildPal p).fbHeight = s.fbHeight := rfl
@[simp] theorem State.rebuildPal_offX (s : State) (p : Params) : (s.rebuildPal p).offX = s.offX := rfl
@[simp] theorem State.rebuildPal_offY (s : State) (p : Params) : (s.rebuildPal p).offY = s.offY := rfl
@[simp] theorem State.rebuildPal_textPtr (s : State) (p : Params) : (s.rebuildPal p).textPtr = s.textPtr := rfl
@[simp] theorem State.rebuildPal_palRgb (s : State) (p : Params) : (s.rebuildPal p).palRgb = s.palRgb := rfl
@[simp] theorem State.rebuildPal_tab (s : State) (p : Params) : (s.rebuildPal p).tab = palTable p s.palRgb s.tab := rfl
@[simp] theorem State.rebuildPal_lb0 (s : State) (p : Params) : (s.rebuildPal p).lb0 = s.lb0 := rfl
@[simp] theorem State.rebuildPal_lb1 (s : State) (p : Params) : (s.rebuildPal p).lb1 = s.lb1 := rfl
@[simp] theorem State.rebuildPal_drv (s : State) (p : Params) : (s.rebuildPal p).drv = s.drv := rfl
@[simp] theorem State.rebuildPal_line (s : State) (p : Params) : (s.rebuildPal p).line = s.line := rfl
@[simp] theorem State.rebuildPal_bufIdx (s : State) (p : Params) : (s.rebuildPal p).bufIdx = s.bufIdx := rfl
@[simp] theorem State.rebuildPal_ticks (s : State) (p : Params) : (s.rebuildPal p).ticks = s.ticks := rfl
@[simp] theorem State.rebuildPal_src (s : State) (p : Params) : (s.rebuildPal p).src = s.src := rfl
@[simp] theorem State.rebuildPal_irqEn (s : State) (p : Params) : (s.rebuildPal p).irqEn = s.irqEn := rfl
@[simp] theorem State.rebuildPal_irqPend (s : State) (p : Params) : (s.rebuildPal p).irqPend = s.irqPend := rfl
@[simp] theorem State.rebuildPal_pipeEn (s : State) (p : Params) : (s.rebuildPal p).pipeEn = s.pipeEn := rfl
@[simp] theorem State.rebuildPal_pipeCfgOk (s : State) (p : Params) : (s.rebuildPal p).pipeCfgOk = s.pipeCfgOk := rfl
@[simp] theorem State.rebuildPal_abort (s : State) (p : Params) : (s.rebuildPal p).abort = s.abort := rfl
@[simp] theorem State.rebuildPal_cur (s : State) (p : Params) : (s.rebuildPal p).cur = s.cur := rfl
@[simp] theorem State.rebuildPal_pos (s : State) (p : Params) : (s.rebuildPal p).pos = s.pos := rfl
@[simp] theorem State.rebuildPal_phase (s : State) (p : Params) : (s.rebuildPal p).phase = s.phase := rfl
@[simp] theorem State.rebuildPal_idx (s : State) (p : Params) : (s.rebuildPal p).idx = s.idx := rfl
@[simp] theorem State.rebuildPal_out64 (s : State) (p : Params) : (s.rebuildPal p).out64 = s.out64 := rfl
@[simp] theorem State.rebuildPal_mem (s : State) (p : Params) : (s.rebuildPal p).mem = s.mem := rfl
@[simp] theorem State.rebuildPal_ports (s : State) (p : Params) : (s.rebuildPal p).ports = s.ports := rfl
@[simp] theorem State.rebuildPal_hostPend (s : State) (p : Params) : (s.rebuildPal p).hostPend = s.hostPend := rfl
@[simp] theorem State.rebuildPal_memReads (s : State) (p : Params) : (s.rebuildPal p).memReads = s.memReads := rfl
@[simp] theorem State.rebuildPal_sched (s : State) (p : Params) : (s.rebuildPal p).sched = s.sched := rfl
@[simp] theorem State.rebuildPal_now (s : State) (p : Params) : (s.rebuildPal p).now = s.now := rfl
@[simp] theorem State.rebuildPal_lb (s : State) (p : Params) (c : Bool) : (s.rebuildPal p).lb c = s.lb c := rfl
@[simp] theorem State.rebuildPal_lbEntry (s : State) (p : Params) (c : Bool) (k : Nat) : (s.rebuildPal p).lbEntry c k = s.lbEntry c k := rfl

/-! ### rearm -/

@[simp] theorem State.rearm_mode (s : State) : s.rearm.mode = s.mode := rfl
@[simp] theorem State.rearm_fbPtr (s : State) : s.rearm.fbPtr = s.fbPtr := rfl
@[simp] theorem State.rearm_fbWidth (s : State) : s.rearm.fbWidth = s.fbWidth := rfl
@[simp] theorem State.rearm_fbHeight (s : State) : s.rearm.fbHeight = s.fbHeight := rfl
@[simp] theorem State.rearm_offX (s : State) : s.rearm.offX = s.offX := rfl
@[simp] theorem State.rearm_offY (s : State) : s.rearm.offY = s.offY := rfl
@[simp] theorem State.rearm_textPtr (s : State) : s.rearm.textPtr = s.textPtr := rfl
@[simp] theorem State.rearm_palRgb (s : State) : s.rearm.palRgb = s.palRgb := rfl
@[simp] theorem State.rearm_tab (s : State) : s.rearm.tab = s.tab := rfl
@[simp] theorem State.rearm_lb0 (s : State) : s.rearm.lb0 = s.lb0 := rfl
@[simp] theorem State.rearm_lb1 (s : State) : s.rearm.lb1 = s.lb1 := rfl
@[simp] theorem State.rearm_drv (s : State) : s.rearm.drv = s.drv := rfl
@[simp] theorem State.rearm_line (s : State) : s.rearm.line = s.line := rfl
@[simp] theorem State.rearm_bufIdx (s : State) : s.rearm.bufIdx = s.bufIdx := rfl
@[simp] theorem State.rearm_ticks (s : State) : s.rearm.ticks = s.ticks := rfl
@[simp] theorem State.rearm_src (s : State) : s.rearm.src = s.bufIdx := rfl
@[simp] theorem State.rearm_irqEn (s : State) : s.rearm.irqEn = s.irqEn := rfl
@[simp] theorem State.rearm_irqPend (s : State) : s.rearm.irqPend = s.irqPend := rfl
@[simp] theorem State.rearm_pipeEn (s : State) : s.rearm.pipeEn = s.pipeEn := rfl
@[simp] theorem State.rearm_pipeCfgOk (s : State) : s.rearm.pipeCfgOk = s.pipeCfgOk := rfl
@[simp] theorem State.rearm_abort (s : State) : s.rearm.abort = s.abort := rfl
@[simp] theorem State.rearm_cur (s : State) : s.rearm.cur = s.cur := rfl
@[simp] theorem State.rearm_pos (s : State) : s.rearm.pos = s.pos := rfl
@[simp] theorem State.rearm_phase (s : State) : s.rearm.phase = s.phase := rfl
@[simp] theorem State.rearm_idx (s : State) : s.rearm.idx = s.idx := rfl
@[simp] theorem State.rearm_out64 (s : State) : s.rearm.out64 = s.out64 := rfl
@[simp] theorem State.rearm_mem (s : State) : s.rearm.mem = s.mem := rfl
@[simp] theorem State.rearm_ports (s : State) : s.rearm.ports = s.ports := rfl
@[simp] theorem State.rearm_hostPend (s : State) : s.rearm.hostPend = s.hostPend := rfl
@[simp] theorem State.rearm_memReads (s : State) : s.rearm.memReads = s.memReads := rfl
@[simp] theorem State.rearm_sched (s : State) : s.rearm.sched = s.sched := rfl
@[simp] theorem State.rearm_now (s : State) : s.rearm.now = s.now := rfl
@[simp] theorem State.rearm_lb (s : State) (c : Bool) : s.rearm.lb c = s.lb c := rfl
@[simp] theorem State.rearm_lbEntry (s : State) (c : Bool) (k : Nat) : s.rearm.lbEntry c k = s.lbEntry c k := rfl
@[simp] theorem State.rearm_tabEntry (s : State) (i : Index) : s.rearm.tabEntry i = s.tabEntry i := rfl

/-! ### enableIrq -/

@[simp] theorem State.enableIrq_mode (s : State) : s.enableIrq.mode = s.mode := rfl
@[simp] theorem State.enableIrq_fbPtr (s : State) : s.enableIrq.fbPtr = s.fbPtr := rfl
@[simp] theorem State.enableIrq_fbWidth (s : State) : s.enableIrq.fbWidth = s.fbWidth := rfl
@[simp] theorem State.enableIrq_fbHeight (s : State) : s.enableIrq.fbHeight = s.fbHeight := rfl
@[simp] theorem State.enableIrq_offX (s : State) : s.enableIrq.offX = s.offX := rfl
@[simp] theorem State.enableIrq_offY (s : State) : s.enableIrq.offY = s.offY := rfl
@[simp] theorem State.enableIrq_textPtr (s : State) : s.enableIrq.textPtr = s.textPtr := rfl
@[simp] theorem State.enableIrq_palRgb (s : State) : s.enableIrq.palRgb = s.palRgb := rfl
@[simp] theorem State.enableIrq_tab (s : State) : s.enableIrq.tab = s.tab := rfl
@[simp] theorem State.enableIrq_lb0 (s : State) : s.enableIrq.lb0 = s.lb0 := rfl
@[simp] theorem State.enableIrq_lb1 (s : State) : s.enableIrq.lb1 = s.lb1 := rfl
@[simp] theorem State.enableIrq_drv (s : State) : s.enableIrq.drv = s.drv := rfl
@[simp] theorem State.enableIrq_line (s : State) : s.enableIrq.line = s.line := rfl
@[simp] theorem State.enableIrq_bufIdx (s : State) : s.enableIrq.bufIdx = s.bufIdx := rfl
@[simp] theorem State.enableIrq_ticks (s : State) : s.enableIrq.ticks = s.ticks := rfl
@[simp] theorem State.enableIrq_src (s : State) : s.enableIrq.src = s.src := rfl
@[simp] theorem State.enableIrq_irqEn (s : State) : s.enableIrq.irqEn = true := rfl
@[simp] theorem State.enableIrq_irqPend (s : State) : s.enableIrq.irqPend = s.irqPend := rfl
@[simp] theorem State.enableIrq_pipeEn (s : State) : s.enableIrq.pipeEn = s.pipeEn := rfl
@[simp] theorem State.enableIrq_pipeCfgOk (s : State) : s.enableIrq.pipeCfgOk = s.pipeCfgOk := rfl
@[simp] theorem State.enableIrq_abort (s : State) : s.enableIrq.abort = s.abort := rfl
@[simp] theorem State.enableIrq_cur (s : State) : s.enableIrq.cur = s.cur := rfl
@[simp] theorem State.enableIrq_pos (s : State) : s.enableIrq.pos = s.pos := rfl
@[simp] theorem State.enableIrq_phase (s : State) : s.enableIrq.phase = s.phase := rfl
@[simp] theorem State.enableIrq_idx (s : State) : s.enableIrq.idx = s.idx := rfl
@[simp] theorem State.enableIrq_out64 (s : State) : s.enableIrq.out64 = s.out64 := rfl
@[simp] theorem State.enableIrq_mem (s : State) : s.enableIrq.mem = s.mem := rfl
@[simp] theorem State.enableIrq_ports (s : State) : s.enableIrq.ports = s.ports := rfl
@[simp] theorem State.enableIrq_hostPend (s : State) : s.enableIrq.hostPend = s.hostPend := rfl
@[simp] theorem State.enableIrq_memReads (s : State) : s.enableIrq.memReads = s.memReads := rfl
@[simp] theorem State.enableIrq_sched (s : State) : s.enableIrq.sched = s.sched := rfl
@[simp] theorem State.enableIrq_now (s : State) : s.enableIrq.now = s.now := rfl
@[simp] theorem State.enableIrq_lb (s : State) (c : Bool) : s.enableIrq.lb c = s.lb c := rfl
@[simp] theorem State.enableIrq_lbEntry (s : State) (c : Bool) (k : Nat) : s.enableIrq.lbEntry c k = s.lbEntry c k := rfl
@[simp] theorem State.enableIrq_tabEntry (s : State) (i : Index) : s.enableIrq.tabEntry i = s.tabEntry i := rfl

/-! ### startChain -/

@[simp] theorem State.startChain_mode (s : State) : s.startChain.mode = s.mode := rfl
@[simp] theorem State.startChain_fbPtr (s : State) : s.startChain.fbPtr = s.fbPtr := rfl
@[simp] theorem State.startChain_fbWidth (s : State) : s.startChain.fbWidth = s.fbWidth := rfl
@[simp] theorem State.startChain_fbHeight (s : State) : s.startChain.fbHeight = s.fbHeight := rfl
@[simp] theorem State.startChain_offX (s : State) : s.startChain.offX = s.offX := rfl
@[simp] theorem State.startChain_offY (s : State) : s.startChain.offY = s.offY := rfl
@[simp] theorem State.startChain_textPtr (s : State) : s.startChain.textPtr = s.textPtr := rfl
@[simp] theorem State.startChain_palRgb (s : State) : s.startChain.palRgb = s.palRgb := rfl
@[simp] theorem State.startChain_tab (s : State) : s.startChain.tab = s.tab := rfl
@[simp] theorem State.startChain_lb0 (s : State) : s.startChain.lb0 = s.lb0 := rfl
@[simp] theorem State.startChain_lb1 (s : State) : s.startChain.lb1 = s.lb1 := rfl
@[simp] theorem State.startChain_drv (s : State) : s.startChain.drv = .running := rfl
@[simp] theorem State.startChain_line (s : State) : s.startChain.line = s.line := rfl
@[simp] theorem State.startChain_bufIdx (s : State) : s.startChain.bufIdx = s.bufIdx := rfl
@[simp] theorem State.startChain_ticks (s : State) : s.startChain.ticks = s.ticks := rfl
@[simp] theorem State.startChain_src (s : State) : s.startChain.src = s.src := rfl
@[simp] theorem State.startChain_irqEn (s : State) : s.startChain.irqEn = s.irqEn := rfl
@[simp] theorem State.startChain_irqPend (s : State) : s.startChain.irqPend = s.irqPend := rfl
@[simp] theorem State.startChain_pipeEn (s : State) : s.startChain.pipeEn = true := rfl
@[simp] theorem State.startChain_pipeCfgOk (s : State) : s.startChain.pipeCfgOk = s.pipeCfgOk := rfl
@[simp] theorem State.startChain_abort (s : State) : s.startChain.abort = s.abort := rfl
@[simp] theorem State.startChain_cur (s : State) : s.startChain.cur = s.cur := rfl
@[simp] theorem State.startChain_pos (s : State) : s.startChain.pos = s.pos := rfl
@[simp] theorem State.startChain_phase (s : State) : s.startChain.phase = s.phase := rfl
@[simp] theorem State.startChain_idx (s : State) : s.startChain.idx = s.idx := rfl
@[simp] theorem State.startChain_out64 (s : State) : s.startChain.out64 = s.out64 := rfl
@[simp] theorem State.startChain_mem (s : State) : s.startChain.mem = s.mem := rfl
@[simp] theorem State.startChain_ports (s : State) : s.startChain.ports = s.ports := rfl
@[simp] theorem State.startChain_hostPend (s : State) : s.startChain.hostPend = s.hostPend := rfl
@[simp] theorem State.startChain_memReads (s : State) : s.startChain.memReads = s.memReads := rfl
@[simp] theorem State.startChain_sched (s : State) : s.startChain.sched = s.sched := rfl
@[simp] theorem State.startChain_now (s : State) : s.startChain.now = s.now := rfl
@[simp] theorem State.startChain_lb (s : State) (c : Bool) : s.startChain.lb c = s.lb c := rfl
@[simp] theorem State.startChain_lbEntry (s : State) (c : Bool) (k : Nat) : s.startChain.lbEntry c k = s.lbEntry c k := rfl
@[simp] theorem State.startChain_tabEntry (s : State) (i : Index) : s.startChain.tabEntry i = s.tabEntry i := rfl

/-! ### advanceCounters -/

@[simp] theorem State.advanceCounters_mode (s : State) : s.advanceCounters.mode = s.mode := rfl
@[simp] theorem State.advanceCounters_fbPtr (s : State) : s.advanceCounters.fbPtr = s.fbPtr := rfl
@[simp] theorem State.advanceCounters_fbWidth (s : State) : s.advanceCounters.fbWidth = s.fbWidth := rfl
@[simp] theorem State.advanceCounters_fbHeight (s : State) : s.advanceCounters.fbHeight = s.fbHeight := rfl
@[simp] theorem State.advanceCounters_offX (s : State) : s.advanceCounters.offX = s.offX := rfl
@[simp] theorem State.advanceCounters_offY (s : State) : s.advanceCounters.offY = s.offY := rfl
@[simp] theorem State.advanceCounters_textPtr (s : State) : s.advanceCounters.textPtr = s.textPtr := rfl
@[simp] theorem State.advanceCounters_palRgb (s : State) : s.advanceCounters.palRgb = s.palRgb := rfl
@[simp] theorem State.advanceCounters_tab (s : State) : s.advanceCounters.tab = s.tab := rfl
@[simp] theorem State.advanceCounters_lb0 (s : State) : s.advanceCounters.lb0 = s.lb0 := rfl
@[simp] theorem State.advanceCounters_lb1 (s : State) : s.advanceCounters.lb1 = s.lb1 := rfl
@[simp] theorem State.advanceCounters_drv (s : State) : s.advanceCounters.drv = s.drv := rfl
@[simp] theorem State.advanceCounters_line (s : State) : s.advanceCounters.line = nextLine s.line := rfl
@[simp] theorem State.advanceCounters_bufIdx (s : State) : s.advanceCounters.bufIdx = s.bufIdx := rfl
@[simp] theorem State.advanceCounters_ticks (s : State) : s.advanceCounters.ticks = s.ticks + 1 := rfl
@[simp] theorem State.advanceCounters_src (s : State) : s.advanceCounters.src = s.src := rfl
@[simp] theorem State.advanceCounters_irqEn (s : State) : s.advanceCounters.irqEn = s.irqEn := rfl
@[simp] theorem State.advanceCounters_irqPend (s : State) : s.advanceCounters.irqPend = s.irqPend := rfl
@[simp] theorem State.advanceCounters_pipeEn (s : State) : s.advanceCounters.pipeEn = s.pipeEn := rfl
@[simp] theorem State.advanceCounters_pipeCfgOk (s : State) : s.advanceCounters.pipeCfgOk = s.pipeCfgOk := rfl
@[simp] theorem State.advanceCounters_abort (s : State) : s.advanceCounters.abort = s.abort := rfl
@[simp] theorem State.advanceCounters_cur (s : State) : s.advanceCounters.cur = s.cur := rfl
@[simp] theorem State.advanceCounters_pos (s : State) : s.advanceCounters.pos = s.pos := rfl
@[simp] theorem State.advanceCounters_phase (s : State) : s.advanceCounters.phase = s.phase := rfl
@[simp] theorem State.advanceCounters_idx (s : State) : s.advanceCounters.idx = s.idx := rfl
@[simp] theorem State.advanceCounters_out64 (s : State) : s.advanceCounters.out64 = s.out64 := rfl
@[simp] theorem State.advanceCounters_mem (s : State) : s.advanceCounters.mem = s.mem := rfl
@[simp] theorem State.advanceCounters_ports (s : State) : s.advanceCounters.ports = s.ports := rfl
@[simp] theorem State.advanceCounters_hostPend (s : State) : s.advanceCounters.hostPend = s.hostPend := rfl
@[simp] theorem State.advanceCounters_memReads (s : State) : s.advanceCounters.memReads = s.memReads := rfl
@[simp] theorem State.advanceCounters_sched (s : State) : s.advanceCounters.sched = s.sched := rfl
@[simp] theorem State.advanceCounters_now (s : State) : s.advanceCounters.now = s.now := rfl
@[simp] theorem State.advanceCounters_lb (s : State) (c : Bool) : s.advanceCounters.lb c = s.lb c := rfl
@[simp] theorem State.advanceCounters_lbEntry (s : State) (c : Bool) (k : Nat) : s.advanceCounters.lbEntry c k = s.lbEntry c k := rfl
@[simp] theorem State.advanceCounters_tabEntry (s : State) (i : Index) : s.advanceCounters.tabEntry i = s.tabEntry i := rfl

/-! ### toggleBuf -/

@[simp] theorem State.toggleBuf_mode (s : State) : s.toggleBuf.mode = s.mode := rfl
@[simp] theorem State.toggleBuf_fbPtr (s : State) : s.toggleBuf.fbPtr = s.fbPtr := rfl
@[simp] theorem State.toggleBuf_fbWidth (s : State) : s.toggleBuf.fbWidth = s.fbWidth := rfl
@[simp] theorem State.toggleBuf_fbHeight (s : State) : s.toggleBuf.fbHeight = s.fbHeight := rfl
@[simp] theorem State.toggleBuf_offX (s : State) : s.toggleBuf.offX = s.offX := rfl
@[simp] theorem State.toggleBuf_offY (s : State) : s.toggleBuf.offY = s.offY := rfl
@[simp] theorem State.toggleBuf_textPtr (s : State) : s.toggleBuf.textPtr = s.textPtr := rfl
@[simp] theorem State.toggleBuf_palRgb (s : State) : s.toggleBuf.palRgb = s.palRgb := rfl
@[simp] theorem State.toggleBuf_tab (s : State) : s.toggleBuf.tab = s.tab := rfl
@[simp] theorem State.toggleBuf_lb0 (s : State) : s.toggleBuf.lb0 = s.lb0 := rfl
@[simp] theorem State.toggleBuf_lb1 (s : State) : s.toggleBuf.lb1 = s.lb1 := rfl
@[simp] theorem State.toggleBuf_drv (s : State) : s.toggleBuf.drv = s.drv := rfl
@[simp] theorem State.toggleBuf_line (s : State) : s.toggleBuf.line = s.line := rfl
@[simp] theorem State.toggleBuf_bufIdx (s : State) : s.toggleBuf.bufIdx = !s.bufIdx := rfl
@[simp] theorem State.toggleBuf_ticks (s : State) : s.toggleBuf.ticks = s.ticks := rfl
@[simp] theorem State.toggleBuf_src (s : State) : s.toggleBuf.src = s.src := rfl
@[simp] theorem State.toggleBuf_irqEn (s : State) : s.toggleBuf.irqEn = s.irqEn := rfl
@[simp] theorem State.toggleBuf_irqPend (s : State) : s.toggleBuf.irqPend = s.irqPend := rfl
@[simp] theorem State.toggleBuf_pipeEn (s : State) : s.toggleBuf.pipeEn = s.pipeEn := rfl
@[simp] theorem State.toggleBuf_pipeCfgOk (s : State) : s.toggleBuf.pipeCfgOk = s.pipeCfgOk := rfl
@[simp] theorem State.toggleBuf_abort (s : State) : s.toggleBuf.abort = s.abort := rfl
@[simp] theorem State.toggleBuf_cur (s : State) : s.toggleBuf.cur = s.cur := rfl
@[simp] theorem State.toggleBuf_pos (s : State) : s.toggleBuf.pos = s.pos := rfl
@[simp] theorem State.toggleBuf_phase (s : State) : s.toggleBuf.phase = s.phase := rfl
@[simp] theorem State.toggleBuf_idx (s : State) : s.toggleBuf.idx = s.idx := rfl
@[simp] theorem State.toggleBuf_out64 (s : State) : s.toggleBuf.out64 = s.out64 := rfl
@[simp] theorem State.toggleBuf_mem (s : State) : s.toggleBuf.mem = s.mem := rfl
@[simp] theorem State.toggleBuf_ports (s : State) : s.toggleBuf.ports = s.ports := rfl
@[simp] theorem State.toggleBuf_hostPend (s : State) : s.toggleBuf.hostPend = s.hostPend := rfl
@[simp] theorem State.toggleBuf_memReads (s : State) : s.toggleBuf.memReads = s.memReads := rfl
@[simp] theorem State.toggleBuf_sched (s : State) : s.toggleBuf.sched = s.sched := rfl
@[simp] theorem State.toggleBuf_now (s : State) : s.toggleBuf.now = s.now := rfl
@[simp] theorem State.toggleBuf_lb (s : State) (c : Bool) : s.toggleBuf.lb c = s.lb c := rfl
@[simp] theorem State.toggleBuf_lbEntry (s : State) (c : Bool) (k : Nat) : s.toggleBuf.lbEntry c k = s.lbEntry c k := rfl
@[simp] theorem State.toggleBuf_tabEntry (s : State) (i : Index) : s.toggleBuf.tabEntry i = s.tabEntry i := rfl

/-! ### logReads -/

@[simp] theorem State.logReads_mode (s : State) (as : List Addr) : (s.logReads as).mode = s.mode := rfl
@[simp] theorem State.logReads_fbPtr (s : State) (as : List Addr) : (s.logReads as).fbPtr = s.fbPtr := rfl
@[simp] theorem State.logReads_fbWidth (s : State) (as : List Addr) : (s.logReads as).fbWidth = s.fbWidth := rfl
@[simp] theorem State.logReads_fbHeight (s : State) (as : List Addr) : (s.logReads as).fbHeight = s.fbHeight := rfl
@[simp] theorem State.logReads_offX (s : State) (as : List Addr) : (s.logReads as).offX = s.offX := rfl
@[simp] theorem State.logReads_offY (s : State) (as : List Addr) : (s.logReads as).offY = s.offY := rfl
@[simp] theorem State.logReads_textPtr (s : State) (as : List Addr) : (s.logReads as).textPtr = s.textPtr := rfl
@[simp] theorem State.logReads_palRgb (s : State) (as : List Addr) : (s.logReads as).palRgb = s.palRgb := rfl
@[simp] theorem State.logReads_tab (s : State) (as : List Addr) : (s.logReads as).tab = s.tab := rfl
@[simp] theorem State.logReads_lb0 (s : State) (as : List Addr) : (s.logReads as).lb0 = s.lb0 := rfl
@[simp] theorem State.logReads_lb1 (s : State) (as : List Addr) : (s.logReads as).lb1 = s.lb1 := rfl
@[simp] theorem State.logReads_drv (s : State) (as : List Addr) : (s.logReads as).drv = s.drv := rfl
@[simp] theorem State.logReads_line (s : State) (as : List Addr) : (s.logReads as).line = s.line := rfl
@[simp] theorem State.logReads_bufIdx (s : State) (as : List Addr) : (s.logReads as).bufIdx = s.bufIdx := rfl
@[simp] theorem State.logReads_ticks (s : State) (as : List Addr) : (s.logReads as).ticks = s.ticks := rfl
@[simp] theorem State.logReads_src (s : State) (as : List Addr) : (s.logReads as).src = s.src := rfl
@[simp] theorem State.logReads_irqEn (s : State) (as : List Addr) : (s.logReads as).irqEn = s.irqEn := rfl
@[simp] theorem State.logReads_irqPend (s : State) (as : List Addr) : (s.logReads as).irqPend = s.irqPend := rfl
@[simp] theorem State.logReads_pipeEn (s : State) (as : List Addr) : (s.logReads as).pipeEn = s.pipeEn := rfl
@[simp] theorem State.logReads_pipeCfgOk (s : State) (as : List Addr) : (s.logReads as).pipeCfgOk = s.pipeCfgOk := rfl
@[simp] theorem State.logReads_abort (s : State) (as : List Addr) : (s.logReads as).abort = s.abort := rfl
@[simp] theorem State.logReads_cur (s : State) (as : List Addr) : (s.logReads as).cur = s.cur := rfl
@[simp] theorem State.logReads_pos (s : State) (as : List Addr) : (s.logReads as).pos = s.pos := rfl
@[simp] theorem State.logReads_phase (s : State) (as : List Addr) : (s.logReads as).phase = s.phase := rfl
@[simp] theorem State.logReads_idx (s : State) (as : List Addr) : (s.logReads as).idx = s.idx := rfl
@[simp] theorem State.logReads_out64 (s : State) (as : List Addr) : (s.logReads as).out64 = s.out64 := rfl
@[simp] theorem State.logReads_mem (s : State) (as : List Addr) : (s.logReads as).mem = s.mem := rfl
@[simp] theorem State.logReads_ports (s : State) (as : List Addr) : (s.logReads as).ports = s.ports := rfl
@[simp] theorem State.logReads_hostPend (s : State) (as : List Addr) : (s.logReads as).hostPend = s.hostPend := rfl
@[simp] theorem State.logReads_memReads (s : State) (as : List Addr) : (s.logReads as).memReads = s.memReads ++ as := rfl
@[simp] theorem State.logReads_sched (s : State) (as : List Addr) : (s.logReads as).sched = s.sched := rfl
@[simp] theorem State.logReads_now (s : State) (as : List Addr) : (s.logReads as).now = s.now := rfl
@[simp] theorem State.logReads_lb (s : State) (as : List Addr) (c : Bool) : (s.logReads as).lb c = s.lb c := rfl
@[simp] theorem State.logReads_lbEntry (s : State) (as : List Addr) (c : Bool) (k : Nat) : (s.logReads as).lbEntry c k = s.lbEntry c k := rfl
@[simp] theorem State.logReads_tabEntry (s : State) (as : List Addr) (i : Index) : (s.logReads as).tabEntry i = s.tabEntry i := rfl

/-! ### emitWord -/

@[simp] theorem State.emitWord_mode (s : State) (w : Word64) : (s.emitWord w).mode = s.mode := rfl
@[simp] theorem State.emitWord_fbPtr (s : State) (w : Word64) : (s.emitWord w).fbPtr = s.fbPtr := rfl
@[simp] theorem State.emitWord_fbWidth (s : State) (w : Word64) : (s.emitWord w).fbWidth = s.fbWidth := rfl
@[simp] theorem State.emitWord_fbHeight (s : State) (w : Word64) : (s.emitWord w).fbHeight = s.fbHeight := rfl
@[simp] theorem State.emitWord_offX (s : State) (w : Word64) : (s.emitWord w).offX = s.offX := rfl
@[simp] theorem State.emitWord_offY (s : State) (w : Word64) : (s.emitWord w).offY = s.offY := rfl
@[simp] theorem State.emitWord_textPtr (s : State) (w : Word64) : (s.emitWord w).textPtr = s.textPtr := rfl
@[simp] theorem State.emitWord_palRgb (s : State) (w : Word64) : (s.emitWord w).palRgb = s.palRgb := rfl
@[simp] theorem State.emitWord_tab (s : State) (w : Word64) : (s.emitWord w).tab = s.tab := rfl
@[simp] theorem State.emitWord_lb0 (s : State) (w : Word64) : (s.emitWord w).lb0 = s.lb0 := rfl
@[simp] theorem State.emitWord_lb1 (s : State) (w : Word64) : (s.emitWord w).lb1 = s.lb1 := rfl
@[simp] theorem State.emitWord_drv (s : State) (w : Word64) : (s.emitWord w).drv = s.drv := rfl
@[simp] theorem State.emitWord_line (s : State) (w : Word64) : (s.emitWord w).line = s.line := rfl
@[simp] theorem State.emitWord_bufIdx (s : State) (w : Word64) : (s.emitWord w).bufIdx = s.bufIdx := rfl
@[simp] theorem State.emitWord_ticks (s : State) (w : Word64) : (s.emitWord w).ticks = s.ticks := rfl
@[simp] theorem State.emitWord_src (s : State) (w : Word64) : (s.emitWord w).src = s.src := rfl
@[simp] theorem State.emitWord_irqEn (s : State) (w : Word64) : (s.emitWord w).irqEn = s.irqEn := rfl
@[simp] theorem State.emitWord_irqPend (s : State) (w : Word64) : (s.emitWord w).irqPend = s.irqPend := rfl
@[simp] theorem State.emitWord_pipeEn (s : State) (w : Word64) : (s.emitWord w).pipeEn = s.pipeEn := rfl
@[simp] theorem State.emitWord_pipeCfgOk (s : State) (w : Word64) : (s.emitWord w).pipeCfgOk = s.pipeCfgOk := rfl
@[simp] theorem State.emitWord_abort (s : State) (w : Word64) : (s.emitWord w).abort = s.abort := rfl
@[simp] theorem State.emitWord_cur (s : State) (w : Word64) : (s.emitWord w).cur = s.cur := rfl
@[simp] theorem State.emitWord_pos (s : State) (w : Word64) : (s.emitWord w).pos = s.pos := rfl
@[simp] theorem State.emitWord_phase (s : State) (w : Word64) : (s.emitWord w).phase = s.phase := rfl
@[simp] theorem State.emitWord_idx (s : State) (w : Word64) : (s.emitWord w).idx = s.idx := rfl
@[simp] theorem State.emitWord_out64 (s : State) (w : Word64) : (s.emitWord w).out64 = s.out64 ++ [w] := rfl
@[simp] theorem State.emitWord_mem (s : State) (w : Word64) : (s.emitWord w).mem = s.mem := rfl
@[simp] theorem State.emitWord_ports (s : State) (w : Word64) : (s.emitWord w).ports = s.ports := rfl
@[simp] theorem State.emitWord_hostPend (s : State) (w : Word64) : (s.emitWord w).hostPend = s.hostPend := rfl
@[simp] theorem State.emitWord_memReads (s : State) (w : Word64) : (s.emitWord w).memReads = s.memReads := rfl
@[simp] theorem State.emitWord_sched (s : State) (w : Word64) : (s.emitWord w).sched = s.sched := rfl
@[simp] theorem State.emitWord_now (s : State) (w : Word64) : (s.emitWord w).now = s.now := rfl
@[simp] theorem State.emitWord_lb (s : State) (w : Word64) (c : Bool) : (s.emitWord w).lb c = s.lb c := rfl
@[simp] theorem State.emitWord_lbEntry (s : State) (w : Word64) (c : Bool) (k : Nat) : (s.emitWord w).lbEntry c k = s.lbEntry c k := rfl
@[simp] theorem State.emitWord_tabEntry (s : State) (w : Word64) (i : Index) : (s.emitWord w).tabEntry i = s.tabEntry i := rfl

/-! ### beginLine -/

@[simp] theorem State.beginLine_mode (s : State) : s.beginLine.mode = s.mode := rfl
@[simp] theorem State.beginLine_fbPtr (s : State) : s.beginLine.fbPtr = s.fbPtr := rfl
@[simp] theorem State.beginLine_fbWidth (s : State) : s.beginLine.fbWidth = s.fbWidth := rfl
@[simp] theorem State.beginLine_fbHeight (s : State) : s.beginLine.fbHeight = s.fbHeight := rfl
@[simp] theorem State.beginLine_offX (s : State) : s.beginLine.offX = s.offX := rfl
@[simp] theorem State.beginLine_offY (s : State) : s.beginLine.offY = s.offY := rfl
@[simp] theorem State.beginLine_textPtr (s : State) : s.beginLine.textPtr = s.textPtr := rfl
@[simp] theorem State.beginLine_palRgb (s : State) : s.beginLine.palRgb = s.palRgb := rfl
@[simp] theorem State.beginLine_tab (s : State) : s.beginLine.tab = s.tab := rfl
@[simp] theorem State.beginLine_lb0 (s : State) : s.beginLine.lb0 = s.lb0 := rfl
@[simp] theorem State.beginLine_lb1 (s : State) : s.beginLine.lb1 = s.lb1 := rfl
@[simp] theorem State.beginLine_drv (s : State) : s.beginLine.drv = s.drv := rfl
@[simp] theorem State.beginLine_line (s : State) : s.beginLine.line = s.line := rfl
@[simp] theorem State.beginLine_bufIdx (s : State) : s.beginLine.bufIdx = s.bufIdx := rfl
@[simp] theorem State.beginLine_ticks (s : State) : s.beginLine.ticks = s.ticks := rfl
@[simp] theorem State.beginLine_src (s : State) : s.beginLine.src = s.src := rfl
@[simp] theorem State.beginLine_irqEn (s : State) : s.beginLine.irqEn = s.irqEn := rfl
@[simp] theorem State.beginLine_irqPend (s : State) : s.beginLine.irqPend = (s.irqPend || s.irqEn) := rfl
@[simp] theorem State.beginLine_pipeEn (s : State) : s.beginLine.pipeEn = s.pipeEn := rfl
@[simp] theorem State.beginLine_pipeCfgOk (s : State) : s.beginLine.pipeCfgOk = s.pipeCfgOk := rfl
@[simp] theorem State.beginLine_abort (s : State) : s.beginLine.abort = s.abort := rfl
@[simp] theorem State.beginLine_cur (s : State) : s.beginLine.cur = s.src := rfl
@[simp] theorem State.beginLine_pos (s : State) : s.beginLine.pos = 0 := rfl
@[simp] theorem State.beginLine_phase (s : State) : s.beginLine.phase = false := rfl
@[simp] theorem State.beginLine_idx (s : State) : s.beginLine.idx = s.idx := rfl
@[simp] theorem State.beginLine_out64 (s : State) : s.beginLine.out64 = s.out64 := rfl
@[simp] theorem State.beginLine_mem (s : State) : s.beginLine.mem = s.mem := rfl
@[simp] theorem State.beginLine_ports (s : State) : s.beginLine.ports = s.ports := rfl
@[simp] theorem State.beginLine_hostPend (s : State) : s.beginLine.hostPend = s.hostPend := rfl
@[simp] theorem State.beginLine_memReads (s : State) : s.beginLine.memReads = s.memReads := rfl
@[simp] theorem State.beginLine_sched (s : State) : s.beginLine.sched = s.sched := rfl
@[simp] theorem State.beginLine_now (s : State) : s.beginLine.now = s.now := rfl
@[simp] theorem State.beginLine_lb (s : State) (c : Bool) : s.beginLine.lb c = s.lb c := rfl
@[simp] theorem State.beginLine_lbEntry (s : State) (c : Bool) (k : Nat) : s.beginLine.lbEntry c k = s.lbEntry c k := rfl
@[simp] theorem State.beginLine_tabEntry (s : State) (i : Index) : s.beginLine.tabEntry i = s.tabEntry i := rfl

/-! ### emitPrimary -/

@[simp] theorem State.emitPrimary_mode (s : State) : s.emitPrimary.mode = s.mode := rfl
@[simp] theorem State.emitPrimary_fbPtr (s : State) : s.emitPrimary.fbPtr = s.fbPtr := rfl
@[simp] theorem State.emitPrimary_fbWidth (s : State) : s.emitPrimary.fbWidth = s.fbWidth := rfl
@[simp] theorem State.emitPrimary_fbHeight (s : State) : s.emitPrimary.fbHeight = s.fbHeight := rfl
@[simp] theorem State.emitPrimary_offX (s : State) : s.emitPrimary.offX = s.offX := rfl
@[simp] theorem State.emitPrimary_offY (s : State) : s.emitPrimary.offY = s.offY := rfl
@[simp] theorem State.emitPrimary_textPtr (s : State) : s.emitPrimary.textPtr = s.textPtr := rfl
@[simp] theorem State.emitPrimary_palRgb (s : State) : s.emitPrimary.palRgb = s.palRgb := rfl
@[simp] theorem State.emitPrimary_tab (s : State) : s.emitPrimary.tab = s.tab := rfl
@[simp] theorem State.emitPrimary_lb0 (s : State) : s.emitPrimary.lb0 = s.lb0 := rfl
@[simp] theorem State.emitPrimary_lb1 (s : State) : s.emitPrimary.lb1 = s.lb1 := rfl
@[simp] theorem State.emitPrimary_drv (s : State) : s.emitPrimary.drv = s.drv := rfl
@[simp] theorem State.emitPrimary_line (s : State) : s.emitPrimary.line = s.line := rfl
@[simp] theorem State.emitPrimary_bufIdx (s : State) : s.emitPrimary.bufIdx = s.bufIdx := rfl
@[simp] theorem State.emitPrimary_ticks (s : State) : s.emitPrimary.ticks = s.ticks := rfl
@[simp] theorem State.emitPrimary_src (s : State) : s.emitPrimary.src = s.src := rfl
@[simp] theorem State.emitPrimary_irqEn (s : State) : s.emitPrimary.irqEn = s.irqEn := rfl
@[simp] theorem State.emitPrimary_irqPend (s : State) : s.emitPrimary.irqPend = s.irqPend := rfl
@[simp] theorem State.emitPrimary_pipeEn (s : State) : s.emitPrimary.pipeEn = s.pipeEn := rfl
@[simp] theorem State.emitPrimary_pipeCfgOk (s : State) : s.emitPrimary.pipeCfgOk = s.pipeCfgOk := rfl
@[simp] theorem State.emitPrimary_abort (s : State) : s.emitPrimary.abort = s.abort := rfl
@[simp] theorem State.emitPrimary_cur (s : State) : s.emitPrimary.cur = s.cur := rfl
@[simp] theorem State.emitPrimary_pos (s : State) : s.emitPrimary.pos = s.pos := rfl
@[simp] theorem State.emitPrimary_phase (s : State) : s.emitPrimary.phase = true := rfl
@[simp] theorem State.emitPrimary_idx (s : State) : s.emitPrimary.idx = s.lbEntry s.cur s.pos := rfl
@[simp] theorem State.emitPrimary_out64 (s : State) : s.emitPrimary.out64 = s.out64 ++ [(s.tabEntry (s.lbEntry s.cur s.pos)).w0] := rfl
@[simp] theorem State.emitPrimary_mem (s : State) : s.emitPrimary.mem = s.mem := rfl
@[simp] theorem State.emitPrimary_ports (s : State) : s.emitPrimary.ports = s.ports := rfl
@[simp] theorem State.emitPrimary_hostPend (s : State) : s.emitPrimary.hostPend = s.hostPend := rfl
@[simp] theorem State.emitPrimary_memReads (s : State) : s.emitPrimary.memReads = s.memReads := rfl
@[simp] theorem State.emitPrimary_sched (s : State) : s.emitPrimary.sched = s.sched := rfl
@[simp] theorem State.emitPrimary_now (s : State) : s.emitPrimary.now = s.now := rfl
@[simp] theorem State.emitPrimary_lb (s : State) (c : Bool) : s.emitPrimary.lb c = s.lb c := rfl
@[simp] theorem State.emitPrimary_lbEntry (s : State) (c : Bool) (k : Nat) : s.emitPrimary.lbEntry c k = s.lbEntry c k := rfl
@[simp] theorem State.emitPrimary_tabEntry (s : State) (i : Index) : s.emitPrimary.tabEntry i = s.tabEntry i := rfl

/-! ### emitSecondary -/

@[simp] theorem State.emitSecondary_mode (s : State) : s.emitSecondary.mode = s.mode := rfl
@[simp] theorem State.emitSecondary_fbPtr (s : State) : s.emitSecondary.fbPtr = s.fbPtr := rfl
@[simp] theorem State.emitSecondary_fbWidth (s : State) : s.emitSecondary.fbWidth = s.fbWidth := rfl
@[simp] theorem State.emitSecondary_fbHeight (s : State) : s.emitSecondary.fbHeight = s.fbHeight := rfl
@[simp] theorem State.emitSecondary_offX (s : State) : s.emitSecondary.offX = s.offX := rfl
@[simp] theorem State.emitSecondary_offY (s : State) : s.emitSecondary.offY = s.offY := rfl
@[simp] theorem State.emitSecondary_textPtr (s : State) : s.emitSecondary.textPtr = s.textPtr := rfl
@[simp] theorem State.emitSecondary_palRgb (s : State) : s.emitSecondary.palRgb = s.palRgb := rfl
@[simp] theorem State.emitSecondary_tab (s : State) : s.emitSecondary.tab = s.tab := rfl
@[simp] theorem State.emitSecondary_lb0 (s : State) : s.emitSecondary.lb0 = s.lb0 := rfl
@[simp] theorem State.emitSecondary_lb1 (s : State) : s.emitSecondary.lb1 = s.lb1 := rfl
@[simp] theorem State.emitSecondary_drv (s : State) : s.emitSecondary.drv = s.drv := rfl
@[simp] theorem State.emitSecondary_line (s : State) : s.emitSecondary.line = s.line := rfl
@[simp] theorem State.emitSecondary_bufIdx (s : State) : s.emitSecondary.bufIdx = s.bufIdx := rfl
@[simp] theorem State.emitSecondary_ticks (s : State) : s.emitSecondary.ticks = s.ticks := rfl
@[simp] theorem State.emitSecondary_src (s : State) : s.emitSecondary.src = s.src := rfl
@[simp] theorem State.emitSecondary_irqEn (s : State) : s.emitSecondary.irqEn = s.irqEn := rfl
@[simp] theorem State.emitSecondary_irqPend (s : State) : s.emitSecondary.irqPend = s.irqPend := rfl
@[simp] theorem State.emitSecondary_pipeEn (s : State) : s.emitSecondary.pipeEn = s.pipeEn := rfl
@[simp] theorem State.emitSecondary_pipeCfgOk (s : State) : s.emitSecondary.pipeCfgOk = s.pipeCfgOk := rfl
@[simp] theorem State.emitSecondary_abort (s : State) : s.emitSecondary.abort = s.abort := rfl
@[simp] theorem State.emitSecondary_cur (s : State) : s.emitSecondary.cur = s.cur := rfl
@[simp] theorem State.emitSecondary_pos (s : State) : s.emitSecondary.pos = s.pos + 1 := rfl
@[simp] theorem State.emitSecondary_phase (s : State) : s.emitSecondary.phase = false := rfl
@[simp] theorem State.emitSecondary_idx (s : State) : s.emitSecondary.idx = s.idx := rfl
@[simp] theorem State.emitSecondary_out64 (s : State) : s.emitSecondary.out64 = s.out64 ++ [(s.tabEntry s.idx).w1] := rfl
@[simp] theorem State.emitSecondary_mem (s : State) : s.emitSecondary.mem = s.mem := rfl
@[simp] theorem State.emitSecondary_ports (s : State) : s.emitSecondary.ports = s.ports := rfl
@[simp] theorem State.emitSecondary_hostPend (s : State) : s.emitSecondary.hostPend = s.hostPend := rfl
@[simp] theorem State.emitSecondary_memReads (s : State) : s.emitSecondary.memReads = s.memReads := rfl
@[simp] theorem State.emitSecondary_sched (s : State) : s.emitSecondary.sched = s.sched := rfl
@[simp] theorem State.emitSecondary_now (s : State) : s.emitSecondary.now = s.now := rfl
@[simp] theorem State.emitSecondary_lb (s : State) (c : Bool) : s.emitSecondary.lb c = s.lb c := rfl
@[simp] theorem State.emitSecondary_lbEntry (s : State) (c : Bool) (k : Nat) : s.emitSecondary.lbEntry c k = s.lbEntry c k := rfl
@[simp] theorem State.emitSecondary_tabEntry (s : State) (i : Index) : s.emitSecondary.tabEntry i = s.tabEntry i := rfl

/-! ### setLb -/

@[simp] theorem State.setLb_mode (s : State) (b : Bool) (v : Bank Index 800) : (s.setLb b v).mode = s.mode := by cases b <;> rfl
@[simp] theorem State.setLb_fbPtr (s : State) (b : Bool) (v : Bank Index 800) : (s.setLb b v).fbPtr = s.fbPtr := by cases b <;> rfl
@[simp] theorem State.setLb_fbWidth (s : State) (b : Bool) (v : Bank Index 800) : (s.setLb b v).fbWidth = s.fbWidth := by cases b <;> rfl
@[simp] theorem State.setLb_fbHeight (s : State) (b : Bool) (v : Bank Index 800) : (s.setLb b v).fbHeight = s.fbHeight := by cases b <;> rfl
@[simp] theorem State.setLb_offX (s : State) (b : Bool) (v : Bank Index 800) : (s.setLb b v).offX = s.offX := by cases b <;> rfl
@[simp] theorem State.setLb_offY (s : State) (b : Bool) (v : Bank Index 800) : (s.setLb b v).offY = s.offY := by cases b <;> rfl
@[simp] theorem State.setLb_textPtr (s : State) (b : Bool) (v : Bank Index 800) : (s.setLb b v).textPtr = s.textPtr := by cases b <;> rfl
@[simp] theorem State.setLb_palRgb (s : State) (b : Bool) (v : Bank Index 800) : (s.setLb b v).palRgb = s.palRgb := by cases b <;> rfl
@[simp] theorem State.setLb_tab (s : State) (b : Bool) (v : Bank Index 800) : (s.setLb b v).tab = s.tab := by cases b <;> rfl
@[simp] theorem State.setLb_drv (s : State) (b : Bool) (v : Bank Index 800) : (s.setLb b v).drv = s.drv := by cases b <;> rfl
@[simp] theorem State.setLb_line (s : State) (b : Bool) (v : Bank Index 800) : (s.setLb b v).line = s.line := by cases b <;> rfl
@[simp] theorem State.setLb_bufIdx (s : State) (b : Bool) (v : Bank Index 800) : (s.setLb b v).bufIdx = s.bufIdx := by cases b <;> rfl
@[simp] theorem State.setLb_ticks (s : State) (b : Bool) (v : Bank Index 800) : (s.setLb b v).ticks = s.ticks := by cases b <;> rfl
@[simp] theorem State.setLb_src (s : State) (b : Bool) (v : Bank Index 800) : (s.setLb b v).src = s.src := by cases b <;> rfl
@[simp] theorem State.setLb_irqEn (s : State) (b : Bool) (v : Bank Index 800) : (s.setLb b v).irqEn = s.irqEn := by cases b <;> rfl
@[simp] theorem State.setLb_irqPend (s : State) (b : Bool) (v : Bank Index 800) : (s.setLb b v).irqPend = s.irqPend := by cases b <;> rfl
@[simp] theorem State.setLb_pipeEn (s : State) (b : Bool) (v : Bank Index 800) : (s.setLb b v).pipeEn = s.pipeEn := by cases b <;> rfl
@[simp] theorem State.setLb_pipeCfgOk (s : State) (b : Bool) (v : Bank Index 800) : (s.setLb b v).pipeCfgOk = s.pipeCfgOk := by cases b <;> rfl
@[simp] theorem State.setLb_abort (s : State) (b : Bool) (v : Bank Index 800) : (s.setLb b v).abort = s.abort := by cases b <;> rfl
@[simp] theorem State.setLb_cur (s : State) (b : Bool) (v : Bank Index 800) : (s.setLb b v).cur = s.cur := by cases b <;> rfl
@[simp] theorem State.setLb_pos (s : State) (b : Bool) (v : Bank Index 800) : (s.setLb b v).pos = s.pos := by cases b <;> rfl
@[simp] theorem State.setLb_phase (s : State) (b : Bool) (v : Bank Index 800) : (s.setLb b v).phase = s.phase := by cases b <;> rfl
@[simp] theorem State.setLb_idx (s : State) (b : Bool) (v : Bank Index 800) : (s.setLb b v).idx = s.idx := by cases b <;> rfl
@[simp] theorem State.setLb_out64 (s : State) (b : Bool) (v : Bank Index 800) : (s.setLb b v).out64 = s.out64 := by cases b <;> rfl
@[simp] theorem State.setLb_mem (s : State) (b : Bool) (v : Bank Index 800) : (s.setLb b v).mem = s.mem := by cases b <;> rfl
@[simp] theorem State.setLb_ports (s : State) (b : Bool) (v : Bank Index 800) : (s.setLb b v).ports = s.ports := by cases b <;> rfl
@[simp] theorem State.setLb_hostPend (s : State) (b : Bool) (v : Bank Index 800) : (s.setLb b v).hostPend = s.hostPend := by cases b <;> rfl
@[simp] theorem State.setLb_memReads (s : State) (b : Bool) (v : Bank Index 800) : (s.setLb b v).memReads = s.memReads := by cases b <;> rfl
@[simp] theorem State.setLb_sched (s : State) (b : Bool) (v : Bank Index 800) : (s.setLb b v).sched = s.sched := by cases b <;> rfl
@[simp] theorem State.setLb_now (s : State) (b : Bool) (v : Bank Index 800) : (s.setLb b v).now = s.now := by cases b <;> rfl

/-- The buffer written holds the new elements, the other one is kept. -/
@[simp] theorem State.setLb_lb (s : State) (b c : Bool) (v : Bank Index 800) :
    (s.setLb b v).lb c = if c = b then v else s.lb c := by cases b <;> cases c <;> rfl

/-! ### applyMicro: what each micro-write changes -/

@[simp] theorem State.applyMicro_mode_eq (s : State) (m : DisplayMode) : s.applyMicro (.mode m) = { s with mode := m } := rfl
@[simp] theorem State.applyMicro_fbPtr_eq (s : State) (v : Addr) : s.applyMicro (.fbPtr v) = { s with fbPtr := v } := rfl
@[simp] theorem State.applyMicro_fbWidth_eq (s : State) (v : BitVec 12) : s.applyMicro (.fbWidth v) = { s with fbWidth := v } := rfl
@[simp] theorem State.applyMicro_fbHeight_eq (s : State) (v : BitVec 12) : s.applyMicro (.fbHeight v) = { s with fbHeight := v } := rfl
@[simp] theorem State.applyMicro_offX_eq (s : State) (v : BitVec 12) : s.applyMicro (.offX v) = { s with offX := v } := rfl
@[simp] theorem State.applyMicro_offY_eq (s : State) (v : BitVec 12) : s.applyMicro (.offY v) = { s with offY := v } := rfl
@[simp] theorem State.applyMicro_textPtr_eq (s : State) (v : Addr) : s.applyMicro (.textPtr v) = { s with textPtr := v } := rfl
@[simp] theorem State.applyMicro_palRgb_eq (s : State) (i : PalIndex) (c : Rgb) :
    s.applyMicro (.palRgb i c) = { s with palRgb := s.palRgb.set i c } := rfl
@[simp] theorem State.applyMicro_tabW0_eq (s : State) (i : PalIndex) (w : Word64) :
    s.applyMicro (.tabW0 i w) = { s with tab := s.tab.set (palSlot i) { s.tab.get (palSlot i) with w0 := w } } := rfl
@[simp] theorem State.applyMicro_tabW1_eq (s : State) (i : PalIndex) (w : Word64) :
    s.applyMicro (.tabW1 i w) = { s with tab := s.tab.set (palSlot i) { s.tab.get (palSlot i) with w1 := w } } := rfl

/-! ### applyMicro and applyMicros: what no micro-write changes -/

@[simp] theorem State.applyMicro_lb0 (s : State) (w : MicroWrite) : (s.applyMicro w).lb0 = s.lb0 := by cases w <;> rfl
@[simp] theorem State.applyMicro_lb1 (s : State) (w : MicroWrite) : (s.applyMicro w).lb1 = s.lb1 := by cases w <;> rfl
@[simp] theorem State.applyMicro_drv (s : State) (w : MicroWrite) : (s.applyMicro w).drv = s.drv := by cases w <;> rfl
@[simp] theorem State.applyMicro_line (s : State) (w : MicroWrite) : (s.applyMicro w).line = s.line := by cases w <;> rfl
@[simp] theorem State.applyMicro_bufIdx (s : State) (w : MicroWrite) : (s.applyMicro w).bufIdx = s.bufIdx := by cases w <;> rfl
@[simp] theorem State.applyMicro_ticks (s : State) (w : MicroWrite) : (s.applyMicro w).ticks = s.ticks := by cases w <;> rfl
@[simp] theorem State.applyMicro_src (s : State) (w : MicroWrite) : (s.applyMicro w).src = s.src := by cases w <;> rfl
@[simp] theorem State.applyMicro_irqEn (s : State) (w : MicroWrite) : (s.applyMicro w).irqEn = s.irqEn := by cases w <;> rfl
@[simp] theorem State.applyMicro_irqPend (s : State) (w : MicroWrite) : (s.applyMicro w).irqPend = s.irqPend := by cases w <;> rfl
@[simp] theorem State.applyMicro_pipeEn (s : State) (w : MicroWrite) : (s.applyMicro w).pipeEn = s.pipeEn := by cases w <;> rfl
@[simp] theorem State.applyMicro_pipeCfgOk (s : State) (w : MicroWrite) : (s.applyMicro w).pipeCfgOk = s.pipeCfgOk := by cases w <;> rfl
@[simp] theorem State.applyMicro_abort (s : State) (w : MicroWrite) : (s.applyMicro w).abort = s.abort := by cases w <;> rfl
@[simp] theorem State.applyMicro_cur (s : State) (w : MicroWrite) : (s.applyMicro w).cur = s.cur := by cases w <;> rfl
@[simp] theorem State.applyMicro_pos (s : State) (w : MicroWrite) : (s.applyMicro w).pos = s.pos := by cases w <;> rfl
@[simp] theorem State.applyMicro_phase (s : State) (w : MicroWrite) : (s.applyMicro w).phase = s.phase := by cases w <;> rfl
@[simp] theorem State.applyMicro_idx (s : State) (w : MicroWrite) : (s.applyMicro w).idx = s.idx := by cases w <;> rfl
@[simp] theorem State.applyMicro_out64 (s : State) (w : MicroWrite) : (s.applyMicro w).out64 = s.out64 := by cases w <;> rfl
@[simp] theorem State.applyMicro_mem (s : State) (w : MicroWrite) : (s.applyMicro w).mem = s.mem := by cases w <;> rfl
@[simp] theorem State.applyMicro_ports (s : State) (w : MicroWrite) : (s.applyMicro w).ports = s.ports := by cases w <;> rfl
@[simp] theorem State.applyMicro_hostPend (s : State) (w : MicroWrite) : (s.applyMicro w).hostPend = s.hostPend := by cases w <;> rfl
@[simp] theorem State.applyMicro_memReads (s : State) (w : MicroWrite) : (s.applyMicro w).memReads = s.memReads := by cases w <;> rfl
@[simp] theorem State.applyMicro_sched (s : State) (w : MicroWrite) : (s.applyMicro w).sched = s.sched := by cases w <;> rfl
@[simp] theorem State.applyMicro_now (s : State) (w : MicroWrite) : (s.applyMicro w).now = s.now := by cases w <;> rfl
@[simp] theorem State.applyMicro_lb (s : State) (w : MicroWrite) (c : Bool) : (s.applyMicro w).lb c = s.lb c := by cases w <;> rfl

@[simp] theorem State.applyMicros_nil (s : State) : s.applyMicros [] = s := rfl
@[simp] theorem State.applyMicros_cons (s : State) (w : MicroWrite) (ws : List MicroWrite) :
    s.applyMicros (w :: ws) = (s.applyMicro w).applyMicros ws := rfl

@[simp] theorem State.applyMicros_lb0 (s : State) (ws : List MicroWrite) : (s.applyMicros ws).lb0 = s.lb0 := by
  induction ws generalizing s with
  | nil => rfl
  | cons w ws ih => simp [ih]
@[simp] theorem State.applyMicros_lb1 (s : State) (ws : List MicroWrite) : (s.applyMicros ws).lb1 = s.lb1 := by
  induction ws generalizing s with
  | nil => rfl
  | cons w ws ih => simp [ih]
@[simp] theorem State.applyMicros_drv (s : State) (ws : List MicroWrite) : (s.applyMicros ws).drv = s.drv := by
  induction ws generalizing s with
  | nil => rfl
  | cons w ws ih => simp [ih]
@[simp] theorem State.applyMicros_line (s : State) (ws : List MicroWrite) : (s.applyMicros ws).line = s.line := by
  induction ws generalizing s with
  | nil => rfl
  | cons w ws ih => simp [ih]
@[simp] theorem State.applyMicros_bufIdx (s : State) (ws : List MicroWrite) : (s.applyMicros ws).bufIdx = s.bufIdx := by
  induction ws generalizing s with
  | nil => rfl
  | cons w ws ih => simp [ih]
@[simp] theorem State.applyMicros_ticks (s : State) (ws : List MicroWrite) : (s.applyMicros ws).ticks = s.ticks := by
  induction ws generalizing s with
  | nil => rfl
  | cons w ws ih => simp [ih]
@[simp] theorem State.applyMicros_src (s : State) (ws : List MicroWrite) : (s.applyMicros ws).src = s.src := by
  induction ws generalizing s with
  | nil => rfl
  | cons w ws ih => simp [ih]
@[simp] theorem State.applyMicros_irqEn (s : State) (ws : List MicroWrite) : (s.applyMicros ws).irqEn = s.irqEn := by
  induction ws generalizing s with
  | nil => rfl
  | cons w ws ih => simp [ih]
@[simp] theorem State.applyMicros_irqPend (s : State) (ws : List MicroWrite) : (s.applyMicros ws).irqPend = s.irqPend := by
  induction ws generalizing s with
  | nil => rfl
  | cons w ws ih => simp [ih]
@[simp] theorem State.applyMicros_pipeEn (s : State) (ws : List MicroWrite) : (s.applyMicros ws).pipeEn = s.pipeEn := by
  induction ws generalizing s with
  | nil => rfl
  | cons w ws ih => simp [ih]
@[simp] theorem State.applyMicros_pipeCfgOk (s : State) (ws : List MicroWrite) : (s.applyMicros ws).pipeCfgOk = s.pipeCfgOk := by
  induction ws generalizing s with
  | nil => rfl
  | cons w ws ih => simp [ih]
@[simp] theorem State.applyMicros_abort (s : State) (ws : List MicroWrite) : (s.applyMicros ws).abort = s.abort := by
  induction ws generalizing s with
  | nil => rfl
  | cons w ws ih => simp [ih]
@[simp] theorem State.applyMicros_cur (s : State) (ws : List MicroWrite) : (s.applyMicros ws).cur = s.cur := by
  induction ws generalizing s with
  | nil => rfl
  | cons w ws ih => simp [ih]
@[simp] theorem State.applyMicros_pos (s : State) (ws : List MicroWrite) : (s.applyMicros ws).pos = s.pos := by
  induction ws generalizing s with
  | nil => rfl
  | cons w ws ih => simp [ih]
@[simp] theorem State.applyMicros_phase (s : State) (ws : List MicroWrite) : (s.applyMicros ws).phase = s.phase := by
  induction ws generalizing s with
  | nil => rfl
  | cons w ws ih => simp [ih]
@[simp] theorem State.applyMicros_idx (s : State) (ws : List MicroWrite) : (s.applyMicros ws).idx = s.idx := by
  induction ws generalizing s with
  | nil => rfl
  | cons w ws ih => simp [ih]
@[simp] theorem State.applyMicros_out64 (s : State) (ws : List MicroWrite) : (s.applyMicros ws).out64 = s.out64 := by
  induction ws generalizing s with
  | nil => rfl
  | cons w ws ih => simp [ih]
@[simp] theorem State.applyMicros_mem (s : State) (ws : List MicroWrite) : (s.applyMicros ws).mem = s.mem := by
  induction ws generalizing s with
  | nil => rfl
  | cons w ws ih => simp [ih]
@[simp] theorem State.applyMicros_ports (s : State) (ws : List MicroWrite) : (s.applyMicros ws).ports = s.ports := by
  induction ws generalizing s with
  | nil => rfl
  | cons w ws ih => simp [ih]
@[simp] theorem State.applyMicros_hostPend (s : State) (ws : List MicroWrite) : (s.applyMicros ws).hostPend = s.hostPend := by
  induction ws generalizing s with
  | nil => rfl
  | cons w ws ih => simp [ih]
@[simp] theorem State.applyMicros_memReads (s : State) (ws : List MicroWrite) : (s.applyMicros ws).memReads = s.memReads := by
  induction ws generalizing s with
  | nil => rfl
  | cons w ws ih => simp [ih]
@[simp] theorem State.applyMicros_sched (s : State) (ws : List MicroWrite) : (s.applyMicros ws).sched = s.sched := by
  induction ws generalizing s with
  | nil => rfl
  | cons w ws ih => simp [ih]
@[simp] theorem State.applyMicros_now (s : State) (ws : List MicroWrite) : (s.applyMicros ws).now = s.now := by
  induction ws generalizing s with
  | nil => rfl
  | cons w ws ih => simp [ih]
@[simp] theorem State.applyMicros_lb (s : State) (ws : List MicroWrite) (c : Bool) : (s.applyMicros ws).lb c = s.lb c := by
  induction ws generalizing s with
  | nil => rfl
  | cons w ws ih => simp [ih]

end Sys2Proof.Machine
end

