-- ==== Sys2Proof/Laws/Ops.lean ====
section
/-! SUPPORT. One lemma per shared operation that says what it does, for proofs to cite instead of unfolding it. -/

namespace Sys2Proof.Machine

/-! ## Operands -/

/-- An index operand selects a palette entry exactly when it is below 251 (R104). -/
theorem palIndex?_cases (index : Index) :
    (∃ i : PalIndex, palIndex? index = some i ∧ i.val = index.toNat) ∨ (palIndex? index = none ∧ 251 ≤ index.toNat) := by
  unfold palIndex?
  split
  · exact .inl ⟨_, rfl, rfl⟩
  · exact .inr ⟨rfl, by omega⟩

@[simp] theorem palSlot_val (i : PalIndex) : (palSlot i).val = i.val := rfl

@[simp] theorem slotOf_val (i : Index) : (slotOf i).val = i.toNat := rfl

theorem palSlot_inj {i j : PalIndex} : palSlot i = palSlot j ↔ i = j := by
  constructor
  · intro h; exact Fin.ext (by simpa using congrArg Fin.val h)
  · rintro rfl; rfl

/-- A palette entry as an index operand selects that entry. -/
@[simp] theorem palIndex?_indexOfPal (i : PalIndex) : palIndex? (indexOfPal i) = some i := by
  have h : (indexOfPal i).toNat = i.val := by
    simp [indexOfPal, Nat.mod_eq_of_lt (Nat.lt_trans i.isLt (by decide : 251 < 256))]
  unfold palIndex?
  split
  · exact congrArg some (Fin.ext h)
  · omega

@[simp] theorem indexOfPal_toNat (i : PalIndex) : (indexOfPal i).toNat = i.val := by
  simp [indexOfPal, Nat.mod_eq_of_lt (Nat.lt_trans i.isLt (by decide : 251 < 256))]

/-- A palette entry as an index selects its slot of the table. -/
@[simp] theorem slotOf_indexOfPal (i : PalIndex) : slotOf (indexOfPal i) = palSlot i := Fin.ext (by simp)

/-! ## Micro-writes -/

/-- Micro-writes in two groups are made in order. -/
theorem State.applyMicros_append (s : State) (ws vs : List MicroWrite) :
    s.applyMicros (ws ++ vs) = (s.applyMicros ws).applyMicros vs := by
  simp [State.applyMicros]

/-- The three micro-writes of `SET_PALETTE` write one colour and one whole entry (R153). -/
theorem State.applyMicros_paletteWrites (s : State) (i : PalIndex) (c : Rgb) :
    s.applyMicros (paletteWrites i c) =
      { s with palRgb := s.palRgb.set i c, tab := s.tab.set (palSlot i) (entry Config.hw c) } := by
  simp [paletteWrites]

/-- No micro-write reaches a slot of `TAB` at or above 251 (R50). -/
theorem State.applyMicro_tab_high (s : State) (w : MicroWrite) (k : Fin 256) (hk : 251 ≤ k.val) :
    (s.applyMicro w).tab.get k = s.tab.get k := by
  have hne : ∀ i : PalIndex, k ≠ palSlot i := fun i h => by have := i.isLt; simp [h] at hk; omega
  cases w <;> simp [Bank.get_set, hne]

theorem State.applyMicros_tab_high (s : State) (ws : List MicroWrite) (k : Fin 256) (hk : 251 ≤ k.val) :
    (s.applyMicros ws).tab.get k = s.tab.get k := by
  induction ws generalizing s with
  | nil => rfl
  | cons w ws ih => rw [State.applyMicros_cons, ih, State.applyMicro_tab_high s w k hk]

/-- A micro-write neither reads nor writes the ports or the model's own fields. -/
theorem State.applyMicro_frame (s : State) (w : MicroWrite) (q : Ports) (hp : List MicroWrite) (sc : List Event) (n : Nat) :
    { s with ports := q, hostPend := hp, sched := sc, now := n }.applyMicro w =
      { s.applyMicro w with ports := q, hostPend := hp, sched := sc, now := n } := by
  cases w <;> rfl

theorem State.applyMicros_frame (s : State) (ws : List MicroWrite) (q : Ports) (hp : List MicroWrite) (sc : List Event)
    (n : Nat) :
    { s with ports := q, hostPend := hp, sched := sc, now := n }.applyMicros ws =
      { s.applyMicros ws with ports := q, hostPend := hp, sched := sc, now := n } := by
  induction ws generalizing s with
  | nil => rfl
  | cons w ws ih => simp only [State.applyMicros_cons, State.applyMicro_frame, ih]

/-- Micro-writes reach only the configuration registers, the colours and the table (R50). -/
theorem State.applyMicros_reach (s : State) (ws : List MicroWrite) :
    ∃ m fp fw fh ox oy tp pr tb, s.applyMicros ws =
      { s with mode := m, fbPtr := fp, fbWidth := fw, fbHeight := fh, offX := ox, offY := oy, textPtr := tp
               palRgb := pr, tab := tb } := by
  induction ws generalizing s with
  | nil => exact ⟨_, _, _, _, _, _, _, _, _, rfl⟩
  | cons w ws ih =>
    obtain ⟨m, fp, fw, fh, ox, oy, tp, pr, tb, h⟩ := ih (s.applyMicro w)
    rw [State.applyMicros_cons, h]
    cases w <;> exact ⟨_, _, _, _, _, _, _, _, _, rfl⟩

/-- What micro-writes make of the colours and the table depends on the colours and the table alone. -/
theorem State.applyMicros_palette (s u : State) (ws : List MicroWrite) (h1 : s.palRgb = u.palRgb) (h2 : s.tab = u.tab) :
    (s.applyMicros ws).palRgb = (u.applyMicros ws).palRgb ∧ (s.applyMicros ws).tab = (u.applyMicros ws).tab := by
  induction ws generalizing s u with
  | nil => exact ⟨h1, h2⟩
  | cons w ws ih =>
    rw [State.applyMicros_cons, State.applyMicros_cons]
    apply ih <;> cases w <;> simp [h1, h2]

/-! ## INIT -/

/-- The state the eight steps of `INIT` leave (R260). -/
theorem State.initSequence_eq (s : State) (p : Params) :
    s.initSequence p =
      { s with
        irqEn := true, abort := 0, pos := 800, phase := false, pipeEn := true, pipeCfgOk := true, irqPend := false
        tab := palTable p s.palRgb (ctrlTable p s.tab), src := s.bufIdx, drv := .running } := by
  simp only [State.initSequence, State.disableIrq, State.raiseAborts, State.drain, State.clearAborts, State.disablePipe,
    State.loadPipeConfig, State.buildCtrl, State.rebuildPal, State.rearm, State.ackIrq, State.enableIrq,
    State.startChain]

/-- The slot of a small number written as an index. -/
theorem slotOf_ofNat (k : Fin 256) : slotOf (BitVec.ofNat 8 k.val) = k :=
  Fin.ext (by rw [slotOf_val, BitVec.toNat_ofNat]; exact Nat.mod_eq_of_lt k.isLt)

/-- The control table keeps every slot but 251..254 (R159). -/
theorem ctrlTable_get (p : Params) (t : Bank Entry 256) (k : Fin 256) :
    (ctrlTable p t).get k = if 251 ≤ k.val ∧ k.val < 255 then ctlEntry p (k.val - 251) else t.get k := by
  rw [ctrlTable, Bank.get_tab, slotOf_ofNat]

/-- The palette table keeps every slot from 251 on (R160). -/
theorem palTable_get (p : Params) (c : Bank Rgb 251) (t : Bank Entry 256) (k : Fin 256) :
    (palTable p c t).get k = if h : k.val < 251 then entry p (c.get ⟨k.val, h⟩) else t.get k := by
  rw [palTable, Bank.get_tab, slotOf_ofNat]

/-- Rebuilding both tables twice is rebuilding them once (R267). -/
theorem palTable_ctrlTable_twice (p : Params) (c : Bank Rgb 251) (t : Bank Entry 256) :
    palTable p c (ctrlTable p (palTable p c (ctrlTable p t))) = palTable p c (ctrlTable p t) := by
  apply Bank.ext_get
  intro k
  simp only [palTable_get, ctrlTable_get]
  split
  · rfl
  · split <;> rfl

/-! ## Commands -/

/-- Every command ends in a next state (R177, R272). -/
theorem exec_next (i : Instr) (s : State) : ∃ t, exec i s = .next t := by
  cases i <;> first | exact ⟨_, rfl⟩ | skip
  show ∃ t, execInit s = .next t
  unfold execInit
  split
  · exact ⟨_, rfl⟩
  · split <;> exact ⟨_, rfl⟩

/-- Everything a command can do: INIT by its three cases, any other command its micro-writes. -/
theorem exec_cases {i : Instr} {s t : State} (h : exec i s = .next t) :
    (i = .init ∧ s.drv = .failed ∧ t = s) ∨
    (i = .init ∧ s.drv ≠ .failed ∧ s.ports.resOk = false ∧ t = s.raiseFatalInit) ∨
    (i = .init ∧ s.drv ≠ .failed ∧ s.ports.resOk = true ∧ t = s.initSequence Config.hw) ∨
    (∃ ws, commandWrites i = some ws ∧ t = s.applyMicros ws) := by
  cases i with
  | init =>
    change execInit s = .next t at h
    unfold execInit at h
    split at h
    · exact .inl ⟨rfl, ‹_›, by simpa using h.symm⟩
    · split at h
      · exact .inr (.inl ⟨rfl, ‹_›, ‹_›, by simpa using h.symm⟩)
      · exact .inr (.inr (.inl ⟨rfl, ‹_›, by simpa using ‹¬ s.ports.resOk = false›, by simpa using h.symm⟩))
  | setMode m => exact .inr (.inr (.inr ⟨_, rfl, by simpa [exec, execSetMode] using h.symm⟩))
  | setPalette i c => exact .inr (.inr (.inr ⟨_, rfl, by simpa [exec, execSetPalette] using h.symm⟩))
  | setBackground c => exact .inr (.inr (.inr ⟨_, rfl, by simpa [exec, execSetBackground] using h.symm⟩))
  | setBuffer p w h' => exact .inr (.inr (.inr ⟨_, rfl, by simpa [exec, execSetBuffer] using h.symm⟩))
  | setOffset x y => exact .inr (.inr (.inr ⟨_, rfl, by simpa [exec, execSetOffset] using h.symm⟩))
  | setTextbuffer p => exact .inr (.inr (.inr ⟨_, rfl, by simpa [exec, execSetTextbuffer] using h.symm⟩))

/-! ## The handler and the pipeline -/

/-- A tick of a reused line (R235). -/
theorem State.tick_reuse (s : State) (p : Params) (answers : List (Addr × Byte))
    (h : reuseLine s.mode (nextLine s.line) = true) :
    s.tick p answers =
      { s with ticks := s.ticks + 1, line := nextLine s.line, src := s.bufIdx, irqPend := false } := by
  simp [State.tick, State.sample, State.advanceCounters, State.rearm, State.ackIrq, h]

/-- A tick of a regenerated line (R230, R237). -/
theorem State.tick_regenerate (s : State) (p : Params) (answers : List (Addr × Byte))
    (h : reuseLine s.mode (nextLine s.line) = false) :
    s.tick p answers =
      { (s.setLb (!s.bufIdx) (composeLine p s.sample (nextLine s.line) (memAnswer s.mem answers))) with
        ticks := s.ticks + 1, line := nextLine s.line, bufIdx := !s.bufIdx, src := !s.bufIdx, irqPend := false
        memReads := s.memReads ++ composeReads s.sample (nextLine s.line) } := by
  cases hb : s.bufIdx <;>
    simp [State.tick, State.sample, State.advanceCounters, State.rearm, State.ackIrq, State.regenerate, State.toggleBuf,
      State.setLb, State.logReads, h, hb]

/-- Everything `LINE_START` can do (R241, R323). -/
theorem lineStart_cases (s : State) :
    (s.irqPend = true ∧ lineStart s = .fault .handlerOverrun) ∨ (s.irqPend = false ∧ lineStart s = .next s.beginLine) := by
  unfold lineStart
  cases h : s.irqPend <;> simp

/-- Everything `EMIT` can do (R242). -/
theorem emit_cases (s : State) :
    (s.phase = false ∧ s.lbEntry s.cur s.pos ≠ 255 ∧ emit s = .next s.emitPrimary) ∨
    (s.phase = true ∧ s.idx ≠ 255 ∧ emit s = .next s.emitSecondary) ∨
    (emit s = .fault .unassignedIndex ∧
      ((s.phase = false ∧ s.lbEntry s.cur s.pos = 255) ∨ (s.phase = true ∧ s.idx = 255))) := by
  unfold emit
  cases hp : s.phase
  · by_cases h : s.lbEntry s.cur s.pos = 255
    · exact .inr (.inr ⟨by simp [h], .inl ⟨rfl, h⟩⟩)
    · exact .inl ⟨rfl, h, by rw [if_neg (by simp), if_neg h]⟩
  · by_cases h : s.idx = 255
    · exact .inr (.inr ⟨by simp [h], .inr ⟨rfl, h⟩⟩)
    · exact .inr (.inl ⟨rfl, h, by rw [if_pos rfl, if_neg h]⟩)

/-- An element of a composed line (R237). -/
@[simp] theorem composeLine_get (p : Params) (cfg : Cfg) (L : Nat) (rd : Addr → Byte) (k : Fin 800) :
    (composeLine p cfg L rd).get k = lineEntry p cfg L rd k.val := by simp [composeLine]

/-- `LB[b][k]` for `k` in 0..799. -/
theorem State.lbEntry_eq (s : State) (b : Bool) (k : Fin 800) : s.lbEntry b k.val = (s.lb b).get k := by
  simp [State.lbEntry]

/-! ## Events -/

/-- Everything the taking of a command word can do. -/
theorem takeWord_cases (run : Instr → State → Host.Outcome State Fault Refusal) (s : State) :
    (s.commandReady = false ∧ takeWord run s = .next s) ∨
    (s.commandReady = true ∧ s.ports.rst = true ∧ takeWord run s = .refused .commandDuringReset) ∨
    (s.commandReady = true ∧ s.ports.rst = false ∧ (∃ e, decode s.ports.cmd = .error e) ∧
      takeWord run s = .next s.takeCommand) ∨
    (s.commandReady = true ∧ s.ports.rst = false ∧
      ∃ i, decode s.ports.cmd = .ok i ∧ takeWord run s = run i s.takeCommand) := by
  unfold takeWord
  cases hc : s.commandReady
  · simp
  · cases hr : s.ports.rst
    · cases hd : decode s.ports.cmd <;> simp
    · simp

/-- A command waits exactly when `CMD_VALID` is up and no command is in progress. -/
theorem State.commandReady_iff (s : State) : s.commandReady = true ↔ s.ports.cmdValid = true ∧ s.hostPend = [] := by
  simp [State.commandReady]

/-- Everything the beginning of a split command can do. -/
theorem beginSplit_cases (i : Instr) (s : State) :
    (i = .init ∧ beginSplit i s = exec .init s) ∨
    (∃ ws, commandWrites i = some ws ∧ beginSplit i s = .next (s.setPend ws)) := by
  cases i with
  | init => exact .inl ⟨rfl, rfl⟩
  | _ => exact .inr ⟨_, rfl, rfl⟩

/-- When the handler and the pipeline have a step (R241, R242, R287). -/
theorem State.tickEnabled_iff (s : State) :
    s.tickEnabled = true ↔ s.ports.rst = false ∧ s.drv = .running ∧ s.irqEn = true ∧ s.irqPend = true := by
  simp [State.tickEnabled, and_assoc]

theorem State.lineStartEnabled_iff (s : State) :
    s.lineStartEnabled = true ↔ s.ports.rst = false ∧ s.drv = .running ∧ s.pipeEn = true ∧ s.pos = 800 := by
  simp [State.lineStartEnabled, and_assoc]

theorem State.emitEnabled_iff (s : State) :
    s.emitEnabled = true ↔ s.ports.rst = false ∧ s.drv = .running ∧ s.pipeEn = true ∧ s.pos < 800 := by
  simp [State.emitEnabled, and_assoc]

/-- Everything an event that ends in a next state can do. -/
theorem runEvent_cases {e : Event} {s t : State} (h : runEvent e s = .next t) :
    t = s ∨ (∃ d, e = .drive d ∧ t = s.drivePort d) ∨ (∃ a b, e = .store a b ∧ t = s.storeByte a b) ∨
    ((e = .command ∨ e = .commandSplit) ∧ s.commandReady = true ∧ s.ports.rst = false ∧ t = s.takeCommand) ∨
    (∃ i, (e = .command ∨ e = .commandSplit) ∧ s.commandReady = true ∧ s.ports.rst = false ∧
      decode s.ports.cmd = .ok i ∧ exec i s.takeCommand = .next t) ∨
    (∃ i ws, e = .commandSplit ∧ s.commandReady = true ∧ s.ports.rst = false ∧ decode s.ports.cmd = .ok i ∧
      commandWrites i = some ws ∧ t = s.takeCommand.setPend ws) ∨
    (e = .microWrite ∧ s.ports.rst = false ∧ t = s.nextMicro) ∨
    (∃ answers, e = .tick answers ∧ s.tickEnabled = true ∧ t = s.tick Config.hw answers) ∨
    (e = .lineStart ∧ s.lineStartEnabled = true ∧ s.irqPend = false ∧ t = s.beginLine) ∨
    (e = .emit ∧ s.emitEnabled = true ∧ s.phase = false ∧ s.lbEntry s.cur s.pos ≠ 255 ∧ t = s.emitPrimary) ∨
    (e = .emit ∧ s.emitEnabled = true ∧ s.phase = true ∧ s.idx ≠ 255 ∧ t = s.emitSecondary) := by
  cases e with
  | drive d => exact .inr (.inl ⟨d, rfl, by simpa [runEvent] using h.symm⟩)
  | store a b => exact .inr (.inr (.inl ⟨a, b, rfl, by simpa [runEvent] using h.symm⟩))
  | command =>
    rcases takeWord_cases exec s with ⟨_, he⟩ | ⟨_, _, he⟩ | ⟨hc, hr, _, he⟩ | ⟨hc, hr, i, hd, he⟩ <;>
      simp only [runEvent, he, reduceCtorEq, Host.Outcome.next.injEq] at h
    · exact .inl h.symm
    · exact .inr (.inr (.inr (.inl ⟨.inl rfl, hc, hr, h.symm⟩)))
    · exact .inr (.inr (.inr (.inr (.inl ⟨i, .inl rfl, hc, hr, hd, h⟩))))
  | commandSplit =>
    rcases takeWord_cases beginSplit s with ⟨_, he⟩ | ⟨_, _, he⟩ | ⟨hc, hr, _, he⟩ | ⟨hc, hr, i, hd, he⟩ <;>
      simp only [runEvent, he, reduceCtorEq, Host.Outcome.next.injEq] at h
    · exact .inl h.symm
    · exact .inr (.inr (.inr (.inl ⟨.inr rfl, hc, hr, h.symm⟩)))
    · rcases beginSplit_cases i s.takeCommand with ⟨rfl, hb⟩ | ⟨ws, hw, hb⟩ <;> rw [hb] at h
      · exact .inr (.inr (.inr (.inr (.inl ⟨_, .inr rfl, hc, hr, hd, h⟩))))
      · exact .inr (.inr (.inr (.inr (.inr (.inl ⟨i, ws, rfl, hc, hr, hd, hw, by simpa using h.symm⟩)))))
  | microWrite =>
    simp only [runEvent] at h
    split at h
    · exact .inl (by simpa using h.symm)
    · exact .inr (.inr (.inr (.inr (.inr (.inr (.inl ⟨rfl, by simpa using ‹¬ s.ports.rst = true›, by simpa using h.symm⟩))))))
  | tick answers =>
    simp only [runEvent] at h
    split at h
    · exact .inr (.inr (.inr (.inr (.inr (.inr (.inr (.inl ⟨answers, rfl, ‹_›, by simpa using h.symm⟩)))))))
    · exact .inl (by simpa using h.symm)
  | lineStart =>
    simp only [runEvent] at h
    split at h
    · rcases lineStart_cases s with ⟨_, he⟩ | ⟨hi, he⟩ <;> rw [he] at h
      · cases h
      · exact .inr (.inr (.inr (.inr (.inr (.inr (.inr (.inr (.inl ⟨rfl, ‹_›, hi, by simpa using h.symm⟩))))))))
    · exact .inl (by simpa using h.symm)
  | emit =>
    simp only [runEvent] at h
    split at h
    · rcases emit_cases s with ⟨hp, hi, he⟩ | ⟨hp, hi, he⟩ | ⟨he, _⟩ <;> rw [he] at h
      · exact .inr (.inr (.inr (.inr (.inr (.inr (.inr (.inr (.inr (.inl ⟨rfl, ‹_›, hp, hi, by simpa using h.symm⟩)))))))))
      · exact .inr (.inr (.inr (.inr (.inr (.inr (.inr (.inr (.inr (.inr ⟨rfl, ‹_›, hp, hi, by simpa using h.symm⟩)))))))))
      · cases h
    · exact .inl (by simpa using h.symm)

/-- Everything an event that stops can do. -/
theorem runEvent_fault {e : Event} {s : State} {r : Fault} (h : runEvent e s = .fault r) :
    (e = .lineStart ∧ s.irqPend = true ∧ s.lineStartEnabled = true ∧ r = .handlerOverrun) ∨
    (e = .emit ∧ s.emitEnabled = true ∧ r = .unassignedIndex ∧
      ((s.phase = false ∧ s.lbEntry s.cur s.pos = 255) ∨ (s.phase = true ∧ s.idx = 255))) := by
  cases e with
  | drive d => cases h
  | store a b => cases h
  | command =>
    rcases takeWord_cases exec s with ⟨_, he⟩ | ⟨_, _, he⟩ | ⟨_, _, _, he⟩ | ⟨_, _, i, _, he⟩ <;>
      rw [runEvent, he] at h <;> try cases h
    obtain ⟨t, ht⟩ := exec_next i s.takeCommand
    rw [ht] at h; cases h
  | commandSplit =>
    rcases takeWord_cases beginSplit s with ⟨_, he⟩ | ⟨_, _, he⟩ | ⟨_, _, _, he⟩ | ⟨_, _, i, _, he⟩ <;>
      rw [runEvent, he] at h <;> try cases h
    rcases beginSplit_cases i s.takeCommand with ⟨rfl, hb⟩ | ⟨ws, _, hb⟩ <;> rw [hb] at h
    · obtain ⟨t, ht⟩ := exec_next .init s.takeCommand
      rw [ht] at h; cases h
    · cases h
  | microWrite => simp only [runEvent] at h; split at h <;> cases h
  | tick answers => simp only [runEvent] at h; split at h <;> cases h
  | lineStart =>
    simp only [runEvent] at h
    split at h
    · rcases lineStart_cases s with ⟨hi, he⟩ | ⟨_, he⟩ <;> rw [he] at h <;> cases h
      exact .inl ⟨rfl, hi, ‹_›, rfl⟩
    · cases h
  | emit =>
    simp only [runEvent] at h
    split at h
    · rcases emit_cases s with ⟨_, _, he⟩ | ⟨_, _, he⟩ | ⟨he, hw⟩ <;> rw [he] at h <;> cases h
      exact .inr ⟨rfl, ‹_›, rfl, hw⟩
    · cases h

/-- A step is its event, in the state without it (R75). -/
theorem step_eq (s : State) : step s = runEvent (nextEvent s).1 (nextEvent s).2 := rfl

/-- A run of one step more takes that step first. -/
theorem hostCore_run_succ (M : Host.Core) {s t : M.State} {n : Nat} (h : M.step s = .next t) :
    M.run (n + 1) s = M.run n t := by simp only [Host.Core.run, h]

theorem hostCore_run_fault (M : Host.Core) {s : M.State} {r : M.Fault} {n : Nat} (h : M.step s = .fault r) :
    M.run (n + 1) s = .fault r := by simp only [Host.Core.run, h]

theorem hostCore_run_refused (M : Host.Core) {s : M.State} {r : M.Refusal} {n : Nat} (h : M.step s = .refused r) :
    M.run (n + 1) s = .refused r := by simp only [Host.Core.run, h]

/-- A run of no steps stays where it is. -/
theorem core_run_zero (s : State) : Sys2Proof.core.run 0 s = .next s := rfl

theorem core_run_succ {s t : State} {n : Nat} (h : step s = .next t) :
    Sys2Proof.core.run (n + 1) s = Sys2Proof.core.run n t := hostCore_run_succ Sys2Proof.core h

/-- A run of `m + n` steps is a run of `m` and then a run of `n`. -/
theorem core_run_add {s t : State} {m n : Nat} (h : Sys2Proof.core.run m s = .next t) :
    Sys2Proof.core.run (m + n) s = Sys2Proof.core.run n t := by
  induction m generalizing s with
  | zero =>
    have e : s = t := by injection (core_run_zero s).symm.trans h
    rw [e, Nat.zero_add]
  | succ m ih =>
    cases hs : step s with
    | next u =>
      rw [Nat.add_right_comm, core_run_succ hs]
      exact ih ((core_run_succ hs).symm.trans h)
    | fault r =>
      have h' : Host.Core.run Sys2Proof.core (m + 1) s = .fault r := by
        have hs' : Sys2Proof.core.step s = .fault r := hs
        exact hostCore_run_fault Sys2Proof.core hs'
      rw [h'] at h; cases h
    | refused r =>
      have h' : Host.Core.run Sys2Proof.core (m + 1) s = .refused r := by
        have hs' : Sys2Proof.core.step s = .refused r := hs
        exact hostCore_run_refused Sys2Proof.core hs'
      rw [h'] at h; cases h

/-- The soonest event of the schedule happens next. -/
theorem nextEvent_cons {s : State} {e : Event} {rest : List Event} (h : s.sched = e :: rest) :
    nextEvent s = (e, { s with sched := rest, now := s.now + 1 }) := by simp [nextEvent, h]

/-- Taking an event off the schedule changes only the schedule and the step count. -/
theorem nextEvent_frame (s : State) :
    (nextEvent s).2 = { s with sched := (nextEvent s).2.sched, now := s.now + 1 } := by
  unfold nextEvent
  cases s.sched <;> rfl

/-! ## The reads of a line -/

/-- The first uses are uses, and none was made before. -/
theorem mem_firstUses {memo l : List Addr} {a : Addr} : a ∈ firstUses memo l ↔ a ∈ l ∧ a ∉ memo := by
  induction l generalizing memo with
  | nil => simp [firstUses]
  | cons b l ih =>
    simp only [firstUses]
    split
    · rw [ih]
      constructor
      · rintro ⟨h, hn⟩; exact ⟨List.mem_cons_of_mem _ h, hn⟩
      · rintro ⟨h, hn⟩
        rcases List.mem_cons.mp h with rfl | h
        · exact absurd ‹a ∈ memo› hn
        · exact ⟨h, hn⟩
    · rename_i hb
      rw [List.mem_cons, ih]
      constructor
      · rintro (rfl | ⟨h, hn⟩)
        · exact ⟨List.mem_cons_self, hb⟩
        · exact ⟨List.mem_cons_of_mem _ h, fun hm => hn (List.mem_cons_of_mem _ hm)⟩
      · rintro ⟨h, hn⟩
        by_cases hab : a = b
        · exact .inl hab
        · refine .inr ⟨?_, ?_⟩
          · rcases List.mem_cons.mp h with rfl | h
            · exact absurd rfl hab
            · exact h
          · intro hm
            rcases List.mem_cons.mp hm with rfl | hm
            · exact hab rfl
            · exact hn hm

/-- The bytes of a line's active entries are among its reads (R72). -/
theorem mem_lineReads {cfg : Cfg} {L : Nat} {a : Addr} :
    a ∈ lineReads cfg L ↔ ∃ X < 640, a ∈ entryAddrs cfg L X := by
  simp [lineReads, mem_firstUses]

end Sys2Proof.Machine
end

