-- ==== Sys2Proof/Laws/PerInstr.lean ====
section
/-! SUPPORT. Statements about every command as syntax, one lemma per constructor of Instr. -/

namespace Sys2Proof.Laws

/-- The encoding of a command has its opcode in bits 63:56 and writes every reserved bit as 0 (R118, R119). -/
def EncodedFields.Statement (i : Instr) : Prop :=
  (encode i).extractLsb' 56 8 = opcodeOf i ∧ encode i &&& ~~~ fieldMask i = 0

theorem EncodedFields.init : EncodedFields.Statement .init := ⟨by decide, by decide⟩

theorem EncodedFields.setMode (mode : BitVec 8) : EncodedFields.Statement (.setMode mode) := by
  constructor <;> apply BitVec.eq_of_getLsbD_eq <;> intro i hi <;>
    simp only [encode, fieldMask, opcodeOf, BitVec.getLsbD_extractLsb', BitVec.getLsbD_and, BitVec.getLsbD_not,
      BitVec.getLsbD_append] <;>
    interval_cases i <;> simp

theorem EncodedFields.setPalette (index : Index) (rgb : Rgb) : EncodedFields.Statement (.setPalette index rgb) := by
  constructor <;> apply BitVec.eq_of_getLsbD_eq <;> intro i hi <;>
    simp only [encode, fieldMask, opcodeOf, BitVec.getLsbD_extractLsb', BitVec.getLsbD_and, BitVec.getLsbD_not,
      BitVec.getLsbD_append] <;>
    interval_cases i <;> simp

theorem EncodedFields.setBackground (rgb : Rgb) : EncodedFields.Statement (.setBackground rgb) := by
  constructor <;> apply BitVec.eq_of_getLsbD_eq <;> intro i hi <;>
    simp only [encode, fieldMask, opcodeOf, BitVec.getLsbD_extractLsb', BitVec.getLsbD_and, BitVec.getLsbD_not,
      BitVec.getLsbD_append] <;>
    interval_cases i <;> simp

theorem EncodedFields.setBuffer (ptr : Addr) (width height : BitVec 12) :
    EncodedFields.Statement (.setBuffer ptr width height) := by
  constructor <;> apply BitVec.eq_of_getLsbD_eq <;> intro i hi <;>
    simp only [encode, fieldMask, opcodeOf, BitVec.getLsbD_extractLsb', BitVec.getLsbD_and, BitVec.getLsbD_not,
      BitVec.getLsbD_append] <;>
    interval_cases i <;> simp

theorem EncodedFields.setOffset (x y : BitVec 12) : EncodedFields.Statement (.setOffset x y) := by
  constructor <;> apply BitVec.eq_of_getLsbD_eq <;> intro i hi <;>
    simp only [encode, fieldMask, opcodeOf, BitVec.getLsbD_extractLsb', BitVec.getLsbD_and, BitVec.getLsbD_not,
      BitVec.getLsbD_append] <;>
    interval_cases i <;> simp

theorem EncodedFields.setTextbuffer (ptr : Addr) : EncodedFields.Statement (.setTextbuffer ptr) := by
  constructor <;> apply BitVec.eq_of_getLsbD_eq <;> intro i hi <;>
    simp only [encode, fieldMask, opcodeOf, BitVec.getLsbD_extractLsb', BitVec.getLsbD_and, BitVec.getLsbD_not,
      BitVec.getLsbD_append] <;>
    interval_cases i <;> simp

end Sys2Proof.Laws
end

