-- ==== Sys2Proof/Tests/Slice0.lean ====
section
/-! SUPPORT. Tests with expected values taken from spec/95_test_vectors.md and from the rules named, and for each
statement with hypotheses a witness that meets them. -/

namespace Sys2Proof.Tests

open Sys2Proof.Machine

/-! ## Well-formedness: a good call and an ill-formed one for each check (R119, R125; log 24) -/

theorem test_wellFormed_mode : (Call.setMode (.number 255)).wellFormed = true ∧
    (Call.setMode (.number 256)).wellFormed = false ∧ (Call.setMode (.name .lin8At320x200)).wellFormed = true := by
  decide

theorem test_wellFormed_palette : (Call.setPalette 255 0xFFFFFF).wellFormed = true ∧
    (Call.setPalette 256 0).wellFormed = false ∧ (Call.setPalette 0 0x1000000).wellFormed = false := by decide

theorem test_wellFormed_background : (Call.setBackground 0xFFFFFF).wellFormed = true ∧
    (Call.setBackground 0x1000000).wellFormed = false := by decide

theorem test_wellFormed_buffer : (Call.setBuffer 0xFFFFFFFF 4095 4095).wellFormed = true ∧
    (Call.setBuffer 0x100000000 0 0).wellFormed = false ∧ (Call.setBuffer 0 4096 0).wellFormed = false ∧
    (Call.setBuffer 0 0 4096).wellFormed = false := by decide

theorem test_wellFormed_offset : (Call.setOffset 4095 4095).wellFormed = true ∧
    (Call.setOffset 4096 0).wellFormed = false ∧ (Call.setOffset 0 4096).wellFormed = false := by decide

theorem test_wellFormed_textbuffer : (Call.setTextbuffer 0xFFFFFFFF).wellFormed = true ∧
    (Call.setTextbuffer 0x100000000).wellFormed = false := by decide

theorem test_illFormed_call_has_no_command : (Call.setPalette 256 0).assemble = none ∧
    (Call.setPalette 15 0xFFFFFF).assemble = some (.setPalette 15 0xFFFFFF) := by decide

theorem test_every_command_is_wellFormed : Instr.init.wellFormed = true ∧ (Instr.setMode 8).wellFormed = true ∧
    (Instr.setPalette 251 0).wellFormed = true := by decide

/-! ## Decoding: words written out field by field from R119 (V4.1, V4.2, V4.5) -/

theorem test_decode_init : decode (0x01#8 ++ 0#56) = .ok .init := by rfl

theorem test_decode_setMode : decode (0x02#8 ++ 0#48 ++ 0x06#8) = .ok (.setMode 6) ∧
    decode 0x02FFFFFFFFFFFF07 = .ok (.setMode 7) := by exact ⟨rfl, rfl⟩

theorem test_decode_setPalette : decode 0x030000000FFFFFFF = .ok (.setPalette 15 0xFFFFFF) ∧
    decode 0x0300000001FF0000 = .ok (.setPalette 1 0xFF0000) := by exact ⟨rfl, rfl⟩

theorem test_decode_setBackground : decode 0x04000000000000AA = .ok (.setBackground 0x0000AA) := by rfl

theorem test_decode_setBuffer : decode 0x05200100001400C8 = .ok (.setBuffer 0x20010000 320 200) ∧
    decode 0x0520020000004002 = .ok (.setBuffer 0x20020000 4 2) := by exact ⟨rfl, rfl⟩

theorem test_decode_setOffset : decode 0x0600000000008014 = .ok (.setOffset 8 20) ∧
    decode 0x0600000000002001 = .ok (.setOffset 2 1) := by exact ⟨rfl, rfl⟩

theorem test_decode_setTextbuffer : decode 0x0700000020008000 = .ok (.setTextbuffer 0x20008000) := by rfl

theorem test_decode_reserved : decode 0 = .error (.reservedOpcode 0) ∧
    decode 0x0800000000000000 = .error (.reservedOpcode 8) ∧
    decode 0xFF00000000000000 = .error (.reservedOpcode 0xFF) := by exact ⟨rfl, rfl, rfl⟩

theorem test_encode_setBuffer : encode (.setBuffer 0x20010000 320 200) = 0x05200100001400C8 := by decide

theorem test_decodeTableWord : decodeTableWord 64 0x0300000001FF0000 = some (.setPalette 1 0xFF0000) ∧
    decodeTableWord 64 0x0800000000000000 = none := by decide

/-! ## The encoder (V1, V2, V3) -/

theorem test_enc_worked_inputs : enc 0x00 = 0x100 ∧ enc 0x01 = 0x1FF ∧ enc 0xFF = 0x200 ∧ enc 0x1E = 0x25F ∧
    enc 0x0F = 0x105 ∧ enc 0x1F = 0x2A0 ∧ enc 0x80 = 0x180 ∧ enc 0xAA = 0x233 ∧ enc 0x55 = 0x133 := by decide

theorem test_ser_places_each_channel : ser Config.hw 0x000 0x000 0x001 = 0x2AAAAAAA2AAAAAA9 ∧
    ser Config.hw 0x000 0x001 0x000 = 0x2AAAAAAA2AAAAAA6 ∧ ser Config.hw 0x001 0x000 0x000 = 0x2AAAAAAA2AAAAA9A ∧
    ser Config.hw 0x000 0x000 0x020 = 0x2AAAAAA92AAAAAAA ∧ ser Config.hw 0x155 0x2AA 0x3FF = 0x2566566519959959 := by
  decide

theorem test_ser_parameters : ser { Config.hw with chOrder := .bgr } 1 0 0 = 0x2AAAAAAA2AAAAAA9 ∧
    ser { Config.hw with pairInvert := true } 1 0 0 = 0x1555555515555565 := by decide

theorem test_units_wire_order : units 0x295A69652A595669 =
    [0x29, 0x19, 0x15, 0x16, 0x2A, 0x25, 0x25, 0x26, 0x16, 0x29] := by decide

theorem test_entry : entry Config.hw 0x123456 = ⟨0x295A69652A595669, 0x16A5969A15A6A996⟩ ∧
    entry Config.hw 0xAA5500 = ⟨0x1A96AA9616AAA596, 0x2569556929555A69⟩ := by decide

theorem test_control_entries : ctlEntry Config.hw 0 = ⟨0x1656A56A15A95AAA, 0x1656A56A15A95AAA⟩ ∧
    ctlEntry Config.hw 3 = ⟨0x165A95A916A56A69, 0x165A95A916A56A69⟩ := by decide

/-! ## The decoder (V7), with the test font of 95_test_vectors.md -/

/-- `FONT_T[ch][gl] = (ch + gl) mod 256`. -/
def fontT : Params := { Config.hw with font := fun ch gl => ch + gl.setWidth 8 }

/-- A configuration to vary. -/
def cfg0 : Cfg where
  mode := .text80Color
  fbPtr := 0x20010000
  w := 320
  h := 200
  ox := 0
  oy := 0
  textPtr := 0x20008000
  blinkEn := false
  blinkPhase := false
  curRow := 0
  curCol := 0

/-- A memory whose character cells are `ch`, `at_` (even and odd addresses). -/
def cells (ch at_ : Byte) (a : Addr) : Byte := if a.getLsbD 0 then at_ else ch

/-- The eight entries of the first cell of a line. -/
def cell8 (cfg : Cfg) (L : Nat) (at_ : Byte) : List Nat :=
  (List.range 8).map fun X => (decodePixel fontT cfg L (cells 0x41 at_) X).toNat

theorem test_text_glyph : cell8 cfg0 0 0x0F = [0, 15, 0, 0, 0, 0, 0, 15] ∧
    cell8 cfg0 1 0x0F = [0, 15, 0, 0, 0, 0, 15, 0] ∧ cell8 cfg0 0 0x9E = [9, 14, 9, 9, 9, 9, 9, 14] := by decide

theorem test_text_blink : cell8 { cfg0 with blinkEn := true, curRow := 1 } 0 0x9E = [1, 14, 1, 1, 1, 1, 1, 14] ∧
    cell8 { cfg0 with blinkEn := true, blinkPhase := true } 14 0x9E = [1, 1, 1, 1, 1, 1, 1, 1] := by decide

theorem test_text_cursor : cell8 { cfg0 with blinkPhase := true } 14 0x1E = [14, 14, 14, 14, 14, 14, 14, 14] ∧
    cell8 { cfg0 with blinkPhase := true } 13 0x1E = [1, 14, 1, 1, 14, 14, 14, 1] ∧
    cell8 cfg0 15 0x1E = [1, 14, 1, 14, 1, 1, 1, 1] := by decide

theorem test_text_cell_address : cellAddr cfg0 2 79 = 0x200081DE := by decide

theorem test_packed : (List.range 4).map (packedPixel 2 cfg0 (fun _ => 0x1B) 0) = [0, 1, 2, 3] ∧
    (List.range 2).map (packedPixel 4 cfg0 (fun _ => 0x4E) 0) = [4, 14] ∧
    (List.range 8).map (packedPixel 1 cfg0 (fun _ => 0xA5) 0) = [1, 0, 1, 0, 0, 1, 0, 1] ∧
    packedAddr 2 cfg0 2 5 = 0x20010000 + 161 := by decide

theorem test_horizontal_scale :
    (List.range 8).map (decodePixel fontT { cfg0 with mode := .pk4At160x200, w := 160 } 0 fun _ => 0x4E) =
      [4, 4, 4, 4, 14, 14, 14, 14] ∧
    (List.range 4).map (decodePixel fontT { cfg0 with mode := .pk4At320x200 } 0 fun _ => 0x4E) = [4, 4, 14, 14] := by
  decide

theorem test_planar :
    (List.range 8).map (planarPixel { cfg0 with fbPtr := 0 } (fun a =>
      if a = 0 then 0xFF else if a = 1 then 0x0F else if a = 2 then 0x33 else 0x55) 0) = [1, 9, 5, 13, 3, 11, 7, 15] := by
  decide

theorem test_linear_clamp : [0x00, 0x7F, 0xFA, 0xFB, 0xFF].map (fun b => linearPixel cfg0 (fun _ => b) 0 0) =
    [0, 127, 250, 0, 0] := by decide

/-! ## States -/

/-- The running machine `INIT` leaves after reset (V6.1), at position `pos`, the interrupt pending or not. -/
def running (pos : Nat) (pend : Bool) : State :=
  { State.reset with drv := .running, irqEn := true, irqPend := pend, pipeEn := true, pipeCfgOk := true, pos := pos }

/-- A state whose next event is the taking of the command word `w` from `CMD`. -/
def presenting (w : Word64) (s : State) : State :=
  { s with sched := [.command], ports := { s.ports with cmd := w, cmdValid := true } }

/-- What a step leaves, read through `f`; `none` where it stops. -/
def after {α : Type} (o : Host.Outcome State Fault Refusal) (f : State → α) : Option α :=
  match o with
  | .next t => some (f t)
  | .fault _ => none
  | .refused _ => none

theorem next_of_after {o : Host.Outcome State Fault Refusal} (h : after o (fun _ => ()) = some ()) : ∃ t, o = .next t := by
  cases o with
  | next t => exact ⟨t, rfl⟩
  | fault r => cases h
  | refused r => cases h

theorem running_inv (pos : Nat) (pend : Bool) (h : pos ≤ 800) : (running pos pend).Inv where
  memWf := by rfl
  lineLe := Nat.zero_le 524
  posLe := h
  abortClear := rfl
  lbLe := by intro b k; cases b <;> simp [State.lb, running, State.reset]
  idxLe := (by decide : (252 : Index).toNat ≤ 254)
  posOfPhase := by intro h; cases h
  idxOfPhase := by intro h; cases h
  palette := by intro i; simp [running, State.reset, resetTab]
  control := by intro _ k; simp [running, State.reset, resetTab]; omega
  enabled := fun _ => ⟨rfl, rfl, rfl⟩
  idle := by intro h; cases h
  srcIsBuf := rfl
  curIsBuf := fun _ => rfl

/-- The invariant does not speak of the schedule. -/
theorem inv_sched {s : State} (h : s.Inv) (es : List Event) (hp : s.hostPend = []) : State.Inv { s with sched := es } :=
  { h with palette := by simpa [hp] using h.palette }

/-! ## Commands (V3, V4, V6), at most two tests each -/

theorem test_init_starts : after (exec .init State.reset) (fun t => (t.drv, t.irqEn, t.pipeEn, t.pos)) =
    some (.running, true, true, 800) := by decide

theorem test_init_without_resources :
    after (exec .init { State.reset with ports := { State.reset.ports with resOk := false } })
      (fun t => (t.drv, t.irqEn)) = some (.failed, false) := by decide

theorem test_setMode : after (exec (.setMode 7) State.reset) (fun t => t.mode) = some .lin8At320x200 ∧
    after (exec (.setMode 8) State.reset) (fun t => t.mode) = some .text80Color := by decide

theorem test_setPalette :
    after (exec (.setPalette 15 0xFFFFFF) State.reset) (fun t => (t.palRgb.get 15, t.tabEntry 15, t.palRgb.get 16)) =
      some (0xFFFFFF, ⟨0x15AAAAAA2AAAAAAA, 0x2A55555515555555⟩, 0) := by decide

theorem test_setPalette_reserved : exec (.setPalette 251 0xFFFFFF) State.reset = .next State.reset := by
  simp [exec, execSetPalette, setPaletteWrites, palIndex?]

theorem test_setBackground :
    after (exec (.setBackground 0x0000AA) State.reset) (fun t => t.tabEntry 250) =
      some ⟨0x295AAAA929AAAA69, 0x16A5555616555596⟩ := by decide

theorem test_setBuffer : after (exec (.setBuffer 0x20010000 320 200) State.reset)
    (fun t => (t.fbPtr, t.fbWidth, t.fbHeight)) = some (0x20010000, 320, 200) := by decide

theorem test_setOffset : after (exec (.setOffset 8 20) State.reset) (fun t => (t.offX, t.offY)) = some (8, 20) := by
  decide

theorem test_setTextbuffer : after (exec (.setTextbuffer 0x20008000) State.reset) (fun t => t.textPtr) =
    some 0x20008000 := by decide

/-! ## Steps -/

theorem test_first_step_runs_the_word :
    after (step (State.reset.withFetchWord 64 0x0600000000008014)) (fun t => (t.offX, t.offY, t.ports.cmdValid)) =
      some (8, 20, false) := by decide

theorem test_reserved_word_is_taken : after (step (presenting 0x0800000000000000 State.reset))
    (fun t => (t.mode, t.ports.cmdValid, t.sched)) = some (.text80Color, false, []) := by decide

theorem test_lineStart : after (runEvent .lineStart { running 800 false with src := true })
    (fun t => (t.cur, t.pos, t.phase, t.irqPend)) = some (true, 0, false, true) := by decide

/-- The index composed for entry `k` of a line. -/
def composed (cfg : Cfg) (L k : Nat) : Nat := (lineEntry fontT cfg L (fun _ => 0) k).toNat

theorem test_visible_line_layout : [0, 95, 96, 143, 784, 799].map (composed cfg0 0) = [251, 251, 252, 252, 252, 252] ∧
    [144, 783].map (composed { cfg0 with mode := .lin8At320x200 } 479) = [250, 250] := by decide

theorem test_vsync_lines : [489, 490, 491, 492].map (fun L => composed cfg0 L 0) = [251, 253, 253, 251] ∧
    [489, 490, 491, 492].map (fun L => composed cfg0 L 400) = [252, 254, 254, 252] := by decide

theorem test_tick_reuses_odd_lines :
    after (runEvent (.tick []) { running 0 true with mode := .pl4At320x200, ticks := 0xFFFFFFFF })
      (fun t => (t.line, t.bufIdx, t.src, t.ticks, t.irqPend)) = some (1, false, false, 0, false) := by decide

theorem test_tick_wraps :
    after (runEvent (.tick []) { running 0 true with mode := .pl4At320x200, line := 524 })
      (fun t => (t.line, t.bufIdx, t.src)) = some (0, true, true) := by decide

/-- A state in the middle of a line, at an entry of index 15 (V5.10). -/
def midLine (phase : Bool) : State :=
  { running 144 false with
    tab := State.reset.tab.set 15 (entry Config.hw 0xFFFFFF), lb0 := .tab 800 fun _ => 15, idx := 15, phase := phase }

theorem test_emit_primary : after (runEvent .emit (midLine false)) (fun t => (t.out64, t.idx, t.phase, t.pos)) =
    some ([0x15AAAAAA2AAAAAAA], 15, true, 144) := by decide +kernel

theorem test_emit_secondary : after (runEvent .emit (midLine true)) (fun t => (t.out64, t.phase, t.pos)) =
    some ([0x2A55555515555555], false, 145) := by decide

theorem test_memory : let m := Memory.write (Memory.write [] 5 7) 4 9
    m = [(4, 9), (5, 7)] ∧ m.read 5 = 7 ∧ m.read 6 = 0 ∧ Memory.write m 4 0 = [(5, 7)] := by decide

/-! ## Witnesses: states and operands that meet the hypotheses of the statements -/

theorem witness_DecodeAndEncodeAgree : (Instr.setBuffer 0xFFFFFFFF 4095 4095).wellFormed = true := rfl

theorem witness_OpcodeAloneSelectsTheCommand : decode 0x01FFFFFFFFFFFFFF = .ok .init ∧
    decode 0x0700000020008000 = .ok (.setTextbuffer 0x20008000) ∧
    decode 0x0800000000000000 = .error (.reservedOpcode 8) ∧ decode 0 = .error (.reservedOpcode 0) :=
  ⟨rfl, rfl, rfl, rfl⟩

theorem witness_CallsAssembleToTheirCommands :
    (Call.setMode (.number 255)).assemble = some (.setMode 255) ∧
    (Call.setPalette 255 0xFFFFFF).assemble = some (.setPalette 255 0xFFFFFF) ∧
    (Call.setBackground 0xFFFFFF).assemble = some (.setBackground 0xFFFFFF) ∧
    (Call.setBuffer 0xFFFFFFFF 4095 4095).assemble = some (.setBuffer 0xFFFFFFFF 4095 4095) ∧
    (Call.setOffset 4095 0).assemble = some (.setOffset 4095 0) ∧
    (Call.setTextbuffer 0xFFFFFFFF).assemble = some (.setTextbuffer 0xFFFFFFFF) := by decide

theorem witness_EncodeChannelFollowsTheChain : 6 < 7 ∧ 0 < 7 := by decide

theorem witness_WireSendsLowCodeBitFirst : 9 < 10 := by decide

theorem witness_PlanarPixelGathersThePlanes : 7 < 8 ∧ 3 < 8 := by decide

theorem witness_SerialisedBitPlacement : (9 < 10 ∧ 1 < 2) ∧ (29 < 30 ∨ (32 ≤ 29 ∧ 29 < 62)) ∧
    (61 < 30 ∨ (32 ≤ 61 ∧ 61 < 62)) ∧ (32 < 30 ∨ (32 ≤ 32 ∧ 32 < 62)) := by decide

theorem witness_StructuralBitsAreZero : 63 < 64 := by decide

theorem witness_PairBitsAreComplements : 9 < 10 ∧ 2 < 3 := by decide

theorem witness_SerialiserAlgebra : ser Config.hw 0x155 0x2AA 0x3FF = ser Config.hw 0x155 0x2AA 0x3FF := rfl

theorem witness_EncodedCodesFacts : enc 0x1E = enc 0x1E := rfl

theorem witness_SetModeSelectsTheMode : 8 ≤ (8 : BitVec 8).toNat ∧ (7 : BitVec 8).toNat < 8 ∧ (0 : BitVec 8).toNat < 8 := by decide

theorem witness_ReservedModeIsNoOp : 8 ≤ (8 : BitVec 8).toNat ∧ 8 ≤ (255 : BitVec 8).toNat := by decide

theorem witness_InitStartsTheMachine : (State.reset.drv ≠ .failed ∧ State.reset.ports.resOk = true) ∧
    ((running 300 false).drv ≠ .failed ∧ (running 300 false).ports.resOk = true) := by decide

/-- Reset with `RES_OK` low. -/
def noResources : State := { State.reset with ports := { State.reset.ports with resOk := false } }


/-- A failed machine whose next event is an `EMIT`. -/
def failed : State := { noResources with drv := .failed, sched := [.emit] }

theorem witness_InitWithoutResourcesFails : (noResources.drv ≠ .failed ∧ noResources.ports.resOk = false) ∧
    failed.drv = .failed ∧ Instr.setTextbuffer 0 ≠ .init ∧ ∃ t, exec (.setTextbuffer 0) failed = .next t :=
  ⟨by decide, rfl, by decide, exec_next _ _⟩

theorem witness_OnlyResetLeavesFailed : failed.drv = .failed ∧ (nextEvent failed).1 ≠ .drive (.rst true) ∧
    ∃ t, step failed = .next t := ⟨rfl, by decide, _, rfl⟩

theorem witness_InitIsIdempotent : (∃ t, exec .init State.reset = .next t) ∧ (running 300 true).Inv ∧
    (running 300 true).drv = .running ∧ (running 300 true).hostPend = [] ∧ (running 300 true).ports.resOk = true :=
  ⟨exec_next _ _, running_inv _ _ (by decide), rfl, rfl, rfl⟩

theorem witness_CommandsLeaveHandlerStateAlone : (∃ t, exec .init (running 300 true) = .next t) ∧
    ∃ t, exec (.setPalette 250 0xFFFFFF) (running 300 true) = .next t := ⟨exec_next _ _, exec_next _ _⟩

theorem witness_StepRunsTheDecodedCommand :
    let s := presenting 0x0200000000000007 State.reset
    s.sched = .command :: [] ∧ s.hostPend = [] ∧ s.ports.cmdValid = true ∧ s.ports.rst = false ∧
      decode s.ports.cmd = .ok (.setMode 7) := ⟨rfl, rfl, rfl, rfl, rfl⟩

theorem witness_ReservedOpcodeChangesNothing :
    let s := presenting 0x0800000000000000 State.reset
    s.sched = .command :: [] ∧ s.hostPend = [] ∧ s.ports.cmdValid = true ∧ s.ports.rst = false ∧
      decode s.ports.cmd = .error (.reservedOpcode 8) := ⟨rfl, rfl, rfl, rfl, rfl⟩

/-- A command waiting while `RST` is asserted. -/
def inReset : State :=
  { State.reset with ports := { State.reset.ports with rst := true, cmdValid := true, cmd := 0x0100000000000000 } }

theorem witness_NothingRunsDuringReset : inReset.ports.rst = true ∧ inReset.hostPend = [] ∧
    inReset.ports.cmdValid = true := ⟨rfl, rfl, rfl⟩

theorem witness_SplitCommandEqualsWholeCommand :
    let s := presenting 0x03000000FA0000AA State.reset
    s.hostPend = [] ∧ s.ports.cmdValid = true ∧ s.ports.rst = false ∧
      decode s.ports.cmd = .ok (.setPalette 250 0x0000AA) ∧
      commandWrites (.setPalette 250 0x0000AA) = some (setPaletteWrites 250 0x0000AA) := ⟨rfl, rfl, rfl, rfl, rfl⟩

theorem witness_ReusedLineTouchesNoBuffer :
    let s := { running 0 true with mode := .pl4At320x200 }
    s.tickEnabled = true ∧ (modeInfo s.mode).doubleScanned = true ∧
      (if s.line = 524 then 0 else s.line + 1) % 2 = 1 ∧ (if 522 = 524 then 0 else 522 + 1) % 2 = 1 := by decide

theorem witness_RegeneratedLineFillsTheIdleBuffer : (running 0 true).tickEnabled = true ∧
    (modeInfo (running 0 true).mode).doubleScanned = false ∧
    ({ running 0 true with mode := .pl4At320x200, line := 524 } : State).tickEnabled = true ∧
    (if 524 = 524 then 0 else 524 + 1) % 2 = 0 ∧ (if 489 = 524 then 0 else 489 + 1) % 2 = 0 := by decide

theorem witness_OddLinesShareTheirPairsBlanking : 1 % 2 = 1 ∧ 479 % 2 = 1 ∧ 481 % 2 = 1 ∧ 491 % 2 = 1 ∧ 523 % 2 = 1 := by
  decide

theorem witness_OnlyRunningMachineMoves : State.reset.drv ≠ .running ∧ failed.drv ≠ .running := by decide

theorem witness_LineStartLatchesTheSource : (running 800 false).lineStartEnabled = true ∧
    (running 800 false).irqPend = false := by decide

theorem witness_OverrunIsAFault : (running 800 true).lineStartEnabled = true ∧ (running 800 true).irqPend = true := by
  decide

/-- A state no run reaches, with a line buffer of unassigned indices. -/
def unassigned : State := { running 0 false with lb0 := .tab 800 fun _ => 255, idx := 255 }

theorem witness_EmitSendsPrimaryThenSecondary :
    ((midLine false).emitEnabled = true ∧ (midLine false).phase = false ∧
      (midLine false).lbEntry (midLine false).cur (midLine false).pos ≠ 255) ∧
    ((midLine true).emitEnabled = true ∧ (midLine true).phase = true ∧ (midLine true).idx ≠ 255) ∧
    (unassigned.emitEnabled = true ∧ unassigned.phase = false ∧ unassigned.lbEntry unassigned.cur unassigned.pos = 255) ∧
    (({ unassigned with phase := true, pos := 799 } : State).emitEnabled = true ∧ unassigned.idx = 255) := by decide +kernel

theorem witness_EmittedWordReachesThePins : (midLine false).emitEnabled = true ∧
    ∃ t, runEvent .emit (midLine false) = .next t := ⟨by decide, next_of_after (by decide +kernel)⟩

/-- A line begun, with the 1600 `EMIT`s of the line scheduled. -/
def lineBegun : State := { running 0 false with sched := List.replicate 1600 .emit ++ [.lineStart] }

/-- The running machine at an entry of index 250, with the two words of a command to palette entry 250 still to write. -/
def tearing : State :=
  { running 0 false with
    lb0 := .tab 800 fun _ => 250
    hostPend := [.tabW0 250 (entry Config.hw 0xAA).w0, .tabW1 250 (entry Config.hw 0xAA).w1] }

theorem witness_PaletteEntryCanBeSentTorn :
    let s := tearing
    s.emitEnabled = true ∧ s.phase = false ∧ s.lbEntry s.cur s.pos = indexOfPal 250 ∧
      s.hostPend = [.tabW0 250 (entry Config.hw 0xAA).w0, .tabW1 250 (entry Config.hw 0xAA).w1] :=
  ⟨by decide, rfl, by decide +kernel, rfl⟩

theorem witness_EachModeClassIgnoresTheOthersRegisters : (modeInfo cfg0.mode).cls = .text ∧
    (modeInfo DisplayMode.lin8At320x200).cls ≠ .text ∧ (modeInfo DisplayMode.pk1At320x200).cls ≠ .text := by decide

theorem witness_LineStreamsSixteenHundredWords :
    let s := lineBegun
    s.drv = .running ∧ s.pipeEn = true ∧ s.ports.rst = false ∧ s.pos = 0 ∧ s.phase = false ∧
      (∀ k : Fin 800, (s.lb s.cur).get k ≠ 255) ∧ s.sched = List.replicate 1600 .emit ++ [.lineStart] := by
  refine ⟨rfl, rfl, rfl, rfl, rfl, fun k => ?_, by rw [lineBegun]⟩
  have h : (lineBegun.lb lineBegun.cur).get k = 252 := Bank.get_tab _ k
  rw [h]; decide

/-- A line period scheduled, its `TICK` after `m` of the `EMIT`s and with a read answered by a byte memory does not hold. -/
def periodBegun (m : Nat) : State :=
  { running 800 false with
    sched := .lineStart ::
      (List.replicate m .emit ++ .tick [(0x20008000, 0x41)] :: (List.replicate (1600 - m) .emit ++ [])) }

theorem witness_LinePeriodStreamsTheLatchedBuffer : ∀ m ∈ [0, 1, 1600],
    let s := periodBegun m
    s.Inv ∧ s.drv = .running ∧ s.ports.rst = false ∧ s.pos = 800 ∧ s.irqPend = false ∧ m ≤ 1600 ∧
      s.sched = .lineStart ::
        (List.replicate m .emit ++ .tick [(0x20008000, 0x41)] :: (List.replicate (1600 - m) .emit ++ [])) :=
  fun m hm => ⟨inv_sched (running_inv _ _ (by decide)) _ rfl, rfl, rfl, rfl, rfl,
    (by decide : ∀ m ∈ [0, 1, 1600], m ≤ 1600) m hm, by rw [periodBegun]⟩

theorem witness_TextLineShowsItsCells : (modeInfo cfg0.mode).cls = .text ∧ 400 ≤ 400 ∧ 399 < 400 ∧ 79 < 80 ∧ 7 < 8 ∧
    cell8 cfg0 399 0x0F = [0, 15, 0, 15, 0, 0, 0, 0] := by decide

theorem witness_LinearPixelClampsReservedIndices : (250 : Byte).toNat ≤ 250 ∧ 251 ≤ (251 : Byte).toNat := by decide

/-- Entry `X` of line `L` is covered by the image of `cfg`. -/
def isCovered (cfg : Cfg) (L X : Nat) : Prop :=
  cfg.oy.toNat ≤ L / (modeInfo cfg.mode).vscale ∧ L / (modeInfo cfg.mode).vscale < cfg.oy.toNat + cfg.h.toNat ∧
    cfg.ox.toNat ≤ X / (modeInfo cfg.mode).hscale ∧ X / (modeInfo cfg.mode).hscale < cfg.ox.toNat + cfg.w.toNat

theorem witness_GraphicsModesPlaceAndClipTheImage :
    let c (m : DisplayMode) : Cfg := { cfg0 with mode := m }
    ((modeInfo DisplayMode.lin8At320x200).cls = .linear8 ∧ isCovered (c .lin8At320x200) 399 639 ∧
      ¬ isCovered (c .lin8At320x200) 400 639 ∧ ¬ isCovered (c .lin8At320x200) 399 640) ∧
    ((modeInfo DisplayMode.pl4At320x200).cls = .planar ∧ isCovered (c .pl4At320x200) 0 0) ∧
    ((modeInfo DisplayMode.pk1At320x200).cls = .packed 1 ∧ isCovered (c .pk1At320x200) 399 0) := by
  simp [isCovered, modeInfo, cfg0]

theorem witness_PackedPixelIsItsField : (1 = 1 ∨ 1 = 2 ∨ 1 = 4) ∧ (4 = 1 ∨ 4 = 2 ∨ 4 = 4) := by decide

/-- A one-pixel image, and two memories that differ outside it. -/
def onePixel : Cfg := { cfg0 with mode := .lin8At320x200, w := 1, h := 1 }

theorem witness_DecoderDependsOnlyOnItsReads :
    (∀ a ∈ lineReads onePixel 0, (fun _ => 7 : Addr → Byte) a = (fun a => if a = 0x20010000 then 7 else 9 : Addr → Byte) a) ∧
    lineReads onePixel 0 = [0x20010000] := by
  have h : lineReads onePixel 0 = [0x20010000] := by decide +kernel
  exact ⟨by rw [h]; simp, h⟩

theorem witness_EachByteIsReadOnceInOrder : (modeInfo cfg0.mode).cls = .text := rfl

theorem witness_LinearLineReadsItsVisibleColumns : onePixel.mode = .lin8At320x200 := rfl

/-- The reads of a small image cut by the right edge of the screen (R72): the bytes holding a visible pixel, once each. -/
theorem test_packed_and_planar_reads :
    lineReads { cfg0 with mode := .pk4At320x200, w := 5, h := 2, ox := 317 } 2 = [0x20010003, 0x20010004] ∧
    lineReads { cfg0 with mode := .pl4At320x200, w := 16, h := 2, ox := 311 } 2 =
      [0x20010008, 0x20010009, 0x2001000A, 0x2001000B, 0x2001000C, 0x2001000D, 0x2001000E, 0x2001000F] := by
  decide +kernel

theorem witness_PackedAndPlanarLinesReadTheirVisibleBytes :
    ∀ m ∈ [(DisplayMode.pk1At320x200, 1, 320), (.pk2At320x200, 2, 320), (.pk4At320x200, 4, 320), (.pk4At160x200, 4, 160)],
      let cfg := { cfg0 with mode := m.1 }
      (cfg.mode = .pk1At320x200 ∧ m.2.1 = 1 ∧ m.2.2 = 320) ∨ (cfg.mode = .pk2At320x200 ∧ m.2.1 = 2 ∧ m.2.2 = 320) ∨
        (cfg.mode = .pk4At320x200 ∧ m.2.1 = 4 ∧ m.2.2 = 320) ∨ (cfg.mode = .pk4At160x200 ∧ m.2.1 = 4 ∧ m.2.2 = 160) := by
  decide

theorem witness_PlanarLineReadsItsVisibleBytes : ({ cfg0 with mode := .pl4At320x200 } : Cfg).mode = .pl4At320x200 := rfl

theorem witness_MemoryReadAnswers : State.reset.mem.wf = true := State.reset_mem_wf

theorem witness_BlockNeverWritesMemory : (∃ t, runEvent .lineStart (running 800 false) = .next t) ∧
    ∀ a b, Event.lineStart ≠ .store a b := ⟨⟨_, rfl⟩, by intro a b h; cases h⟩

theorem witness_EveryStepKeepsTheInvariant :
    State.Inv { running 800 false with sched := [.lineStart] } ∧
      ∃ t, step { running 800 false with sched := [.lineStart] } = .next t :=
  ⟨inv_sched (running_inv _ _ (by decide)) _ rfl, _, rfl⟩

theorem witness_StreamedBufferIsNotWritten : (running 0 true).Inv ∧ (running 0 true).tickEnabled = true ∧
    ∃ t, runEvent (.tick []) (running 0 true) = .next t := ⟨running_inv _ _ (by decide), by decide, _, rfl⟩

theorem witness_OnlyABrokenDeadlineFaults :
    (State.Inv { running 800 false with sched := [.lineStart] } ∧
      State.MeetsDeadline { running 800 false with sched := [.lineStart] }) ∧
    State.Inv { running 800 true with sched := [.lineStart] } ∧
      step { running 800 true with sched := [.lineStart] } = .fault .handlerOverrun :=
  ⟨⟨inv_sched (running_inv _ _ (by decide)) _ rfl, fun _ => rfl⟩,
    inv_sched (running_inv _ _ (by decide)) _ rfl, rfl⟩

theorem witness_OwnersAloneWrite :
    ((∃ t, runEvent .emit (midLine false) = .next t) ∧ Event.emit ≠ .drive (.rst true) ∧ Event.emit ≠ .command ∧
      Event.emit ≠ .commandSplit ∧ Event.emit ≠ .microWrite ∧ ∀ as, Event.emit ≠ .tick as) ∧
    ((∃ t, runEvent .lineStart (running 800 false) = .next t) ∧ Event.lineStart ≠ .drive (.rst true) ∧
      Event.lineStart ≠ .command ∧ Event.lineStart ≠ .commandSplit ∧ ∀ as, Event.lineStart ≠ .tick as) ∧
    ((∃ t, runEvent (.tick []) (running 800 true) = .next t) ∧ Event.tick [] ≠ .drive (.rst true) ∧
      Event.tick [] ≠ .command ∧ Event.tick [] ≠ .commandSplit ∧ Event.tick [] ≠ .lineStart ∧ Event.tick [] ≠ .emit) ∧
    ((∃ t, runEvent .microWrite tearing = .next t) ∧ Event.microWrite ≠ .drive (.rst true) ∧
      Event.microWrite ≠ .command ∧ Event.microWrite ≠ .commandSplit ∧ Event.microWrite ≠ .lineStart ∧
      Event.microWrite ≠ .emit ∧ ∀ as, Event.microWrite ≠ .tick as) := by
  refine ⟨⟨next_of_after (by decide +kernel), ?_⟩, ⟨⟨_, rfl⟩, ?_⟩, ⟨⟨_, rfl⟩, ?_⟩, ⟨⟨_, rfl⟩, ?_⟩⟩ <;> simp

end Sys2Proof.Tests
end

section
/-! SUPPORT. The indices a line is composed of are assigned ones (R47): every pixel names a palette entry, every
blanking entry a control entry, so no element of a line buffer is 255. -/

namespace Sys2Proof.Machine

/-! ## The pixels -/

theorem bgFill_le (p : Params) : (bgFill p).toNat ≤ 250 := by
  have := p.bgIndex.isLt
  simp only [bgFill, indexOfPal_toNat]
  omega

/-- A four-bit field read as an index is one of the first sixteen entries. -/
theorem setWidth_nibble_le (v : BitVec 4) : (v.setWidth 8 : Index).toNat ≤ 15 := by
  have := v.isLt
  simp only [BitVec.toNat_setWidth]
  omega

theorem bgOf_le (blinkEn : Bool) (at_ : Byte) : (bgOf blinkEn at_).toNat ≤ 15 := by
  cases blinkEn
  · exact setWidth_nibble_le _
  · have := (at_.extractLsb' 4 3).isLt
    simp only [bgOf, if_true, BitVec.toNat_setWidth]
    omega

theorem textPixel_le (p : Params) (cfg : Cfg) (L : Nat) (rd : Addr → Byte) (X : Nat) :
    (textPixel p cfg L rd X).toNat ≤ 250 := by
  unfold textPixel
  split
  · exact bgFill_le p
  · dsimp only
    split
    · exact (setWidth_nibble_le _).trans (by decide)
    · exact (bgOf_le _ _).trans (by decide)

/-- A packed pixel has `bpp` bits (R204). -/
theorem packedPixel_le (bpp : Nat) (cfg : Cfg) (rd : Addr → Byte) (row col : Nat) :
    (packedPixel bpp cfg rd row col).toNat ≤ 2 ^ bpp - 1 := by
  simp only [packedPixel, BitVec.toNat_and, BitVec.toNat_ofNat]
  exact Nat.and_le_right.trans (Nat.mod_le _ _)

theorem linearPixel_le (cfg : Cfg) (rd : Addr → Byte) (row col : Nat) : (linearPixel cfg rd row col).toNat ≤ 250 := by
  unfold linearPixel
  dsimp only
  split
  · decide
  · omega

/-- A graphics pixel is as small as its pixel function's, or the background's (R200, R201). -/
theorem gfxPixel_le (p : Params) (cfg : Cfg) (L : Nat) {pixel : Nat → Nat → Index} (X : Nat)
    (h : ∀ row col, (pixel row col).toNat ≤ 250) : (gfxPixel p cfg L pixel X).toNat ≤ 250 := by
  unfold gfxPixel
  split
  · exact h _ _
  · exact bgFill_le p

/-- The packed modes of R116 have at most four bits per pixel. -/
theorem packed_bpp_le {m : DisplayMode} {bpp : Nat} (h : (modeInfo m).cls = .packed bpp) : bpp ≤ 4 := by
  cases m <;> simp only [modeInfo, reduceCtorEq, ModeClass.packed.injEq] at h <;> omega

/-- The Mode Decoder answers palette indices only (R190, R201). -/
theorem decodePixel_le (p : Params) (cfg : Cfg) (L : Nat) (rd : Addr → Byte) (X : Nat) :
    (decodePixel p cfg L rd X).toNat ≤ 250 := by
  unfold decodePixel
  split
  · exact textPixel_le p cfg L rd X
  · rename_i bpp hcls
    have hpow : 2 ^ bpp ≤ 2 ^ 4 := Nat.pow_le_pow_right (by decide) (packed_bpp_le hcls)
    exact gfxPixel_le p cfg L X fun row col => (packedPixel_le bpp cfg rd row col).trans (by omega)
  · exact gfxPixel_le p cfg L X fun _ _ => (setWidth_nibble_le _).trans (by decide)
  · exact gfxPixel_le p cfg L X (linearPixel_le cfg rd)

/-! ## The elements of a line -/

theorem hsyncIndex_le (L : Nat) : (hsyncIndex L).toNat ≤ 253 := by
  unfold hsyncIndex
  split <;> decide

theorem blankIndex_le (L : Nat) : (blankIndex L).toNat ≤ 254 := by
  unfold blankIndex
  split <;> decide

/-- No element of a composed line is the unassigned index (R47, R237). -/
theorem lineEntry_le (p : Params) (cfg : Cfg) (L : Nat) (rd : Addr → Byte) (k : Nat) :
    (lineEntry p cfg L rd k).toNat ≤ 254 := by
  unfold lineEntry
  split
  · exact (hsyncIndex_le L).trans (by decide)
  · split
    · exact blankIndex_le L
    · split
      · split
        · exact (decodePixel_le p cfg L rd _).trans (by decide)
        · exact blankIndex_le L
      · exact blankIndex_le L

theorem nextLine_le {line : Nat} (h : line ≤ 524) : nextLine line ≤ 524 := by
  unfold nextLine
  split <;> omega

/-- An index of at most 254 is not the unassigned one. -/
theorem ne_unassigned {i : Index} (h : i.toNat ≤ 254) : i ≠ 255 := by
  rintro rfl
  exact absurd h (by decide)

end Sys2Proof.Machine
end

section
/-! SUPPORT. What each operation keeps of the invariant (10_state.md section 9). One lemma per operation of an agent;
one lemma serves all operations of the environment, and one the three ways micro-writes are made. -/

namespace Sys2Proof.Machine

/-! ## The palette clause (R46) -/

/-- The palette entries are those of the colours: R46 of a state with no command in progress. -/
def State.PaletteMatches (s : State) : Prop :=
  ∀ i : PalIndex, s.tab.get (palSlot i) = entry Config.hw (s.palRgb.get i)

/-- What the invariant says of the palette, in one word. -/
theorem State.Inv.paletteMatches {s : State} (h : s.Inv) : (s.applyMicros s.hostPend).PaletteMatches := h.palette

/-- Whether pending micro-writes complete the palette depends on the colours and the table alone. -/
theorem State.PaletteMatches.congr {s u : State} {ws : List MicroWrite} (h : (u.applyMicros ws).PaletteMatches)
    (hc : s.palRgb = u.palRgb) (ht : s.tab = u.tab) : (s.applyMicros ws).PaletteMatches := by
  obtain ⟨hc', ht'⟩ := State.applyMicros_palette s u ws hc ht
  unfold State.PaletteMatches
  rw [hc', ht']
  exact h

/-- Writing one colour and its whole entry keeps the palette (R153). -/
theorem State.PaletteMatches.of_paletteWrites {s : State} (h : s.PaletteMatches) (i : PalIndex) (c : Rgb) :
    (s.applyMicros (paletteWrites i c)).PaletteMatches := by
  intro j
  rw [State.applyMicros_paletteWrites]
  by_cases hj : j = i
  · simp [hj]
  · simp [Bank.get_set, palSlot_inj, hj, h j]

/-- All the micro-writes of any command together keep the palette (R46, R66). -/
theorem State.PaletteMatches.of_commandWrites {s : State} (h : s.PaletteMatches) {i : Instr} {ws : List MicroWrite}
    (hw : commandWrites i = some ws) : (s.applyMicros ws).PaletteMatches := by
  cases i <;> simp only [commandWrites, reduceCtorEq, Option.some.injEq] at hw <;> subst hw
  case setMode mode =>
    rcases ofNumber_cases mode with ⟨m, hm, -⟩ | ⟨hm, -⟩ <;> simp only [setModeWrites, hm] <;> exact h
  case setPalette index rgb =>
    rcases palIndex?_cases index with ⟨j, hj, -⟩ | ⟨hj, -⟩ <;> simp only [setPaletteWrites, hj]
    · exact h.of_paletteWrites j rgb
    · exact h
  case setBackground rgb => exact h.of_paletteWrites _ rgb
  all_goals exact h

/-! ## The environment -/

/-- The invariant speaks neither of the ports nor of the schedule, and of memory only its form. -/
theorem State.Inv.environment {s : State} (h : s.Inv) {m : Memory} (hm : m.wf = true) (q : Ports) (es : List Event)
    (n : Nat) : State.Inv { s with mem := m, ports := q, sched := es, now := n } :=
  { h with memWf := hm, palette := h.paletteMatches.congr rfl rfl }

theorem State.Inv.of_nextEvent {s : State} (h : s.Inv) : (nextEvent s).2.Inv := by
  rw [nextEvent_frame]
  exact h.environment h.memWf s.ports _ _

theorem State.Inv.storeByte {s : State} (h : s.Inv) (a : Addr) (b : Byte) : (s.storeByte a b).Inv :=
  h.environment (s.storeByte_wf a b h.memWf) s.ports s.sched s.now

theorem State.Inv.takeCommand {s : State} (h : s.Inv) : s.takeCommand.Inv :=
  h.environment h.memWf _ s.sched s.now

theorem State.reset_inv : State.reset.Inv where
  memWf := State.reset_mem_wf
  lineLe := Nat.zero_le 524
  posLe := le_refl 800
  abortClear := rfl
  lbLe := by intro b k; cases b <;> simp [State.lb, State.reset]
  idxLe := (by decide : (252 : Index).toNat ≤ 254)
  posOfPhase := by intro h; cases h
  idxOfPhase := by intro h; cases h
  palette := by intro i; simp [State.reset, resetTab]
  control := by intro h; cases h
  enabled := by intro h; cases h
  idle := fun _ => ⟨rfl, rfl, rfl, rfl, rfl⟩
  srcIsBuf := rfl
  curIsBuf := by intro h; cases h

/-- Asserting `RST` makes the reset state, any other drive only changes a level. -/
theorem State.Inv.drivePort {s : State} (h : s.Inv) (d : PortDrive) : (s.drivePort d).Inv := by
  unfold State.drivePort
  dsimp only
  split
  · exact State.reset_inv.environment h.memWf _ s.sched s.now
  · exact h.environment h.memWf _ s.sched s.now

/-! ## The host -/

/-- Making some micro-writes and leaving others pending keeps the invariant when all of them together complete the
palette. -/
theorem State.Inv.microWrites {s : State} (h : s.Inv) (ws rest : List MicroWrite)
    (hp : ((s.applyMicros ws).applyMicros rest).PaletteMatches) :
    State.Inv { s.applyMicros ws with hostPend := rest } := by
  have hpal : (State.applyMicros { s.applyMicros ws with hostPend := rest } rest).PaletteMatches := hp.congr rfl rfl
  have hctl : ∀ k : Fin 4, (s.applyMicros ws).tab.get ⟨251 + k.val, by omega⟩ = s.tab.get ⟨251 + k.val, by omega⟩ :=
    fun k => s.applyMicros_tab_high ws _ (Nat.le_add_right 251 k.val)
  obtain ⟨m, fp, fw, fh, ox, oy, tp, pr, tb, hreach⟩ := s.applyMicros_reach ws
  rw [hreach] at hpal hctl ⊢
  exact { h with palette := hpal, control := fun hr k => (hctl k).trans (h.control hr k) }

theorem State.Inv.setPend {s : State} (h : s.Inv) (hs : s.hostPend = []) {i : Instr} {ws : List MicroWrite}
    (hw : commandWrites i = some ws) : (s.setPend ws).Inv :=
  have hp : s.PaletteMatches := by simpa [hs] using h.paletteMatches
  h.microWrites [] ws (hp.of_commandWrites hw)

theorem State.Inv.nextMicro {s : State} (h : s.Inv) : s.nextMicro.Inv := by
  have hp := h.paletteMatches
  unfold State.nextMicro
  split <;> rename_i hs
  · exact h
  · rw [hs] at hp
    exact h.microWrites [_] _ hp

/-- `FatalInit` leaves a FAILED machine, of which the clauses about RUNNING and IDLE say nothing (R281). -/
theorem State.Inv.raiseFatalInit {s : State} (h : s.Inv) : s.raiseFatalInit.Inv :=
  { h with
    palette := h.paletteMatches.congr rfl rfl
    control := by intro hf; cases hf
    enabled := by intro hf; cases hf
    idle := by intro hf; cases hf }

/-- `INIT` rebuilds the whole table from the colours (R159, R160). -/
theorem palTable_ctrlTable_get (p : Params) (c : Bank Rgb 251) (t : Bank Entry 256) :
    (∀ i : PalIndex, (palTable p c (ctrlTable p t)).get (palSlot i) = entry p (c.get i)) ∧
      ∀ k : Fin 4, (palTable p c (ctrlTable p t)).get ⟨251 + k.val, by omega⟩ = ctlEntry p k.val := by
  constructor
  · intro i
    have hi : (palSlot i).val < 251 := i.isLt
    rw [palTable_get, dif_pos hi]
    rfl
  · intro k
    rw [palTable_get, dif_neg (by simp), ctrlTable_get, if_pos (by constructor <;> dsimp only <;> omega)]
    simp

theorem State.Inv.initSequence {s : State} (h : s.Inv) (hs : s.hostPend = []) : (s.initSequence Config.hw).Inv := by
  obtain ⟨hpal, hctl⟩ := palTable_ctrlTable_get Config.hw s.palRgb s.tab
  rw [State.initSequence_eq]
  exact
    { h with
      posLe := le_refl 800
      abortClear := rfl
      posOfPhase := by intro hf; cases hf
      idxOfPhase := by intro hf; cases hf
      palette := by simpa only [hs, State.applyMicros_nil] using hpal
      control := fun _ => hctl
      enabled := fun _ => ⟨rfl, rfl, rfl⟩
      idle := by intro hf; cases hf
      srcIsBuf := rfl
      curIsBuf := by intro hf; cases hf }

/-- A command taken whole with none in progress keeps the invariant (R74). -/
theorem State.Inv.of_exec {s t : State} (h : s.Inv) (hs : s.hostPend = []) {i : Instr} (he : exec i s = .next t) :
    t.Inv := by
  rcases exec_cases he with ⟨-, -, rfl⟩ | ⟨-, -, -, rfl⟩ | ⟨-, -, -, rfl⟩ | ⟨ws, hw, rfl⟩
  · exact h
  · exact h.raiseFatalInit
  · exact h.initSequence hs
  · have hp : s.PaletteMatches := by simpa [hs] using h.paletteMatches
    have hinv := h.microWrites ws [] (hp.of_commandWrites hw)
    rwa [← hs, ← s.applyMicros_hostPend ws] at hinv

/-! ## The handler -/

/-- Writing one buffer leaves the entries of the other. -/
theorem State.setLb_lbEntry_of_ne (s : State) {b c : Bool} (v : Bank Index 800) (k : Nat) (hc : c ≠ b) :
    (s.setLb b v).lbEntry c k = s.lbEntry c k := by
  simp [State.lbEntry, hc]

/-- Filling the buffer that is not being streamed keeps the invariant (R48, R250). -/
theorem State.Inv.setLb {s : State} (h : s.Inv) {b : Bool} {v : Bank Index 800} (hb : s.cur ≠ b)
    (hv : ∀ k, (v.get k).toNat ≤ 254) : (s.setLb b v).Inv := by
  have hle : ∀ c k, (((s.setLb b v).lb c).get k).toNat ≤ 254 := by
    intro c k
    rw [State.setLb_lb]
    split
    · exact hv k
    · exact h.lbLe c k
  have hidx : s.phase = true → s.idx = (s.setLb b v).lbEntry s.cur s.pos := by
    rw [s.setLb_lbEntry_of_ne v s.pos hb]
    exact h.idxOfPhase
  cases b <;> exact { h with lbLe := hle, idxOfPhase := hidx, palette := h.paletteMatches.congr rfl rfl }

/-- The end of a tick: the counters stand on the next line, the new buffer is armed and the interrupt acknowledged
(R230 steps 1, 3 and 4). -/
theorem State.Inv.armed {s : State} (h : s.Inv) (hrun : s.drv = .running) {line : Nat} (hline : line ≤ 524)
    (ticks : BitVec 32) (b : Bool) (reads : List Addr) :
    State.Inv { s with ticks := ticks, line := line, bufIdx := b, src := b, irqPend := false, memReads := reads } :=
  { h with
    lineLe := hline
    palette := h.paletteMatches.congr rfl rfl
    idle := by intro hidle; cases hrun.symm.trans hidle
    srcIsBuf := rfl
    curIsBuf := by intro hf; cases hf }

theorem State.Inv.tick {s : State} (h : s.Inv) (he : s.tickEnabled = true) (answers : List (Addr × Byte)) :
    (s.tick Config.hw answers).Inv := by
  obtain ⟨-, hrun, -, hpend⟩ := s.tickEnabled_iff.mp he
  have hline := nextLine_le h.lineLe
  cases hr : reuseLine s.mode (nextLine s.line)
  · rw [State.tick_regenerate s _ _ hr]
    have hidle : s.cur ≠ !s.bufIdx := by simp [h.curIsBuf hpend]
    have hset := h.setLb hidle (v := composeLine Config.hw s.sample (nextLine s.line) (memAnswer s.mem answers))
      fun k => by rw [composeLine_get]; exact lineEntry_le _ _ _ _ _
    exact hset.armed (by simpa using hrun) hline _ _ _
  · rw [State.tick_reuse s _ _ hr]
    exact h.armed hrun hline _ s.bufIdx s.memReads

/-! ## The pipeline -/

/-- `LINE_START` streams the armed buffer, which is the one `BUFIDX` names (R241, R267). -/
theorem State.Inv.beginLine {s : State} (h : s.Inv) (he : s.lineStartEnabled = true) : s.beginLine.Inv := by
  obtain ⟨-, hrun, -, -⟩ := s.lineStartEnabled_iff.mp he
  exact
    { h with
      posLe := Nat.zero_le 800
      posOfPhase := by intro hf; cases hf
      idxOfPhase := by intro hf; cases hf
      palette := h.paletteMatches.congr rfl rfl
      idle := by intro hidle; cases hrun.symm.trans hidle
      curIsBuf := fun _ => h.srcIsBuf }

/-- Every entry the pipeline asks for is an assigned index (R47). -/
theorem State.Inv.lbEntry_le {s : State} (h : s.Inv) (b : Bool) (k : Nat) : (s.lbEntry b k).toNat ≤ 254 := by
  unfold State.lbEntry
  split
  · exact h.lbLe _ _
  · decide

theorem State.Inv.emitPrimary {s : State} (h : s.Inv) (he : s.emitEnabled = true) : s.emitPrimary.Inv := by
  obtain ⟨-, hrun, -, hpos⟩ := s.emitEnabled_iff.mp he
  exact
    { h with
      idxLe := h.lbEntry_le s.cur s.pos
      posOfPhase := fun _ => hpos
      idxOfPhase := fun _ => rfl
      palette := h.paletteMatches.congr rfl rfl
      idle := by intro hidle; cases hrun.symm.trans hidle }

theorem State.Inv.emitSecondary {s : State} (h : s.Inv) (he : s.emitEnabled = true) : s.emitSecondary.Inv := by
  obtain ⟨-, hrun, -, hpos⟩ := s.emitEnabled_iff.mp he
  exact
    { h with
      posLe := hpos
      posOfPhase := by intro hf; cases hf
      idxOfPhase := by intro hf; cases hf
      palette := h.paletteMatches.congr rfl rfl
      idle := by intro hidle; cases hrun.symm.trans hidle }

/-! ## Events -/

/-- Every event that ends in a next state keeps the invariant. -/
theorem State.Inv.of_runEvent {s t : State} (h : s.Inv) {e : Event} (he : runEvent e s = .next t) : t.Inv := by
  rcases runEvent_cases he with rfl | ⟨d, -, rfl⟩ | ⟨a, b, -, rfl⟩ | ⟨-, -, -, rfl⟩ | ⟨i, -, hc, -, -, hx⟩ |
    ⟨i, ws, -, hc, -, -, hw, rfl⟩ | ⟨-, -, rfl⟩ | ⟨answers, -, ht, rfl⟩ | ⟨-, hl, -, rfl⟩ | ⟨-, hm, -, -, rfl⟩ |
    ⟨-, hm, -, -, rfl⟩
  · exact h
  · exact h.drivePort d
  · exact h.storeByte a b
  · exact h.takeCommand
  · exact h.takeCommand.of_exec (s.commandReady_iff.mp hc).2 hx
  · exact h.takeCommand.setPend (s.commandReady_iff.mp hc).2 hw
  · exact h.nextMicro
  · exact h.tick ht answers
  · exact h.beginLine hl
  · exact h.emitPrimary hm
  · exact h.emitSecondary hm

/-- Settles O56: the event comes off the schedule, and every event keeps the invariant. -/
theorem everyStepKeepsTheInvariant : Obligations.EveryStepKeepsTheInvariant := by
  intro s t h hstep
  exact h.of_nextEvent.of_runEvent hstep

/-- Settles O55, clause by clause. -/
theorem resetMeetsTheInvariant : Obligations.ResetMeetsTheInvariant := State.reset_inv

end Sys2Proof.Machine
end

section
/-! SUPPORT. What each operation leaves unchanged (R50), and the claims about reset, faults and owners. -/

namespace Sys2Proof.Machine

/-! ## Commands -/

/-- Settles O25: `INIT` by its three cases, any other command by what micro-writes reach. -/
theorem commandsLeaveHandlerStateAlone : Obligations.CommandsLeaveHandlerStateAlone := by
  intro i s t he
  rcases exec_cases he with ⟨rfl, -, rfl⟩ | ⟨rfl, -, -, rfl⟩ | ⟨rfl, -, -, rfl⟩ | ⟨ws, -, rfl⟩
  · simp
  · simp
  · simp [State.initSequence_eq]
  · simp

/-! ## Reset -/

/-- `ENTRY(0x000000)` (V3.1). -/
theorem entry_black : entry Config.hw 0 = ⟨0x2A56AAAA2AAAAAAA, 0x15A9555515555555⟩ := by decide

theorem State.reset_hasResetValues : State.reset.HasResetValues where
  drv := rfl
  mode := rfl
  geometry := ⟨rfl, rfl, rfl, rfl, rfl, rfl⟩
  colours := by simp [State.reset]
  table := by intro i; simpa [State.reset, resetTab] using entry_black
  buffers := by simp [State.reset]
  handler := ⟨rfl, rfl, rfl, rfl⟩
  enables := ⟨rfl, rfl, rfl, rfl, rfl⟩
  pipeline := ⟨rfl, rfl, rfl, rfl⟩
  output := ⟨rfl, rfl⟩

/-- The items of R52 are those the environment does not own (R312). -/
theorem State.HasResetValues.environment {s : State} (h : s.HasResetValues) (m : Memory) (q : Ports) (es : List Event)
    (n : Nat) : State.HasResetValues { s with mem := m, ports := q, sched := es, now := n } :=
  { h with }

/-- Settles O54: asserting `RST` makes the power-on state but for what the environment owns. -/
theorem resetRestoresEveryItem : Obligations.ResetRestoresEveryItem :=
  ⟨State.reset_hasResetValues, fun _ => ⟨_, rfl, State.reset_hasResetValues.environment _ _ _ _⟩⟩

/-! ## The handler -/

/-- Writing one buffer changes the two buffers at most. -/
theorem State.setLb_reach (s : State) (b : Bool) (v : Bank Index 800) :
    ∃ v0 v1, s.setLb b v = { s with lb0 := v0, lb1 := v1 } := by
  cases b <;> exact ⟨_, _, rfl⟩

/-- What a tick may write: the counters, the line buffers, `SRC` and the interrupt (R50, R230). -/
theorem State.tick_reach (s : State) (p : Params) (answers : List (Addr × Byte)) :
    ∃ line b v0 v1 reads, s.tick p answers =
      { s with ticks := s.ticks + 1, line := line, bufIdx := b, lb0 := v0, lb1 := v1, src := b, irqPend := false
               memReads := reads } := by
  cases hr : reuseLine s.mode (nextLine s.line)
  · obtain ⟨v0, v1, hset⟩ :=
      s.setLb_reach (!s.bufIdx) (composeLine p s.sample (nextLine s.line) (memAnswer s.mem answers))
    rw [State.tick_regenerate s p answers hr, hset]
    exact ⟨_, _, _, _, _, rfl⟩
  · rw [State.tick_reuse s p answers hr]
    exact ⟨_, _, _, _, _, rfl⟩

/-- A tick keeps the buffer that `BUFIDX` named before it (R48, R230). -/
theorem State.tick_lb (s : State) (p : Params) (answers : List (Addr × Byte)) :
    (s.tick p answers).lb s.bufIdx = s.lb s.bufIdx := by
  cases hr : reuseLine s.mode (nextLine s.line)
  · rw [State.tick_regenerate s p answers hr]
    exact (s.setLb_lb (!s.bufIdx) s.bufIdx _).trans (if_neg (by simp))
  · rw [State.tick_reuse s p answers hr]
    rfl

/-- An enabled tick happens. -/
theorem runEvent_tick {s : State} (h : s.tickEnabled = true) (answers : List (Addr × Byte)) :
    runEvent (.tick answers) s = .next (s.tick Config.hw answers) := by
  simp [runEvent, h]

/-- Settles O57: while a tick is due `CUR` names the buffer `BUFIDX` names, which a tick keeps. -/
theorem streamedBufferIsNotWritten : Obligations.StreamedBufferIsNotWritten := by
  intro s t answers hinv he ht
  rw [runEvent_tick he, Host.Outcome.next.injEq] at ht
  subst ht
  obtain ⟨-, -, -, hpend⟩ := s.tickEnabled_iff.mp he
  constructor
  · obtain ⟨line, b, v0, v1, reads, heq⟩ := s.tick_reach Config.hw answers
    rw [heq]
  · rw [hinv.curIsBuf hpend]
    exact s.tick_lb Config.hw answers

/-! ## Faults -/

/-- In a state of the invariant an event faults only as an overrun. -/
theorem State.Inv.fault_overrun {s : State} (h : s.Inv) {e : Event} {r : Fault} (he : runEvent e s = .fault r) :
    e = .lineStart ∧ s.irqPend = true ∧ r = .handlerOverrun := by
  rcases runEvent_fault he with ⟨hl, hi, -, hr⟩ | ⟨-, -, -, ⟨-, h255⟩ | ⟨-, h255⟩⟩
  · exact ⟨hl, hi, hr⟩
  · exact absurd h255 (ne_unassigned (h.lbEntry_le _ _))
  · exact absurd h255 (ne_unassigned h.idxLe)

/-- Settles O58: the event of a faulting step is a `LINE_START` with the interrupt pending. -/
theorem onlyABrokenDeadlineFaults : Obligations.OnlyABrokenDeadlineFaults := by
  intro s h
  have key : ∀ r, step s = .fault r →
      (nextEvent s).1 = .lineStart ∧ (nextEvent s).2.irqPend = true ∧ r = .handlerOverrun :=
    fun r hr => h.of_nextEvent.fault_overrun hr
  refine ⟨fun r hr => (key r hr).2.2, fun hdl r hr => ?_⟩
  obtain ⟨hl, hpend, -⟩ := key r hr
  rw [nextEvent_frame] at hpend
  exact Bool.false_ne_true ((hdl hl).symm.trans hpend)

/-! ## Owners -/

/-- What driving a port does when it does not assert `RST`: one level changes (R41). -/
theorem State.drivePort_of_ne (s : State) {d : PortDrive} (h : d ≠ .rst true) :
    s.drivePort d = { s with ports := s.ports.drive d } := by
  simp [State.drivePort, h]

/-- What the next micro-write may write: the configuration, the colours and the table (R50). -/
theorem State.nextMicro_reach (s : State) :
    ∃ ws rest, s.nextMicro = { s.applyMicros ws with hostPend := rest } := by
  unfold State.nextMicro
  split
  · exact ⟨[], s.hostPend, rfl⟩
  · exact ⟨[_], _, rfl⟩

/-- Settles O59: each event writes what its operation may write; a whole command by its frame (O25). -/
theorem ownersAloneWrite : Obligations.OwnersAloneWrite := by
  intro e s t he hrst
  rcases runEvent_cases he with rfl | ⟨d, rfl, rfl⟩ | ⟨a, b, rfl, rfl⟩ | ⟨-, -, -, rfl⟩ | ⟨i, hcmd, -, -, -, hx⟩ |
    ⟨i, ws, -, -, -, -, -, rfl⟩ | ⟨rfl, -, rfl⟩ | ⟨answers, rfl, -, rfl⟩ | ⟨rfl, -, -, rfl⟩ | ⟨rfl, -, -, -, rfl⟩ |
    ⟨rfl, -, -, -, rfl⟩
  · simp
  · simp [s.drivePort_of_ne (d := d) (by simpa using hrst)]
  · simp
  · simp
  · obtain ⟨hline, hbuf, hticks, hlb0, hlb1, hcur, hidx, hout, -⟩ := commandsLeaveHandlerStateAlone i _ t hx
    rcases hcmd with rfl | rfl <;> simp [hline, hbuf, hticks, hlb0, hlb1, hcur, hidx, hout]
  · simp
  · obtain ⟨ws, rest, hreach⟩ := s.nextMicro_reach
    simp [hreach]
  · obtain ⟨line, b, v0, v1, reads, hreach⟩ := s.tick_reach Config.hw answers
    simp [hreach]
  · simp
  · simp
  · simp

end Sys2Proof.Machine
end

section
/-! SUPPORT. External memory (R61, R68): what a read answers after a store, and that no event but a store changes a byte. -/

namespace Sys2Proof.Machine

/-! ## Reading after writing -/

/-- A read looks at the first cell, then at the rest. -/
theorem Memory.read_cons (c : Host.Cell) (m : Memory) (a : Nat) :
    Memory.read (c :: m) a = if c.1 = a then c.2 else m.read a := rfl

/-- An address below every listed one is not listed. -/
theorem Memory.read_of_lt {m : Memory} {a : Nat} (h : ∀ c ∈ m, a < c.1) : m.read a = unlistedByte := by
  induction m with
  | nil => rfl
  | cons c m ih =>
    rw [Memory.read_cons, if_neg (h c List.mem_cons_self).ne', ih fun d hd => h d (List.mem_cons_of_mem c hd)]

/-- A write changes no other byte. -/
theorem Memory.read_write_ne (m : Memory) {a a' : Nat} (b : Byte) (h : a' ≠ a) :
    (m.write a b).read a' = m.read a' := by
  induction m with
  | nil =>
    simp only [Memory.write]
    split <;> simp [Memory.read, h.symm]
  | cons c m ih =>
    simp only [Memory.write]
    split_ifs with hlt hb heq hb
    · rfl
    · rw [Memory.read_cons, if_neg h.symm]
    · rw [Memory.read_cons, if_neg (heq ▸ h.symm)]
    · rw [Memory.read_cons, Memory.read_cons, if_neg h.symm, if_neg (heq ▸ h.symm)]
    · rw [Memory.read_cons, Memory.read_cons, ih]

/-- In a memory in its canonical form a read answers the byte last written at the address: where the byte is not listed,
the address stands nowhere else. -/
theorem Memory.read_write_same {m : Memory} (h : m.wf = true) (a : Nat) (b : Byte) : (m.write a b).read a = b := by
  induction m with
  | nil =>
    simp only [Memory.write]
    split <;> simp_all [Memory.read]
  | cons c m ih =>
    obtain ⟨hrise, -⟩ := List.pairwise_cons.mp ((Memory.wf_iff _).mp h).1
    have hbelow : a ≤ c.1 → Memory.read m a = unlistedByte :=
      fun hac => Memory.read_of_lt fun d hd => hac.trans_lt (hrise d hd)
    simp only [Memory.write]
    split_ifs with hlt hb heq hb
    · rw [Memory.read_cons, if_neg hlt.ne', hbelow hlt.le, hb]
    · rw [Memory.read_cons, if_pos rfl]
    · rw [hbelow heq.le, hb]
    · rw [Memory.read_cons, if_pos rfl]
    · rw [Memory.read_cons, if_neg (Ne.symm heq), ih (Memory.wf_tail h)]

/-- Without answers of its own a tick reads what memory holds: the quiescent writer of R68. -/
@[simp] theorem memAnswer_nil (m : Memory) (a : Addr) : memAnswer m [] a = m.read a.toNat := rfl

/-- One answer of the environment stands for the byte at its address only. -/
theorem memAnswer_singleton (m : Memory) (a : Addr) (b : Byte) (a' : Addr) :
    memAnswer m [(a, b)] a' = if a' = a then b else m.read a'.toNat := by
  by_cases h : a' = a
  · simp [memAnswer, h]
  · simp [memAnswer, List.lookup, h, show (a' == a) = false by simpa using h]

/-- Settles O52: a store is the write of one byte, and one answer of the environment gives any byte at one address. -/
theorem memoryReadAnswers : Obligations.MemoryReadAnswers := by
  refine ⟨fun s a b hwf => ⟨s.storeByte a b, rfl, fun a' => ?_⟩, fun m a b => ⟨[(a, b)], ?_, fun a' ha => ?_⟩⟩
  · change Memory.read (s.mem.write a.toNat b) a'.toNat = if a' = a then b else s.mem.read a'.toNat
    split_ifs with ha
    · rw [ha, Memory.read_write_same hwf]
    · exact Memory.read_write_ne _ b (mt BitVec.eq_of_toNat_eq ha)
  · rw [memAnswer_singleton, if_pos rfl]
  · rw [memAnswer_singleton, if_neg ha, memAnswer_nil]

/-! ## Only a store writes -/

/-- Driving a port leaves external memory alone, asserting `RST` included (R312). -/
@[simp] theorem State.drivePort_mem (s : State) (d : PortDrive) : (s.drivePort d).mem = s.mem := by
  by_cases hd : d = .rst true
  · simp [State.drivePort, hd, State.resetBlock]
  · rw [s.drivePort_of_ne hd]

/-- Every command leaves external memory alone. -/
theorem exec_mem {i : Instr} {s t : State} (h : exec i s = .next t) : t.mem = s.mem := by
  rcases exec_cases h with ⟨-, -, rfl⟩ | ⟨-, -, -, rfl⟩ | ⟨-, -, -, rfl⟩ | ⟨ws, -, rfl⟩
  · rfl
  · rfl
  · rw [State.initSequence_eq]
  · exact s.applyMicros_mem ws

/-- Settles O53: each event by what its operation may write. -/
theorem blockNeverWritesMemory : Obligations.BlockNeverWritesMemory := by
  intro e s t he hstore a
  have hmem : t.mem = s.mem := by
    rcases runEvent_cases he with rfl | ⟨d, -, rfl⟩ | ⟨x, b, rfl, -⟩ | ⟨-, -, -, rfl⟩ | ⟨i, -, -, -, -, hx⟩ |
      ⟨i, ws, -, -, -, -, -, rfl⟩ | ⟨-, -, rfl⟩ | ⟨answers, -, -, rfl⟩ | ⟨-, -, -, rfl⟩ | ⟨-, -, -, -, rfl⟩ |
      ⟨-, -, -, -, rfl⟩
    · rfl
    · exact s.drivePort_mem d
    · exact absurd rfl (hstore x b)
    · rfl
    · exact (exec_mem hx).trans s.takeCommand_mem
    · rfl
    · obtain ⟨ws, rest, hreach⟩ := s.nextMicro_reach
      rw [hreach]
      exact s.applyMicros_mem ws
    · obtain ⟨line, b, v0, v1, reads, hreach⟩ := s.tick_reach Config.hw answers
      rw [hreach]
    · rfl
    · rfl
    · rfl
  rw [hmem]

end Sys2Proof.Machine
end

section
/-! SUPPORT. Runs along a given schedule: the micro-writes of a command made one after the other are the command (R67,
R74), and the two interleavings with the pipeline that send a torn entry (R77). -/

namespace Sys2Proof.Machine

/-! ## A state at a point of a schedule -/

/-- The machine as it is, at another point of a schedule (log 1). -/
def State.atSchedule (s : State) (es : List Event) (n : Nat) : State := { s with sched := es, now := n }

@[simp] theorem State.atSchedule_tab (s : State) (es : List Event) (n : Nat) : (s.atSchedule es n).tab = s.tab := rfl
@[simp] theorem State.atSchedule_out64 (s : State) (es : List Event) (n : Nat) : (s.atSchedule es n).out64 = s.out64 :=
  rfl

/-- Micro-writes neither read nor change the schedule. -/
theorem State.applyMicros_atSchedule (s : State) (ws : List MicroWrite) (es : List Event) (n : Nat) :
    (s.atSchedule es n).applyMicros ws = (s.applyMicros ws).atSchedule es n := by
  refine (s.applyMicros_frame ws s.ports s.hostPend es n).trans ?_
  rw [← s.applyMicros_ports ws, ← s.applyMicros_hostPend ws]
  rfl

/-- Micro-writes neither read nor change the micro-writes pending. -/
theorem State.applyMicros_setPend (s : State) (ws vs : List MicroWrite) :
    (s.setPend vs).applyMicros ws = (s.applyMicros ws).setPend vs := by
  refine (s.applyMicros_frame ws s.ports vs s.sched s.now).trans ?_
  rw [← s.applyMicros_ports ws, ← s.applyMicros_sched ws, ← s.applyMicros_now ws]
  rfl

theorem State.setPend_eq_self {s : State} {ws : List MicroWrite} (h : s.hostPend = ws) : s.setPend ws = s := by
  subst h
  rfl

@[simp] theorem State.setPend_setPend (s : State) (ws vs : List MicroWrite) : (s.setPend ws).setPend vs = s.setPend vs :=
  rfl

/-- A step along the schedule: the soonest event happens and the run goes on after it (R75). -/
theorem core_run_event {s t : State} {e : Event} {rest : List Event} {k n : Nat}
    (he : runEvent e (s.atSchedule rest (k + 1)) = .next t) :
    Sys2Proof.core.run (n + 1) (s.atSchedule (e :: rest) k) = Sys2Proof.core.run n t :=
  core_run_succ he

/-- The next micro-write of a command in progress is made (R67). -/
theorem core_run_microWrite {s : State} {w : MicroWrite} {ws : List MicroWrite} (hr : s.ports.rst = false)
    (hp : s.hostPend = w :: ws) (rest : List Event) (k n : Nat) :
    Sys2Proof.core.run (n + 1) (s.atSchedule (.microWrite :: rest) k) =
      Sys2Proof.core.run n (((s.applyMicro w).setPend ws).atSchedule rest (k + 1)) := by
  apply core_run_event
  have happly := s.applyMicros_atSchedule [w] rest (k + 1)
  have hr' : (s.atSchedule rest (k + 1)).ports.rst = false := hr
  have hp' : (s.atSchedule rest (k + 1)).hostPend = w :: ws := hp
  simp only [State.applyMicros_cons, State.applyMicros_nil] at happly
  simp only [runEvent, hr', State.nextMicro, hp', happly]
  rfl

/-- `EMIT` in phase 0 of an assigned index sends the primary word (R242). -/
theorem emit_primary {s : State} (hph : s.phase = false) (hi : s.lbEntry s.cur s.pos ≠ 255) :
    emit s = .next s.emitPrimary := by rw [emit, if_neg (by simp [hph]), if_neg hi]

/-- `EMIT` in phase 1 of an assigned index sends the secondary word (R242). -/
theorem emit_secondary {s : State} (hph : s.phase = true) (hi : s.idx ≠ 255) : emit s = .next s.emitSecondary := by
  rw [emit, if_pos hph, if_neg hi]

/-- A step of an enabled pipeline in phase 0. -/
theorem core_run_emitPrimary {s : State} (he : s.emitEnabled = true) (hph : s.phase = false)
    (hi : s.lbEntry s.cur s.pos ≠ 255) (rest : List Event) (k n : Nat) :
    Sys2Proof.core.run (n + 1) (s.atSchedule (.emit :: rest) k) =
      Sys2Proof.core.run n (s.emitPrimary.atSchedule rest (k + 1)) :=
  core_run_event ((if_pos he).trans (emit_primary (s := s.atSchedule rest (k + 1)) hph hi))

/-- A step of an enabled pipeline in phase 1. -/
theorem core_run_emitSecondary {s : State} (he : s.emitEnabled = true) (hph : s.phase = true) (hi : s.idx ≠ 255)
    (rest : List Event) (k n : Nat) :
    Sys2Proof.core.run (n + 1) (s.atSchedule (.emit :: rest) k) =
      Sys2Proof.core.run n (s.emitSecondary.atSchedule rest (k + 1)) :=
  core_run_event ((if_pos he).trans (emit_secondary (s := s.atSchedule rest (k + 1)) hph hi))

/-! ## Split commands -/

/-- A command with micro-writes taken whole makes all of them (R74). -/
theorem exec_of_commandWrites {i : Instr} {ws : List MicroWrite} (hw : commandWrites i = some ws) (s : State) :
    exec i s = .next (s.applyMicros ws) := by
  obtain ⟨t, ht⟩ := exec_next i s
  rcases exec_cases ht with ⟨rfl, -⟩ | ⟨rfl, -⟩ | ⟨rfl, -⟩ | ⟨vs, hv, rfl⟩
  iterate 3 cases hw
  rw [ht, Option.some.inj (hw.symm.trans hv)]

/-- An accepted word on the port is taken and does what `run` does (R118). -/
theorem takeWord_ok {run : Instr → State → Host.Outcome State Fault Refusal} {s : State} {i : Instr}
    (hp : s.hostPend = []) (hv : s.ports.cmdValid = true) (hr : s.ports.rst = false) (hd : decode s.ports.cmd = .ok i) :
    takeWord run s = run i s.takeCommand := by
  simp [takeWord, s.commandReady_iff.mpr ⟨hv, hp⟩, hr, hd]

/-- As many micro-write events as there are micro-writes pending make all of them in order, one step each (R67). -/
theorem core_run_microWrites (ws : List MicroWrite) {s : State} (hr : s.ports.rst = false) (hp : s.hostPend = ws)
    (rest : List Event) (k : Nat) :
    Sys2Proof.core.run ws.length (s.atSchedule (List.replicate ws.length .microWrite ++ rest) k) =
      .next (((s.applyMicros ws).setPend []).atSchedule rest (k + ws.length)) := by
  induction ws generalizing s k with
  | nil =>
    rw [State.applyMicros_nil, State.setPend_eq_self hp]
    rfl
  | cons w ws ih =>
    have hr' : ((s.applyMicro w).setPend ws).ports.rst = false := by simpa using hr
    have hlen : k + 1 + ws.length = k + (w :: ws).length := by rw [List.length_cons]; omega
    have hstep := core_run_microWrite hr hp (List.replicate ws.length .microWrite ++ rest) k ws.length
    have hrest := ih hr' rfl (k + 1)
    rw [State.applyMicros_setPend, hlen] at hrest
    exact hstep.trans hrest

/-- A command with micro-writes, taken whole (R118, R74). -/
theorem core_run_command {s : State} {i : Instr} {ws : List MicroWrite} (hp : s.hostPend = [])
    (hv : s.ports.cmdValid = true) (hr : s.ports.rst = false) (hd : decode s.ports.cmd = .ok i)
    (hw : commandWrites i = some ws) (rest : List Event) (k n : Nat) :
    Sys2Proof.core.run (n + 1) (s.atSchedule (.command :: rest) k) =
      Sys2Proof.core.run n ((s.takeCommand.applyMicros ws).atSchedule rest (k + 1)) := by
  have htake : runEvent .command (s.atSchedule rest (k + 1)) = exec i (s.takeCommand.atSchedule rest (k + 1)) :=
    takeWord_ok (s := s.atSchedule rest (k + 1)) hp hv hr hd
  apply core_run_event
  rw [htake, exec_of_commandWrites hw, State.applyMicros_atSchedule]

/-- A command with micro-writes, begun so that they are made one at a time (R67). -/
theorem core_run_commandSplit {s : State} {i : Instr} {ws : List MicroWrite} (hp : s.hostPend = [])
    (hv : s.ports.cmdValid = true) (hr : s.ports.rst = false) (hd : decode s.ports.cmd = .ok i)
    (hw : commandWrites i = some ws) (rest : List Event) (k n : Nat) :
    Sys2Proof.core.run (n + 1) (s.atSchedule (.commandSplit :: rest) k) =
      Sys2Proof.core.run n ((s.takeCommand.setPend ws).atSchedule rest (k + 1)) := by
  have htake : runEvent .commandSplit (s.atSchedule rest (k + 1)) =
      beginSplit i (s.takeCommand.atSchedule rest (k + 1)) :=
    takeWord_ok (s := s.atSchedule rest (k + 1)) hp hv hr hd
  apply core_run_event
  rw [htake, beginSplit, hw]
  rfl

/-- Settles O29: the whole command makes the micro-writes at once, the split one leaves them pending and makes them one
by one; where the schedule stands does not matter to either. -/
theorem splitCommandEqualsWholeCommand : Obligations.SplitCommandEqualsWholeCommand := by
  intro s i ws rest hp hv hr hd hw
  have hwhole := core_run_command hp hv hr hd hw rest s.now 0
  have hbegin := core_run_commandSplit hp hv hr hd hw (List.replicate ws.length .microWrite ++ rest) s.now ws.length
  have hwrites := core_run_microWrites ws (s := s.takeCommand.setPend ws) hr rfl rest (s.now + 1)
  have hdone : (s.takeCommand.applyMicros ws).hostPend = [] := by simpa using hp
  rw [State.applyMicros_setPend, State.setPend_setPend, State.setPend_eq_self hdone] at hwrites
  refine ⟨(s.takeCommand.applyMicros ws).atSchedule rest (s.now + 1), hwhole, ?_⟩
  rw [Nat.add_comm 1]
  exact hbegin.trans hwrites

/-! ## Torn entries -/

/-- No micro-write changes what the pipeline asks before it emits. -/
@[simp] theorem State.applyMicro_lbEntry (s : State) (w : MicroWrite) (b : Bool) (k : Nat) :
    (s.applyMicro w).lbEntry b k = s.lbEntry b k := by simp [State.lbEntry]

@[simp] theorem State.applyMicro_emitEnabled (s : State) (w : MicroWrite) :
    (s.applyMicro w).emitEnabled = s.emitEnabled := by simp [State.emitEnabled]

@[simp] theorem State.setPend_emitEnabled (s : State) (ws : List MicroWrite) :
    (s.setPend ws).emitEnabled = s.emitEnabled := rfl

@[simp] theorem State.emitPrimary_emitEnabled (s : State) : s.emitPrimary.emitEnabled = s.emitEnabled := rfl

/-- The table entry of a palette index. -/
theorem State.tabEntry_indexOfPal (s : State) (i : PalIndex) : s.tabEntry (indexOfPal i) = s.tab.get (palSlot i) := by
  rw [State.tabEntry, slotOf_indexOfPal]

/-- Two `EMIT`s in a row send both words of the entry they meet (R242). -/
theorem State.emitEntry_out64 (s : State) :
    s.emitPrimary.emitSecondary.out64 =
      s.out64 ++ [(s.tabEntry (s.lbEntry s.cur s.pos)).w0, (s.tabEntry (s.lbEntry s.cur s.pos)).w1] := by simp

/-- Both words of an entry are sent between two micro-writes (R77). -/
theorem core_run_emits_between_writes {s : State} {w v : MicroWrite} (he : s.emitEnabled = true)
    (hph : s.phase = false) (hi : s.lbEntry s.cur s.pos ≠ 255) (hp : s.hostPend = [w, v]) (rest : List Event) (k : Nat) :
    Sys2Proof.core.run 4 (s.atSchedule (.microWrite :: .emit :: .emit :: .microWrite :: rest) k) =
      .next (((((s.applyMicro w).setPend [v]).emitPrimary.emitSecondary.applyMicro v).setPend []).atSchedule rest
        (k + 4)) := by
  obtain ⟨hr, -⟩ := s.emitEnabled_iff.mp he
  have hw := core_run_microWrite hr hp (.emit :: .emit :: .microWrite :: rest) k 3
  have hprim := core_run_emitPrimary (s := (s.applyMicro w).setPend [v]) (by simpa using he) (by simpa using hph)
    (by simpa using hi) (.emit :: .microWrite :: rest) (k + 1) 2
  have hsec := core_run_emitSecondary (s := ((s.applyMicro w).setPend [v]).emitPrimary) (by simpa using he) rfl
    (by simpa using hi) (.microWrite :: rest) (k + 2) 1
  have hv := core_run_microWrite (s := ((s.applyMicro w).setPend [v]).emitPrimary.emitSecondary) (by simpa using hr) rfl
    rest (k + 3) 0
  exact hw.trans (hprim.trans (hsec.trans hv))

/-- Two micro-writes are made between the two words of an entry (R77). -/
theorem core_run_writes_between_emits {s : State} {w v : MicroWrite} (he : s.emitEnabled = true)
    (hph : s.phase = false) (hi : s.lbEntry s.cur s.pos ≠ 255) (hp : s.hostPend = [w, v]) (rest : List Event) (k : Nat) :
    Sys2Proof.core.run 4 (s.atSchedule (.emit :: .microWrite :: .microWrite :: .emit :: rest) k) =
      .next (((((s.emitPrimary.applyMicro w).setPend [v]).applyMicro v).setPend []).emitSecondary.atSchedule rest
        (k + 4)) := by
  obtain ⟨hr, -⟩ := s.emitEnabled_iff.mp he
  have hprim := core_run_emitPrimary he hph hi (.microWrite :: .microWrite :: .emit :: rest) k 3
  have hw := core_run_microWrite (s := s.emitPrimary) hr hp (.microWrite :: .emit :: rest) (k + 1) 2
  have hv := core_run_microWrite (s := (s.emitPrimary.applyMicro w).setPend [v]) (by simpa using hr) rfl
    (.emit :: rest) (k + 2) 1
  have hsec := core_run_emitSecondary (s := (((s.emitPrimary.applyMicro w).setPend [v]).applyMicro v).setPend [])
    (by simpa using he) (by simp) (by simpa using hi) rest (k + 3) 0
  exact hprim.trans (hw.trans (hv.trans hsec))

/-- Settles O30: each read sends the word the table holds at its moment. -/
theorem paletteEntryCanBeSentTorn : Obligations.PaletteEntryCanBeSentTorn := by
  intro s i c rest he hph hi hp
  have h255 : s.lbEntry s.cur s.pos ≠ 255 := hi.trans_ne (ne_unassigned (by rw [indexOfPal_toNat]; omega))
  refine ⟨⟨_, core_run_emits_between_writes he hph h255 hp rest s.now, ?_, ?_, rfl⟩,
    ⟨_, core_run_writes_between_emits he hph h255 hp rest s.now, ?_, ?_, rfl⟩⟩
  · refine (State.emitEntry_out64 _).trans ?_
    simp only [State.setPend_lbEntry, State.setPend_cur, State.setPend_pos, State.applyMicro_lbEntry,
      State.applyMicro_cur, State.applyMicro_pos, hi, State.tabEntry_indexOfPal]
    simp
  · simp
  · simp [State.tabEntry_indexOfPal, hi]
  · simp

end Sys2Proof.Machine
end

section
/-! SUPPORT. The reads of a line (R69, R72, R202). Every mode reads one run of consecutive bytes: each active entry
needs a few bytes of the run, and none of them lies beyond the first byte not yet read. -/

namespace Sys2Proof.Machine

/-! ## Runs of consecutive bytes -/

/-- `n` consecutive bytes, the first at `base + a`. -/
def bytesFrom (base : Addr) (a n : Nat) : List Addr := (List.range' a n).map (addrAt base)

@[simp] theorem bytesFrom_zero (base : Addr) (a : Nat) : bytesFrom base a 0 = [] := rfl

theorem addrAt_addrAt (p : Addr) (m n : Nat) : addrAt (addrAt p m) n = addrAt p (m + n) := by
  simp only [addrAt, BitVec.ofNat_add, BitVec.add_assoc]

theorem addrAt_add_ofNat (p : Addr) (m n : Nat) : addrAt p m + BitVec.ofNat 32 n = addrAt p (m + n) := addrAt_addrAt p m n

/-- Offsets below 2^32 give distinct addresses (R63). -/
theorem addrAt_inj {base : Addr} {m n : Nat} (hm : m < 2 ^ 32) (hn : n < 2 ^ 32) (h : addrAt base m = addrAt base n) :
    m = n := by
  have h' := congrArg BitVec.toNat ((BitVec.add_right_inj base).mp h)
  rwa [BitVec.toNat_ofNat, BitVec.toNat_ofNat, Nat.mod_eq_of_lt hm, Nat.mod_eq_of_lt hn] at h'

/-- A run is its first byte and the run after it. -/
theorem bytesFrom_succ (base : Addr) (a n : Nat) :
    bytesFrom base a (n + 1) = addrAt base a :: bytesFrom base (a + 1) n := rfl

/-- A run is a run and the run after it. -/
theorem bytesFrom_append (base : Addr) (a m n : Nat) :
    bytesFrom base a m ++ bytesFrom base (a + m) n = bytesFrom base a (m + n) := by
  simp only [bytesFrom, ← List.map_append, List.range'_append_1]

theorem mem_bytesFrom {base : Addr} {a n : Nat} {x : Addr} :
    x ∈ bytesFrom base a n ↔ ∃ k, a ≤ k ∧ k < a + n ∧ addrAt base k = x := by
  simp [bytesFrom, and_assoc]

theorem bytesFrom_nodup {base : Addr} {a n : Nat} (h : a + n ≤ 2 ^ 32) : (bytesFrom base a n).Nodup := by
  refine List.Nodup.map_on (fun x hx y hy hxy => ?_) List.nodup_range'
  rw [List.mem_range'_1] at hx hy
  exact addrAt_inj (by omega) (by omega) hxy

/-- A run from byte `a` on is a run from the start of another base. -/
theorem bytesFrom_shift (base : Addr) (a n : Nat) : bytesFrom base a n = bytesFrom (addrAt base a) 0 n := by
  simp [bytesFrom, List.range'_eq_map_range, addrAt_addrAt]

/-- A run from the start of a row, as the bytes at a fixed offset from a pointer. -/
theorem bytesFrom_addrAt (p : Addr) (o n : Nat) :
    bytesFrom (addrAt p o) 0 n = (List.range n).map fun j => p + BitVec.ofNat 32 (o + j) := by
  simp only [bytesFrom, ← List.range_eq_range']
  exact List.map_congr_left fun j _ => addrAt_addrAt p o j

/-! ## First uses -/

/-- Only which addresses were read before matters, not in which order. -/
theorem firstUses_congr {memo memo' : List Addr} (h : ∀ a, a ∈ memo ↔ a ∈ memo') (l : List Addr) :
    firstUses memo l = firstUses memo' l := by
  induction l generalizing memo memo' with
  | nil => rfl
  | cons b l ih =>
    simp only [firstUses, h b]
    rw [ih h, ih (memo := b :: memo) (memo' := b :: memo') (by simp [h])]

/-- The first uses of two lists are those of the first, then those of the second that are not among them (R202). -/
theorem firstUses_append (memo l l' : List Addr) :
    firstUses memo (l ++ l') = firstUses memo l ++ firstUses (firstUses memo l ++ memo) l' := by
  induction l generalizing memo with
  | nil => rfl
  | cons b l ih =>
    simp only [List.cons_append, firstUses]
    split
    · exact ih memo
    · rw [ih, List.cons_append]
      refine congrArg _ (congrArg _ (firstUses_congr (fun a => ?_) l'))
      simp only [List.mem_append, List.mem_cons]
      tauto

/-- Addresses all read before are not read again. -/
theorem firstUses_of_subset {memo l : List Addr} (h : l ⊆ memo) : firstUses memo l = [] :=
  List.eq_nil_iff_forall_not_mem.mpr fun _ ha => (mem_firstUses.mp ha).2 (h (mem_firstUses.mp ha).1)

/-- Distinct addresses none of which was read before are all read. -/
theorem firstUses_of_disjoint {memo l : List Addr} (hn : l.Nodup) (h : ∀ a ∈ l, a ∉ memo) : firstUses memo l = l := by
  induction l generalizing memo with
  | nil => rfl
  | cons b l ih =>
    obtain ⟨hb, hn⟩ := List.nodup_cons.mp hn
    rw [firstUses, if_neg (h b List.mem_cons_self), ih hn]
    intro a ha
    rw [List.mem_cons, not_or]
    exact ⟨fun hab => hb (hab ▸ ha), h a (List.mem_cons_of_mem b ha)⟩

/-- No address is among the first uses twice. -/
theorem firstUses_nodup (memo l : List Addr) : (firstUses memo l).Nodup := by
  induction l generalizing memo with
  | nil => exact List.nodup_nil
  | cons b l ih =>
    simp only [firstUses]
    split
    · exact ih memo
    · exact List.nodup_cons.mpr ⟨fun hb => (mem_firstUses.mp hb).2 List.mem_cons_self, ih (b :: memo)⟩

/-- Once the first `m` bytes of a run are read, `n` bytes that begin no later than at byte `m` add those from byte `m`
on. -/
theorem firstUses_bytesFrom {base : Addr} {a m n : Nat} (ha : a ≤ m) (h : a + n ≤ 2 ^ 32) :
    firstUses (bytesFrom base 0 m) (bytesFrom base a n) = bytesFrom base m (a + n - m) := by
  have hold : ∀ k, a + k ≤ m → bytesFrom base a k ⊆ bytesFrom base 0 m := by
    intro k hk x hx
    obtain ⟨j, -, hj, rfl⟩ := mem_bytesFrom.mp hx
    exact mem_bytesFrom.mpr ⟨j, by omega, by omega, rfl⟩
  rcases Nat.le_total (a + n) m with hle | hge
  · rw [firstUses_of_subset (hold n hle), Nat.sub_eq_zero_of_le hle, bytesFrom_zero]
  · have hsplit := bytesFrom_append base a (m - a) (a + n - m)
    rw [show a + (m - a) = m by omega, show m - a + (a + n - m) = n by omega] at hsplit
    rw [← hsplit, firstUses_append, firstUses_of_subset (hold (m - a) (by omega)), List.nil_append, List.nil_append]
    refine firstUses_of_disjoint (bytesFrom_nodup (by omega)) fun x hx hx' => ?_
    obtain ⟨j, hj, hj', rfl⟩ := mem_bytesFrom.mp hx
    obtain ⟨k, -, hk, heq⟩ := mem_bytesFrom.mp hx'
    have := addrAt_inj (by omega) (by omega) heq
    omega

/-- The reads of entries that advance along one run: entry `X` needs `len X` bytes from byte `start X`, `covered X` is the
number of bytes the entries before it have read, and none begins beyond that. -/
theorem firstUses_flatMap_bytesFrom {base : Addr} {f : Nat → List Addr} {start len covered : Nat → Nat}
    (h0 : covered 0 = 0) (hf : ∀ X, f X = bytesFrom base (start X) (len X)) (hstart : ∀ X, start X ≤ covered X)
    (hstep : ∀ X, covered (X + 1) = max (covered X) (start X + len X)) {N : Nat}
    (hsize : ∀ X < N, start X + len X ≤ 2 ^ 32) :
    firstUses [] ((List.range N).flatMap f) = bytesFrom base 0 (covered N) := by
  induction N with
  | zero => rw [h0]; rfl
  | succ N ih =>
    rw [List.range_succ, List.flatMap_append, List.flatMap_singleton, firstUses_append,
      ih fun X hX => hsize X (Nat.lt_succ_of_lt hX), List.append_nil, hf,
      firstUses_bytesFrom (hstart N) (hsize N N.lt_succ_self)]
    have happ := bytesFrom_append base 0 (covered N) (start N + len N - covered N)
    rw [Nat.zero_add] at happ
    rw [happ, hstep N]
    congr 1
    omega

/-- The reads of a line whose entries advance along one run. -/
theorem lineReads_of_runs {cfg : Cfg} {L : Nat} {base : Addr} {start len covered : Nat → Nat} (h0 : covered 0 = 0)
    (hf : ∀ X, entryAddrs cfg L X = bytesFrom base (start X) (len X)) (hstart : ∀ X, start X ≤ covered X)
    (hstep : ∀ X, covered (X + 1) = max (covered X) (start X + len X)) (hsize : ∀ X < 640, start X + len X ≤ 2 ^ 32) :
    lineReads cfg L = bytesFrom base 0 (covered 640) :=
  firstUses_flatMap_bytesFrom h0 hf hstart hstep hsize

/-- A line none of whose entries needs a byte reads nothing. -/
theorem lineReads_of_nil {cfg : Cfg} {L : Nat} (h : ∀ X, entryAddrs cfg L X = []) : lineReads cfg L = [] := by
  refine List.eq_nil_iff_forall_not_mem.mpr fun a ha => ?_
  obtain ⟨X, -, hX⟩ := mem_lineReads.mp ha
  rw [h X] at hX
  exact List.not_mem_nil hX

/-! ## Text lines -/

/-- An active entry of a text line needs the two bytes of its cell (R194, R199). -/
theorem entryAddrs_text {cfg : Cfg} {L : Nat} (hc : (modeInfo cfg.mode).cls = .text) (X : Nat) :
    entryAddrs cfg L X =
      if L < 400 then bytesFrom (addrAt cfg.textPtr (160 * (L / 16))) (2 * (X / 8)) 2 else [] := by
  simp only [entryAddrs, hc]
  rw [show Config.textLines = 400 from rfl]
  split_ifs with hbelow hL hL
  · omega
  · rfl
  · have hcell : cellAddr cfg (L / 16) (X / 8) = addrAt (addrAt cfg.textPtr (160 * (L / 16))) (2 * (X / 8)) := by
      rw [cellAddr, addrAt_addrAt]
      congr 1
      omega
    rw [hcell, bytesFrom_succ, bytesFrom_succ, bytesFrom_zero, ← addrAt_add_ofNat]
    rfl
  · omega

/-- A text line reads the 160 bytes of its row of cells. -/
theorem lineReads_text {cfg : Cfg} {L : Nat} (hc : (modeInfo cfg.mode).cls = .text) :
    lineReads cfg L = if L < 400 then bytesFrom (addrAt cfg.textPtr (160 * (L / 16))) 0 160 else [] := by
  have hf := entryAddrs_text (L := L) hc
  split_ifs at hf ⊢ with hL
  · refine lineReads_of_runs (covered := fun X => 2 * ((X + 7) / 8)) rfl hf ?_ ?_ ?_ <;> intro X <;> omega
  · exact lineReads_of_nil hf

/-- Settles O50: first uses have no repetition, and the cells of a text row are one run of bytes. -/
theorem eachByteIsReadOnceInOrder : Obligations.EachByteIsReadOnceInOrder :=
  ⟨fun _ _ => firstUses_nodup _ _, fun cfg L hc => by rw [lineReads_text hc, bytesFrom_addrAt]⟩

/-! ## Graphics lines -/

/-- The next multiple is reached by the first unit after `a / b` whole ones. -/
theorem ceilDiv_succ (a : Nat) {b : Nat} (hb : 0 < b) : ceilDiv (a + 1) b = a / b + 1 := by
  rw [ceilDiv, show a + 1 + b - 1 = a + b by omega, Nat.add_div_right a hb]

theorem ceilDiv_zero {b : Nat} (hb : 0 < b) : ceilDiv 0 b = 0 := Nat.div_eq_of_lt (by omega)

theorem ceilDiv_le_ceilDiv {a a' : Nat} (h : a ≤ a') (b : Nat) : ceilDiv a b ≤ ceilDiv a' b :=
  Nat.div_le_div_right (by omega)

theorem div_le_ceilDiv (a : Nat) {b : Nat} (hb : 0 < b) : a / b ≤ ceilDiv a b :=
  Nat.div_le_div_right (by omega)

theorem ceilDiv_le_div_succ (a : Nat) {b : Nat} (hb : 0 < b) : ceilDiv a b ≤ a / b + 1 :=
  (ceilDiv_le_ceilDiv a.le_succ b).trans (ceilDiv_succ a hb).le

/-- The columns of the image that the first `X` active entries of a line show (R200). -/
def shownCols (cfg : Cfg) (X : Nat) : Nat := min cfg.w.toNat (ceilDiv X (modeInfo cfg.mode).hscale - cfg.ox.toNat)

theorem hscale_pos (m : DisplayMode) : 0 < (modeInfo m).hscale := by cases m <;> decide

theorem shownCols_zero (cfg : Cfg) : shownCols cfg 0 = 0 := by
  rw [shownCols, ceilDiv_zero (hscale_pos cfg.mode), Nat.zero_sub, Nat.min_zero]

/-- An entry beside the image shows no further column. -/
theorem shownCols_succ_of_none {cfg : Cfg} {X : Nat} (h : sourceCol? cfg X = none) :
    shownCols cfg (X + 1) = shownCols cfg X := by
  have hlo := div_le_ceilDiv X (hscale_pos cfg.mode)
  have hhi := ceilDiv_le_div_succ X (hscale_pos cfg.mode)
  simp only [sourceCol?, ite_eq_left_iff, reduceCtorEq, imp_false, not_not] at h
  rw [shownCols, shownCols, ceilDiv_succ X (hscale_pos cfg.mode)]
  omega

/-- An entry on column `c` of the image stands after the columns before `c`, and shows it. -/
theorem shownCols_of_some {cfg : Cfg} {X c : Nat} (h : sourceCol? cfg X = some c) :
    c < cfg.w.toNat ∧ c ≤ shownCols cfg X ∧ shownCols cfg X ≤ c + 1 ∧ shownCols cfg (X + 1) = c + 1 := by
  have hlo := div_le_ceilDiv X (hscale_pos cfg.mode)
  have hhi := ceilDiv_le_div_succ X (hscale_pos cfg.mode)
  simp only [sourceCol?, Option.ite_none_left_eq_some, not_or, Option.some.injEq] at h
  rw [shownCols, shownCols, ceilDiv_succ X (hscale_pos cfg.mode)]
  omega

/-- The row of a line that shows logical row `L / 2` (R200). -/
theorem sourceRow?_eq {cfg : Cfg} (hv : (modeInfo cfg.mode).vscale = 2) (L : Nat) :
    sourceRow? cfg L =
      if cfg.oy.toNat ≤ L / 2 ∧ L / 2 < cfg.oy.toNat + cfg.h.toNat then some (L / 2 - cfg.oy.toNat) else none := by
  rw [sourceRow?, hv]
  by_cases hin : cfg.oy.toNat ≤ L / 2 ∧ L / 2 < cfg.oy.toNat + cfg.h.toNat
  · rw [if_pos hin, if_neg (by omega)]
  · rw [if_neg hin, if_pos (by omega)]

/-- An active entry of a graphics line needs the bytes of its pixel, if it shows one (R200, R201). -/
theorem entryAddrs_gfx {cfg : Cfg} (hc : (modeInfo cfg.mode).cls ≠ .text) (L X : Nat) :
    entryAddrs cfg L X =
      (sourceRow? cfg L).elim [] fun row => (sourceCol? cfg X).elim [] (pixelAddrs cfg row) := by
  unfold entryAddrs
  split
  · exact absurd ‹_› hc
  · cases sourceRow? cfg L <;> cases sourceCol? cfg X <;> rfl

/-! ### Pixels in groups of `P`, a group in `C` consecutive bytes of its row -/

/-- The first byte of its row that active entry `X` needs. -/
def pixelStart (cfg : Cfg) (C P X : Nat) : Nat := (sourceCol? cfg X).elim 0 fun col => C * (col / P)

/-- The number of bytes that active entry `X` needs. -/
def pixelLen (cfg : Cfg) (C X : Nat) : Nat := (sourceCol? cfg X).elim 0 fun _ => C

/-- The number of bytes of the row that the first `X` active entries need: whole groups of the columns they show. -/
def groupBytes (cfg : Cfg) (C P X : Nat) : Nat := C * ceilDiv (shownCols cfg X) P

theorem groupBytes_zero (cfg : Cfg) (C : Nat) {P : Nat} (hP : 0 < P) : groupBytes cfg C P 0 = 0 := by
  rw [groupBytes, shownCols_zero, ceilDiv_zero hP, Nat.mul_zero]

/-- An entry's group is read already or the next one. -/
theorem pixelStart_le (cfg : Cfg) (C : Nat) {P : Nat} (hP : 0 < P) (X : Nat) :
    pixelStart cfg C P X ≤ groupBytes cfg C P X := by
  unfold pixelStart groupBytes
  cases hcol : sourceCol? cfg X with
  | none => exact Nat.zero_le _
  | some col =>
    obtain ⟨-, hbefore, -, -⟩ := shownCols_of_some hcol
    exact Nat.mul_le_mul_left C ((Nat.div_le_div_right hbefore).trans (div_le_ceilDiv _ hP))

theorem groupBytes_succ (cfg : Cfg) (C : Nat) {P : Nat} (hP : 0 < P) (X : Nat) :
    groupBytes cfg C P (X + 1) = max (groupBytes cfg C P X) (pixelStart cfg C P X + pixelLen cfg C X) := by
  unfold pixelStart pixelLen groupBytes
  cases hcol : sourceCol? cfg X with
  | none => rw [shownCols_succ_of_none hcol]; exact (Nat.max_eq_left (Nat.zero_le _)).symm
  | some col =>
    obtain ⟨-, -, hupto, hshown⟩ := shownCols_of_some hcol
    have hgroups : ceilDiv (shownCols cfg X) P ≤ col / P + 1 :=
      (ceilDiv_le_ceilDiv hupto P).trans (ceilDiv_succ col hP).le
    rw [hshown, ceilDiv_succ col hP]
    exact (Nat.max_eq_right (Nat.mul_le_mul_left C hgroups)).symm

/-- A row of at most 4095 pixels stays far below 2^32 bytes. -/
theorem pixelEnd_le (cfg : Cfg) {C : Nat} (hC : C ≤ 4) (P X : Nat) :
    pixelStart cfg C P X + pixelLen cfg C X ≤ 2 ^ 32 := by
  unfold pixelStart pixelLen
  cases hcol : sourceCol? cfg X with
  | none => exact Nat.zero_le _
  | some col =>
    obtain ⟨hw, -⟩ := shownCols_of_some hcol
    have hgroup : col / P ≤ 4096 := (Nat.div_le_self col P).trans (by omega)
    have hbytes : C * (col / P) ≤ 4 * 4096 := Nat.mul_le_mul hC hgroup
    dsimp only [Option.elim]
    omega

/-- Inside the image a line reads the groups of the columns it shows, from the first on, elsewhere nothing (R72, R201). -/
theorem lineReads_gfx {cfg : Cfg} {C P : Nat} {rowBase : Nat → Addr} (hc : (modeInfo cfg.mode).cls ≠ .text)
    (hv : (modeInfo cfg.mode).vscale = 2) (hP : 0 < P) (hC : C ≤ 4)
    (hpix : ∀ row col, pixelAddrs cfg row col = bytesFrom (rowBase row) (C * (col / P)) C) (L : Nat) :
    lineReads cfg L =
      if cfg.oy.toNat ≤ L / 2 ∧ L / 2 < cfg.oy.toNat + cfg.h.toNat then
        bytesFrom (rowBase (L / 2 - cfg.oy.toNat)) 0 (groupBytes cfg C P 640)
      else [] := by
  have hrow := sourceRow?_eq hv L
  split_ifs at hrow ⊢ with hin
  · refine lineReads_of_runs (groupBytes_zero cfg C hP) (fun X => ?_) (pixelStart_le cfg C hP) (groupBytes_succ cfg C hP)
      fun X _ => pixelEnd_le cfg hC P X
    rw [entryAddrs_gfx hc, hrow, pixelStart, pixelLen]
    cases sourceCol? cfg X with
    | none => rfl
    | some col => exact hpix _ col
  · exact lineReads_of_nil fun X => by rw [entryAddrs_gfx hc, hrow]; rfl

/-! ### The classes -/

/-- A linear pixel has a byte of its own (R214). -/
theorem pixelAddrs_linear {cfg : Cfg} (hc : (modeInfo cfg.mode).cls = .linear8) (row col : Nat) :
    pixelAddrs cfg row col = bytesFrom (addrAt cfg.fbPtr (row * cfg.w.toNat)) (1 * (col / 1)) 1 := by
  rw [pixelAddrs, hc, bytesFrom_succ, bytesFrom_zero, addrAt_addrAt, Nat.div_one, Nat.one_mul]
  rfl

/-- `8 / bpp` packed pixels share a byte (R204). -/
theorem pixelAddrs_packed {cfg : Cfg} {bpp : Nat} (hc : (modeInfo cfg.mode).cls = .packed bpp) (row col : Nat) :
    pixelAddrs cfg row col =
      bytesFrom (addrAt cfg.fbPtr (row * ceilDiv (cfg.w.toNat * bpp) 8)) (1 * (col / (8 / bpp))) 1 := by
  rw [pixelAddrs, hc, bytesFrom_succ, bytesFrom_zero, addrAt_addrAt, Nat.one_mul]
  rfl

/-- Eight planar pixels share a group of four bytes, plane 0 to plane 3 (R210). -/
theorem pixelAddrs_planar {cfg : Cfg} (hc : (modeInfo cfg.mode).cls = .planar) (row col : Nat) :
    pixelAddrs cfg row col = bytesFrom (addrAt cfg.fbPtr (4 * (row * ceilDiv cfg.w.toNat 8))) (4 * (col / 8)) 4 := by
  have hbase : planarBase cfg row col = addrAt (addrAt cfg.fbPtr (4 * (row * ceilDiv cfg.w.toNat 8))) (4 * (col / 8)) := by
    rw [planarBase, addrAt_addrAt, Nat.mul_add]
  simp only [pixelAddrs, hc, hbase, bytesFrom_succ, bytesFrom_zero, ← addrAt_add_ofNat, BitVec.add_assoc]
  rfl

/-- Settles O51: a pixel is a byte, so the bytes are the columns. -/
theorem linearLineReadsItsVisibleColumns : Obligations.LinearLineReadsItsVisibleColumns := by
  intro cfg L hm
  have hc : (modeInfo cfg.mode).cls = .linear8 := by rw [hm]; rfl
  have hcols : groupBytes cfg 1 1 640 = min cfg.w.toNat (320 - cfg.ox.toNat) := by
    simp [groupBytes, shownCols, ceilDiv, hm, modeInfo]
  have hreads := lineReads_gfx (by rw [hc]; decide) (by rw [hm]; rfl) Nat.one_pos (by decide) (pixelAddrs_linear hc) L
  rw [hcols] at hreads
  constructor
  · rw [hreads]
    split_ifs
    · simp only [bytesFrom_addrAt, List.length_map, List.length_range]
      omega
    · exact Nat.zero_le _
  · rw [hreads, bytesFrom_addrAt]

/-- Whole bytes of `8 / bpp` pixels are the bits of the pixels in whole bytes (R204). -/
theorem ceilDiv_pixels_per_byte {bpp : Nat} (hb : bpp = 1 ∨ bpp = 2 ∨ bpp = 4) (n : Nat) :
    ceilDiv n (8 / bpp) = (n * bpp + 7) / 8 := by
  rcases hb with rfl | rfl | rfl <;> simp only [ceilDiv] <;> omega

/-- A run of four bytes to a group is its groups, plane 0 to plane 3 in each. -/
theorem bytesFrom_groups (base : Addr) (G : Nat) :
    bytesFrom base 0 (4 * G) = (List.range G).flatMap fun g => bytesFrom (addrAt base (4 * g)) 0 4 := by
  induction G with
  | zero => rfl
  | succ G ih =>
    have happ := bytesFrom_append base 0 (4 * G) 4
    rw [Nat.zero_add] at happ
    rw [List.range_succ, List.flatMap_append, List.flatMap_singleton, ← ih, ← bytesFrom_shift, happ, Nat.mul_succ]

/-- Settles O60: the groups of a packed line are its bytes, those of a planar line its four planes. -/
theorem packedAndPlanarLinesReadTheirVisibleBytes : Obligations.PackedAndPlanarLinesReadTheirVisibleBytes := by
  constructor
  · intro cfg L bpp columns hmode
    have hfacts : (modeInfo cfg.mode).cls = .packed bpp ∧ (modeInfo cfg.mode).vscale = 2 ∧
        (bpp = 1 ∨ bpp = 2 ∨ bpp = 4) ∧ shownCols cfg 640 = min cfg.w.toNat (columns - cfg.ox.toNat) := by
      rcases hmode with ⟨hm, rfl, rfl⟩ | ⟨hm, rfl, rfl⟩ | ⟨hm, rfl, rfl⟩ | ⟨hm, rfl, rfl⟩ <;>
        simp [hm, modeInfo, shownCols, ceilDiv]
    obtain ⟨hc, hv, hbpp, hshown⟩ := hfacts
    have hP : 0 < 8 / bpp := by rcases hbpp with rfl | rfl | rfl <;> decide
    rw [lineReads_gfx (by simp [hc]) hv hP (by decide) (pixelAddrs_packed hc) L, groupBytes, Nat.one_mul, hshown,
      ceilDiv_pixels_per_byte hbpp, bytesFrom_addrAt]
    rfl
  · intro cfg L hm
    have hc : (modeInfo cfg.mode).cls = .planar := by rw [hm]; rfl
    have hshown : shownCols cfg 640 = min cfg.w.toNat (320 - cfg.ox.toNat) := by
      simp [shownCols, ceilDiv, hm, modeInfo]
    rw [lineReads_gfx (by simp [hc]) (by rw [hm]; rfl) (by decide) (by decide) (pixelAddrs_planar hc) L, groupBytes,
      hshown, bytesFrom_groups]
    simp only [addrAt_addrAt, bytesFrom_addrAt, ← Nat.mul_add]
    rfl

end Sys2Proof.Machine
end

section
/-! SUPPORT. Command words (R118 to R121): a word decodes to a command exactly when its opcode and its operand fields
are that command's, and exactly then the word without its reserved bits is the command's word. -/

namespace Sys2Proof

/-- A word read in the format of a given command: that command with the operands the word has in its fields (R119). -/
def Instr.readFrom (w : Word64) : Instr → Instr
  | .init => .init
  | .setMode _ => .setMode (w.extractLsb' 0 8)
  | .setPalette _ _ => .setPalette (w.extractLsb' 24 8) (w.extractLsb' 0 24)
  | .setBackground _ => .setBackground (w.extractLsb' 0 24)
  | .setBuffer _ _ _ => .setBuffer (w.extractLsb' 24 32) (w.extractLsb' 12 12) (w.extractLsb' 0 12)
  | .setOffset _ _ => .setOffset (w.extractLsb' 12 12) (w.extractLsb' 0 12)
  | .setTextbuffer _ => .setTextbuffer (w.extractLsb' 0 32)

/-- A word with a command's opcode is that command, with the operands the word has in its fields (R120). -/
theorem decode_of_opcode {w : Word64} {i : Instr} (h : w.extractLsb' 56 8 = opcodeOf i) :
    decode w = .ok (i.readFrom w) := by
  cases i <;> simp only [decode, opcodeField, h] <;> rfl

/-- A word decodes to a command exactly when it has the command's opcode and, in its fields, its operands. -/
theorem decode_eq_ok_iff (w : Word64) (i : Instr) :
    decode w = .ok i ↔ w.extractLsb' 56 8 = opcodeOf i ∧ i.readFrom w = i := by
  constructor
  · intro h
    rcases decode_cases w with ⟨ho, hd⟩ | ⟨ho, hd⟩ | ⟨ho, hd⟩ | ⟨ho, hd⟩ | ⟨ho, hd⟩ | ⟨ho, hd⟩ | ⟨ho, hd⟩ | ⟨_, hd⟩ <;>
      rw [hd] at h <;> cases h <;> exact ⟨ho, rfl⟩
  · rintro ⟨ho, hr⟩
    rw [decode_of_opcode ho, hr]

/-- The fields of a command's word hold its operands (R119). -/
theorem readFrom_encode (i : Instr) : i.readFrom (encode i) = i := by
  cases i <;> simp only [encode, Instr.readFrom, BitVec.extractLsb'_append_eq_ite] <;> simp

/-- A mask that covers a field keeps it. -/
theorem extractLsb'_and_of_allOnes (w : Word64) {m : Word64} {start len : Nat}
    (h : m.extractLsb' start len = BitVec.allOnes len) : (w &&& m).extractLsb' start len = w.extractLsb' start len := by
  rw [BitVec.extractLsb'_and, h, BitVec.and_allOnes]

theorem readFrom_and_fieldMask (w : Word64) (i : Instr) : i.readFrom (w &&& fieldMask i) = i.readFrom w := by
  cases i <;> simp (disch := decide) only [Instr.readFrom, fieldMask, extractLsb'_and_of_allOnes]

theorem opcode_and_fieldMask (w : Word64) (i : Instr) :
    (w &&& fieldMask i).extractLsb' 56 8 = w.extractLsb' 56 8 := by
  cases i <;> simp (disch := decide) only [fieldMask, extractLsb'_and_of_allOnes]

/-- The opcode and reserved bits of every command's word, from the lemma of each command. -/
theorem encodedFields (i : Instr) : Laws.EncodedFields.Statement i := by
  cases i with
  | init => exact Laws.EncodedFields.init
  | setMode mode => exact Laws.EncodedFields.setMode mode
  | setPalette index rgb => exact Laws.EncodedFields.setPalette index rgb
  | setBackground rgb => exact Laws.EncodedFields.setBackground rgb
  | setBuffer ptr width height => exact Laws.EncodedFields.setBuffer ptr width height
  | setOffset x y => exact Laws.EncodedFields.setOffset x y
  | setTextbuffer ptr => exact Laws.EncodedFields.setTextbuffer ptr

/-- A word with a command's opcode is, off the reserved bits, the word of the command read from it: bit by bit, the mask
keeps the opcode and the operand fields and `encode` has 0 everywhere else. -/
theorem and_fieldMask_of_opcode {w : Word64} {i : Instr} (h : w.extractLsb' 56 8 = opcodeOf i) :
    w &&& fieldMask i = encode (i.readFrom w) := by
  cases i
  all_goals
    simp only [opcodeOf, BitVec.ofNat_eq_ofNat] at h
    simp only [fieldMask, Instr.readFrom, encode, ← h]
    apply BitVec.eq_of_getLsbD_eq
    intro k hk
    simp only [BitVec.getLsbD_append, BitVec.getLsbD_and, BitVec.getLsbD_extractLsb']
    interval_cases k <;> simp

/-- The word of a command has no reserved bit set, so leaving those bits out changes nothing. -/
theorem encode_and_fieldMask (i : Instr) : encode i &&& fieldMask i = encode i := by
  rw [and_fieldMask_of_opcode (encodedFields i).1, readFrom_encode]

/-- A word is a command's word off the reserved bits exactly when it has the command's opcode and its operands. -/
theorem and_fieldMask_eq_encode_iff (w : Word64) (i : Instr) :
    w &&& fieldMask i = encode i ↔ w.extractLsb' 56 8 = opcodeOf i ∧ i.readFrom w = i := by
  constructor
  · intro h
    rw [← opcode_and_fieldMask w i, ← readFrom_and_fieldMask w i, h]
    exact ⟨(encodedFields i).1, readFrom_encode i⟩
  · rintro ⟨hop, hread⟩
    rw [and_fieldMask_of_opcode hop, hread]

/-- Settles O1: both sides say that the word has the command's opcode and operands. -/
theorem decodeAndEncodeAgree : Obligations.DecodeAndEncodeAgree := by
  have key (w : Word64) (i : Instr) : decode w = .ok i ↔ w &&& fieldMask i = encode i := by
    rw [decode_eq_ok_iff, and_fieldMask_eq_encode_iff]
  exact ⟨fun i _ => (key (encode i) i).mpr (encode_and_fieldMask i), key⟩

theorem opcodeOf_bounds (i : Instr) : 1 ≤ (opcodeOf i).toNat ∧ (opcodeOf i).toNat ≤ 7 := by
  cases i <;> simp [opcodeOf]

/-- Only a reserved opcode makes a word no command (R120). -/
theorem decode_eq_error {w : Word64} {e : DecodeError} (h : decode w = .error e) :
    e = .reservedOpcode (w.extractLsb' 56 8) ∧
      ((w.extractLsb' 56 8).toNat = 0 ∨ 8 ≤ (w.extractLsb' 56 8).toNat) := by
  rcases decode_cases w with ⟨_, hd⟩ | ⟨_, hd⟩ | ⟨_, hd⟩ | ⟨_, hd⟩ | ⟨_, hd⟩ | ⟨_, hd⟩ | ⟨_, hd⟩ | ⟨hres, hd⟩ <;>
    rw [hd] at h <;> cases h
  exact ⟨rfl, hres⟩

/-- Settles O2: the opcode of a command is the word's, and an error needs a reserved one. -/
theorem opcodeAloneSelectsTheCommand : Obligations.OpcodeAloneSelectsTheCommand := by
  have hop (w : Word64) (i : Instr) (h : decode w = .ok i) : opcodeOf i = w.extractLsb' 56 8 :=
    ((decode_eq_ok_iff w i).mp h).1.symm
  refine ⟨hop, fun w => ⟨?_, fun hrange => ?_⟩, fun w e => decode_eq_error⟩
  · rintro ⟨i, hi⟩
    exact hop w i hi ▸ opcodeOf_bounds i
  · cases hd : decode w with
    | ok i => exact ⟨i, rfl⟩
    | error e =>
      obtain ⟨_, hres⟩ := decode_eq_error hd
      omega

/-- Settles O3: each word has the opcode and the operands of its command; the last differs from the second only in
reserved bits (R121 (d)). -/
theorem writtenWordsDecode : Obligations.WrittenWordsDecode := by
  simp only [Obligations.WrittenWordsDecode, decode_eq_ok_iff]
  decide

/-! ## Calls (R125) -/

/-- A number that fits a field is the value of exactly one operand. -/
theorem toNat_eq_iff_of_fits {v n : Nat} (h : n < 2 ^ v) (a : BitVec v) : a.toNat = n ↔ BitVec.ofNat v n = a := by
  rw [← BitVec.toNat_inj, BitVec.toNat_ofNat, Nat.mod_eq_of_lt h, eq_comm]

/-- Settles O4: an argument that fits its field is the value of the one operand the call assembles it to. -/
theorem callsAssembleToTheirCommands : Obligations.CallsAssembleToTheirCommands := by
  refine ⟨rfl, ?mode, rfl, ?palette, ?background, ?buffer, ?offset, ?textbuffer⟩
  all_goals
    intros
    simp only [Call.assemble, Call.wellFormed, Option.ite_none_right_eq_some, Option.some.injEq, decide_eq_true_eq,
      Bool.and_eq_true, and_assoc]
  case mode =>
    exact and_congr_right fun hn => by simp [toNat_eq_iff_of_fits hn, eq_comm]
  case palette =>
    exact and_congr_right fun ha => and_congr_right fun hc => by
      simp [toNat_eq_iff_of_fits ha, toNat_eq_iff_of_fits hc, eq_comm]
  case background =>
    exact and_congr_right fun hc => by simp [toNat_eq_iff_of_fits hc, eq_comm]
  case buffer =>
    exact and_congr_right fun hp => and_congr_right fun hw => and_congr_right fun hh => by
      simp [toNat_eq_iff_of_fits hp, toNat_eq_iff_of_fits hw, toNat_eq_iff_of_fits hh, eq_comm]
  case offset =>
    exact and_congr_right fun hx => and_congr_right fun hy => by
      simp [toNat_eq_iff_of_fits hx, toNat_eq_iff_of_fits hy, eq_comm]
  case textbuffer =>
    exact and_congr_right fun hp => by simp [toNat_eq_iff_of_fits hp, eq_comm]

end Sys2Proof

namespace Sys2Proof.Machine

/-! ## Taking a word from the port -/

/-- A word with a reserved opcode on the port is taken and nothing else happens (R121 (a)). -/
theorem takeWord_error {run : Instr → State → Host.Outcome State Fault Refusal} {s : State} {e : DecodeError}
    (hp : s.hostPend = []) (hv : s.ports.cmdValid = true) (hr : s.ports.rst = false)
    (hd : decode s.ports.cmd = .error e) : takeWord run s = .next s.takeCommand := by
  simp [takeWord, s.commandReady_iff.mpr ⟨hv, hp⟩, hr, hd]

/-- A step whose event is the taking of a command takes the word on the port (R75, R118). -/
theorem step_command {s : State} {rest : List Event} (h : s.sched = .command :: rest) :
    step s = takeWord exec (s.atSchedule rest (s.now + 1)) := by
  rw [step_eq, nextEvent_cons h]
  rfl

/-- Settles O26: the word is taken off the port and the decoded command runs. -/
theorem stepRunsTheDecodedCommand : Obligations.StepRunsTheDecodedCommand := by
  intro s i rest hs hp hv hr hd
  exact (step_command hs).trans (takeWord_ok (s := s.atSchedule rest (s.now + 1)) hp hv hr hd)

/-- Settles O27: the word is taken off the port and nothing runs. -/
theorem reservedOpcodeChangesNothing : Obligations.ReservedOpcodeChangesNothing := by
  intro s e rest hs hp hv hr hd
  exact (step_command hs).trans (takeWord_error (s := s.atSchedule rest (s.now + 1)) hp hv hr hd)

end Sys2Proof.Machine
end

section
/-! SUPPORT. The serialised word (R92 to R99, R247): the place of every data bit, the structural bits, the differential
pairs and the order on the wire. -/

namespace Sys2Proof.Machine

/-! ## Places: code bit, pair slot and pair bit -/

/-- A data bit of a word lies in one unit, pair slot and pair bit (R93, R96). -/
theorem exists_place {k : Nat} (h : k < 30 ∨ (32 ≤ k ∧ k < 62)) :
    ∃ n slot j, n < 10 ∧ slot < 3 ∧ j < 2 ∧ unitLow n + 2 * slot + j = k := by
  rcases h with h | ⟨h, h'⟩
  · exact ⟨k / 6, k % 6 / 2, k % 2, by omega, by omega, by omega, by rw [unitLow, if_pos (by omega)]; omega⟩
  · exact ⟨(k - 2) / 6, (k - 2) % 6 / 2, k % 2, by omega, by omega, by omega,
      by rw [unitLow, if_neg (by omega)]; omega⟩

/-- Different units, pair slots or pair bits are different places. -/
theorem place_inj {n slot j n' slot' j' : Nat} (hs : slot < 3) (hj : j < 2) (hs' : slot' < 3) (hj' : j' < 2)
    (h : unitLow n + 2 * slot + j = unitLow n' + 2 * slot' + j') : n = n' ∧ slot = slot' ∧ j = j' := by
  unfold unitLow at h
  split at h <;> split at h <;> omega

theorem place_data {n m : Nat} (hn : n < 10) (hm : m < 6) :
    unitLow n + m < 30 ∨ (32 ≤ unitLow n + m ∧ unitLow n + m < 62) := by
  unfold unitLow
  split <;> omega

theorem pairSlot_lt (p : Params) (c : Channel) : pairSlot p c < 3 := by
  unfold pairSlot
  cases c <;> cases p.chOrder <;> decide

theorem pairSlot_inj {p : Params} {c c' : Channel} (h : pairSlot p c = pairSlot p c') : c = c' := by
  unfold pairSlot at h
  cases c <;> cases c' <;> cases ho : p.chOrder <;> simp [ho] at h ⊢

/-- Every pair slot of a unit belongs to a channel (R96). -/
theorem exists_pairSlot (p : Params) {slot : Nat} (h : slot < 3) : ∃ c, pairSlot p c = slot := by
  cases ho : p.chOrder with
  | rgb =>
    interval_cases slot
    · exact ⟨.blue, by simp [pairSlot, ho]⟩
    · exact ⟨.green, rfl⟩
    · exact ⟨.red, by simp [pairSlot, ho]⟩
  | bgr =>
    interval_cases slot
    · exact ⟨.red, by simp [pairSlot, ho]⟩
    · exact ⟨.green, rfl⟩
    · exact ⟨.blue, by simp [pairSlot, ho]⟩

/-! ## The bits of a serialised word -/

/-- Within a unit, the pair of a channel carries the channel's code bit (R95, R96). -/
theorem getLsbD_pinUnit_pair (p : Params) (r g b : Code) (c : Channel) (n : Nat) {j : Nat} (hj : j < 2) :
    (pinUnit p (r.getLsbD n) (g.getLsbD n) (b.getLsbD n)).getLsbD (2 * pairSlot p c + j) =
      ((codeOf r g b c).getLsbD n ^^ decide (j = 1) ^^ p.pairInvert) := by
  obtain rfl | rfl : j = 0 ∨ j = 1 := by omega
  all_goals cases c <;> cases ho : p.chOrder <;> simp [getElem_pinUnit, getElem_pair, pairSlot, codeOf, ho]

/-- The unit of code bit `n` stands at `lo(n)` (R93). -/
theorem getLsbD_ser_unit (p : Params) (r g b : Code) {n m : Nat} (hn : n < 10) (hm : m < 6) :
    (ser p r g b).getLsbD (unitLow n + m) = (pinUnit p (r.getLsbD n) (g.getLsbD n) (b.getLsbD n)).getLsbD m := by
  rw [getLsbD_ser, unitLow]
  split
  · have hdiv : (6 * n + m) / 6 = n := by omega
    have hmod : (6 * n + m) % 6 = m := by omega
    rw [if_pos (by omega), hdiv, hmod]
  · have hdiv : (6 * n + 2 + m - 2) / 6 = n := by omega
    have hmod : (6 * n + 2 + m - 2) % 6 = m := by omega
    rw [if_neg (by omega), if_neg (by omega), if_pos (by omega), hdiv, hmod]

/-- The closed form of a data bit of a word (R97). -/
theorem getLsbD_ser_place (p : Params) (r g b : Code) (c : Channel) {n j : Nat} (hn : n < 10) (hj : j < 2) :
    (ser p r g b).getLsbD (unitLow n + 2 * pairSlot p c + j) =
      ((codeOf r g b c).getLsbD n ^^ decide (j = 1) ^^ p.pairInvert) := by
  have hslot := pairSlot_lt p c
  rw [Nat.add_assoc, getLsbD_ser_unit p r g b hn (by omega), getLsbD_pinUnit_pair p r g b c n hj]

/-- Settles O7: the place of a data bit names its unit, pair slot and pair bit, and the slot names its channel. -/
theorem serialisedBitPlacement : Obligations.SerialisedBitPlacement := by
  refine ⟨fun p r g b c n j hn hj => getLsbD_ser_place p r g b c hn hj, fun p k hk => ?_⟩
  obtain ⟨n, slot, j, hn, hslot, hj, hplace⟩ := exists_place hk
  obtain ⟨c, rfl⟩ := exists_pairSlot p hslot
  refine ⟨c, n, j, hn, hj, hplace, fun c' n' j' _ hj' hplace' => ?_⟩
  obtain ⟨hn', hc', hj'⟩ := place_inj (pairSlot_lt p c') hj' hslot hj (hplace'.trans hplace.symm)
  exact ⟨pairSlot_inj hc', hn', hj'⟩

/-! ## Data bits and structural bits -/

/-- The data mask has exactly the data bits set (R94). -/
theorem getLsbD_dataMask {k : Nat} (h : k < 64) :
    (0x3FFFFFFF3FFFFFFF : Word64).getLsbD k = true ↔ k < 30 ∨ (32 ≤ k ∧ k < 62) := by
  revert k
  decide

/-- The bits of a serialised word that are not data bits are 0 (R94). -/
theorem getLsbD_ser_structural (p : Params) (r g b : Code) {k : Nat} (h : ¬ (k < 30 ∨ (32 ≤ k ∧ k < 62))) :
    (ser p r g b).getLsbD k = false := by
  rw [getLsbD_ser, if_neg (by omega)]
  split
  · rfl
  · rw [if_neg (by omega)]

/-- The structural mask, the complement of the data mask, meets no bit of a serialised word (R94). -/
theorem ser_and_structural (p : Params) (r g b : Code) : ser p r g b &&& 0xC0000000C0000000 = 0 := by
  have hmask : (0xC0000000C0000000 : Word64) = ~~~0x3FFFFFFF3FFFFFFF := by decide
  apply BitVec.eq_of_getLsbD_eq
  intro k hk
  rw [hmask, BitVec.getLsbD_and, BitVec.getLsbD_not]
  by_cases hdata : k < 30 ∨ (32 ≤ k ∧ k < 62)
  · rw [(getLsbD_dataMask hk).mpr hdata]
    simp
  · simp [getLsbD_ser_structural p r g b hdata]

theorem xor_and_distrib {n : Nat} (x y m : BitVec n) : (x ^^^ y) &&& m = (x &&& m) ^^^ (y &&& m) :=
  BitVec.eq_of_getElem_eq (by simp [Bool.and_xor_distrib_right])

/-- A control word is a serialised word (R157). -/
theorem ctlWord_eq_ser (p : Params) (h v : Bool) : ∃ r g b, ctlWord p h v = ser p r g b := by
  unfold ctlWord
  cases p.syncChannel <;> exact ⟨_, _, _, rfl⟩

/-- Settles O8: a word is a serialised word, or, in the secondary slot of an entry, one with data bits flipped. -/
theorem structuralBitsAreZero : Obligations.StructuralBitsAreZero := by
  refine ⟨fun k hk => getLsbD_dataMask hk, ser_and_structural, fun p h v => ?_, fun c => ?_⟩
  · obtain ⟨r, g, b, hw⟩ := ctlWord_eq_ser p h v
    rw [hw, ser_and_structural]
  · have hw0 : (entry Config.hw c).w0 &&& 0xC0000000C0000000 = 0 := ser_and_structural _ _ _ _
    have hmask : Config.hw.invMask &&& 0xC0000000C0000000 = 0 := by decide
    have hw1 : (entry Config.hw c).w1 = (entry Config.hw c).w0 ^^^ Config.hw.invMask := rfl
    refine ⟨hw0, ?_⟩
    rw [hw1, xor_and_distrib, hw0, hmask]
    rfl

/-! ## Differential pairs -/

/-- The two bits of a pair of a serialised word are complements (R98). -/
theorem ser_pair_complement (p : Params) (r g b : Code) {n slot : Nat} (hn : n < 10) (hs : slot < 3) :
    (ser p r g b).getLsbD (unitLow n + 2 * slot + 1) = !(ser p r g b).getLsbD (unitLow n + 2 * slot) := by
  obtain ⟨c, rfl⟩ := exists_pairSlot p hs
  have hlow := getLsbD_ser_place p r g b c hn (j := 0) (by decide)
  rw [Nat.add_zero] at hlow
  rw [hlow, getLsbD_ser_place p r g b c hn (by decide)]
  simp

/-- Settles O9: `INV_MASK` has every data bit set, so it flips both bits of a pair. -/
theorem pairBitsAreComplements : Obligations.PairBitsAreComplements := by
  intro p r g b n slot hn hs
  have hser := ser_pair_complement p r g b hn hs
  have hmask {m : Nat} (hm : m < 6) : Config.hw.invMask.getLsbD (unitLow n + m) = true := by
    have hdata := place_data hn hm
    exact (getLsbD_dataMask (by omega)).mpr hdata
  have hlow := hmask (m := 2 * slot) (by omega)
  have hhigh := hmask (m := 2 * slot + 1) (by omega)
  rw [← Nat.add_assoc] at hhigh
  refine ⟨hser, ?_⟩
  rw [BitVec.getLsbD_xor, BitVec.getLsbD_xor, hlow, hhigh, hser, Bool.not_xor]

/-! ## The wire -/

/-- Unit `n` on the wire is the six bits from `lo(n)` on (R99). -/
theorem units_getElem? (w : Word64) {n : Nat} (hn : n < 10) : (units w)[n]? = some (w.extractLsb' (unitLow n) 6) := by
  interval_cases n <;> rfl

/-- Settles O11: the six bits from `lo(n)` on are the unit of code bit `n`. -/
theorem wireSendsLowCodeBitFirst : Obligations.WireSendsLowCodeBitFirst := by
  refine fun p r g b => ⟨rfl, fun n hn => ?_⟩
  rw [units_getElem? _ hn, Option.some.injEq]
  apply BitVec.eq_of_getLsbD_eq
  intro m hm
  rw [BitVec.getLsbD_extractLsb', getLsbD_ser_unit p r g b hn hm]
  simp [hm]

end Sys2Proof.Machine
end

section
/-! SUPPORT. The codes of the Signal Encoder (R131 to R134): the chain, the sink that undoes it, the two branches, and
the counts of ones in codes and words. -/

namespace Sys2Proof.Machine

/-! ## Counting ones -/

/-- The ones of a value are those of its two parts. -/
theorem popcount_append {m n : Nat} (x : BitVec m) (y : BitVec n) : popcount (x ++ y) = popcount x + popcount y := by
  have hhigh : (fun i => (x ++ y).getLsbD i) ∘ (fun i => n + i) = fun i => x.getLsbD i := by
    funext i
    simp [BitVec.getLsbD_append]
  have hlow : (List.range n).countP (fun i => (x ++ y).getLsbD i) = popcount y :=
    List.countP_congr fun i hi => by rw [BitVec.getLsbD_append, if_pos (List.mem_range.mp hi)]
  have hrange : List.range (m + n) = List.range n ++ (List.range m).map (n + ·) := by
    rw [Nat.add_comm, List.range_add]
  rw [popcount, hrange, List.countP_append, List.countP_map, hhigh, hlow, Nat.add_comm, ← popcount]

/-- Each bit is 1 in a value or in its complement. -/
theorem popcount_add_popcount_not {n : Nat} (v : BitVec n) : popcount v + popcount (~~~v) = n := by
  have hzeros : popcount (~~~v) = (List.range n).countP fun i => decide ¬ v.getLsbD i = true :=
    List.countP_congr fun i hi => by simp [List.mem_range.mp hi]
  rw [hzeros, popcount, ← List.length_eq_countP_add_countP, List.length_range]

theorem popcount_le {n : Nat} (v : BitVec n) : popcount v ≤ n :=
  List.countP_le_length.trans_eq List.length_range

/-! ## The chain and the code (R131) -/

/-- The chain of a byte as a value: the encoded bits before the complement at the end (R132). -/
def chain (d : Byte) : Byte := bitsOf 8 (chainBit (encInverted d) d)

theorem enc_eq (d : Byte) : enc d = if encInverted d then 0b10#2 ++ ~~~chain d else 0b01#2 ++ chain d := rfl

/-- Settles O5: the chain starts at the low bit and each further bit takes the one before it. -/
theorem encodeChannelFollowsTheChain : Obligations.EncodeChannelFollowsTheChain := by
  intro d ones inv
  have hones : ones = popcount d := List.countP_eq_length_filter.symm
  have hinv : inv = encInverted d := by simp only [inv, hones, encInverted]
  rw [hinv]
  have hchain {i : Nat} (hi : i < 8) : (chain d).getLsbD i = chainBit (encInverted d) d i := by simp [chain, hi]
  refine ⟨chain d, hchain (by decide), fun i hi => ?_, enc_eq d⟩
  rw [hchain (by omega), hchain (by omega), chainBit]

/-! ## The sink's inverse of the encoder (R136) -/

/-- The byte a sink recovers from a code: bit 9 undoes the complement of bits 7:0 and selects the kind of chain, and each
data bit is the step from the chain bit before it. -/
def byteOfCode (c : Code) : Byte :=
  bitsOf 8 fun
    | 0 => c.getLsbD 0 ^^ c.getLsbD 9
    | i + 1 => c.getLsbD (i + 1) ^^ c.getLsbD i ^^ c.getLsbD 9

/-- A sink recovers the byte from its code (R136). -/
theorem byteOfCode_enc (d : Byte) : byteOfCode (enc d) = d := by
  apply BitVec.eq_of_getLsbD_eq
  intro i hi
  cases i with
  | zero =>
    simp only [byteOfCode, getLsbD_bitsOf, getLsbD_enc, chainBit]
    simp
  | succ i =>
    have hi' : i < 8 := by omega
    simp only [byteOfCode, getLsbD_bitsOf, getLsbD_enc, chainBit, hi, hi']
    cases encInverted d <;> cases chainBit _ d i <;> simp

/-- A code the sink's byte does not encode to is no code of the encoder. -/
theorem enc_ne {c : Code} (h : enc (byteOfCode c) ≠ c) (d : Byte) : enc d ≠ c := by
  rintro rfl
  exact h (congrArg enc (byteOfCode_enc d))

/-! ## The balance bits and the two branches -/

/-- The balance bits say which branch was taken (R90). -/
theorem enc_balanceBits (d : Byte) : (enc d).extractLsb' 8 2 = if encInverted d then 0b10#2 else 0b01#2 := by
  rw [enc_eq]
  split <;> exact BitVec.extractLsb'_append_eq_left

/-- One balance bit is 1, so a code has from one to nine ones. -/
theorem popcount_enc_bounds (d : Byte) : 1 ≤ popcount (enc d) ∧ popcount (enc d) ≤ 9 := by
  obtain ⟨top, low, hcode, hone⟩ : ∃ (top : BitVec 2) (low : Byte), enc d = top ++ low ∧ popcount top = 1 := by
    rw [enc_eq]
    split <;> exact ⟨_, _, rfl, rfl⟩
  have hlow := popcount_le low
  have hsum := popcount_append top low
  rw [← hcode] at hsum
  omega

/-- A byte and its complement take different branches: one has more ones than the other, or both have four and their low
bits differ. -/
theorem encInverted_not (d : Byte) : encInverted (~~~d) = !encInverted d := by
  have hsum := popcount_add_popcount_not d
  have hlow : (~~~d).getLsbD 0 = !d.getLsbD 0 := by simp
  unfold encInverted
  rw [hlow]
  rcases Nat.lt_trichotomy (popcount d) 4 with h | h | h
  · simp [show 4 < popcount (~~~d) by omega, show ¬ 4 < popcount d by omega, h.ne]
  · simp [show popcount (~~~d) = 4 by omega, h]
  · simp [show ¬ 4 < popcount (~~~d) by omega, show popcount (~~~d) ≠ 4 by omega, h]

/-- A property that holds of exactly one of `i` and its mirror image holds of half of a range. -/
theorem two_mul_countP_range {f : Nat → Bool} {n : Nat} (h : ∀ i < n, f (n - 1 - i) = !f i) :
    2 * (List.range n).countP f = n := by
  have hmirror : (List.range n).reverse = (List.range n).map (n - 1 - ·) := by
    rw [List.range_eq_range', List.reverse_range', Nat.zero_add, List.range_eq_range']
  have hrest : (List.range n).countP f = (List.range n).countP fun i => decide ¬ f i = true := by
    rw [← List.countP_reverse, hmirror, List.countP_map]
    exact List.countP_congr fun i hi => by simp [h i (List.mem_range.mp hi)]
  have hall := List.length_eq_countP_add_countP f (l := List.range n)
  rw [List.length_range, ← hrest] at hall
  omega

/-- Counting down from 255 gives the complements of the bytes counted up. -/
theorem ofNat_reflect_byte {n : Nat} (h : n < 256) : BitVec.ofNat 8 (256 - 1 - n) = ~~~BitVec.ofNat 8 n := by
  apply BitVec.eq_of_toNat_eq
  rw [BitVec.toNat_not, BitVec.toNat_ofNat, BitVec.toNat_ofNat]
  omega

/-- Complementing pairs the bytes of one branch with those of the other, so each branch is taken by half of the bytes. -/
theorem countP_balanceBits (inv : Bool) :
    ((List.range 256).countP fun n =>
      (enc (BitVec.ofNat 8 n)).extractLsb' 8 2 == if inv then 0b10#2 else 0b01#2) = 128 := by
  refine Nat.eq_of_mul_eq_mul_left Nat.zero_lt_two (two_mul_countP_range fun n hn => ?_)
  simp only [enc_balanceBits, ofNat_reflect_byte hn, encInverted_not]
  cases encInverted (BitVec.ofNat 8 n) <;> cases inv <;> rfl

/-- Settles O6: the balance bits name the branch, complementing exchanges the branches, and the sink's inverse gives
injectivity and rules out the control codes; only the bytes with five ones are counted one by one. -/
theorem encodedCodesFacts : Obligations.EncodedCodesFacts := by
  refine ⟨fun d => ?_, Function.LeftInverse.injective byteOfCode_enc, countP_balanceBits false, countP_balanceBits true,
    popcount_enc_bounds, rfl, rfl, by decide +kernel, fun d => ⟨?_, ?_, ?_, ?_⟩⟩
  · rw [enc_balanceBits]
    cases encInverted d
    · exact .inl rfl
    · exact .inr rfl
  all_goals exact enc_ne (by decide) d

end Sys2Proof.Machine
end

section
/-! SUPPORT. The serialised word as a function of its codes (R134, R139): every code bit can be read from it, complementing
flips its data bits, and every pair has one 1. -/

namespace Sys2Proof.Machine

/-! ## Words by their data bits (R139) -/

theorem codeOf_not (r g b : Code) (c : Channel) : codeOf (~~~r) (~~~g) (~~~b) c = ~~~codeOf r g b c := by
  cases c <;> rfl

/-- Equal words have equal codes: every code bit stands in the word (R97). -/
theorem codeOf_eq_of_ser_eq {p : Params} {r g b r' g' b' : Code} (h : ser p r g b = ser p r' g' b') (c : Channel) :
    codeOf r g b c = codeOf r' g' b' c := by
  apply BitVec.eq_of_getLsbD_eq
  intro n hn
  have hbit := congrArg (fun w : Word64 => w.getLsbD (unitLow n + 2 * pairSlot p c + 0)) h
  simpa only [getLsbD_ser_place p _ _ _ c hn Nat.zero_lt_two, Bool.xor_left_inj] using hbit

/-- Flipping every code bit or the polarity of the pairs flips exactly the data bits of the word. -/
theorem ser_eq_xor_dataMask {p p' : Params} {r g b r' g' b' : Code} (hord : p'.chOrder = p.chOrder)
    (hflip : ∀ c, ∀ n < 10, ((codeOf r' g' b' c).getLsbD n ^^ p'.pairInvert) =
      !((codeOf r g b c).getLsbD n ^^ p.pairInvert)) :
    ser p' r' g' b' = ser p r g b ^^^ 0x3FFFFFFF3FFFFFFF := by
  have hslot (c : Channel) : pairSlot p' c = pairSlot p c := by simp only [pairSlot, hord]
  apply BitVec.eq_of_getLsbD_eq
  intro k hk
  rw [BitVec.getLsbD_xor]
  by_cases hdata : k < 30 ∨ (32 ≤ k ∧ k < 62)
  · obtain ⟨n, slot, j, hn, hs, hj, rfl⟩ := exists_place hdata
    obtain ⟨c, rfl⟩ := exists_pairSlot p hs
    have hnew := getLsbD_ser_place p' r' g' b' c hn hj
    rw [hslot, Bool.xor_right_comm, hflip c n hn] at hnew
    rw [hnew, getLsbD_ser_place p r g b c hn hj, (getLsbD_dataMask hk).mpr hdata, Bool.xor_true,
      Bool.xor_right_comm _ (decide _), Bool.not_xor]
  · rw [getLsbD_ser_structural _ _ _ _ hdata, getLsbD_ser_structural _ _ _ _ hdata,
      Bool.eq_false_iff.mpr (mt (getLsbD_dataMask hk).mp hdata)]
    rfl

/-- Complementing the codes flips exactly the data bits (R139). -/
theorem ser_not (p : Params) (r g b : Code) : ser p (~~~r) (~~~g) (~~~b) = ser p r g b ^^^ 0x3FFFFFFF3FFFFFFF :=
  ser_eq_xor_dataMask rfl fun c n hn => by simp [codeOf_not, hn]

/-- Settles O10: every code bit stands in the word; the flips are `ser_eq_xor_dataMask`; under the other channel order
each unit holds the same pairs. -/
theorem serialiserAlgebra : Obligations.SerialiserAlgebra := by
  refine ⟨fun p r g b r' g' b' h => ?_, ser_not, fun p r g b => ser_eq_xor_dataMask rfl fun c n _ => by simp,
    fun p r g b => rfl⟩
  exact ⟨codeOf_eq_of_ser_eq h .red, codeOf_eq_of_ser_eq h .green, codeOf_eq_of_ser_eq h .blue⟩

/-! ## DC balance (R134) -/

/-- A pair has one 1 (R95). -/
theorem popcount_pair (p : Params) (x : Bool) : popcount (pair p x) = 1 := by
  unfold pair
  cases p.pairInvert <;> cases x <;> rfl

theorem popcount_pinUnit (p : Params) (r g b : Bool) : popcount (pinUnit p r g b) = 3 := by
  unfold pinUnit
  cases p.chOrder
  all_goals simp only [popcount_append, popcount_pair]

/-- Ten units of three pairs: thirty ones in a serialised word, whatever its codes. -/
theorem popcount_ser (p : Params) (r g b : Code) : popcount (ser p r g b) = 30 := by
  have hzero : popcount 0#2 = 0 := rfl
  unfold ser
  simp only [popcount_append, popcount_pinUnit, hzero]

/-- Settles O12: both words of an entry are serialised words, the secondary one of the complemented codes. -/
theorem paletteEntriesAreBalanced : Obligations.PaletteEntriesAreBalanced := by
  refine ⟨popcount_add_popcount_not, fun c => ⟨popcount_ser _ _ _ _, ?_⟩⟩
  have hw1 : (entry Config.hw c).w1 = ser Config.hw (~~~enc (redOf c)) (~~~enc (greenOf c)) (~~~enc (blueOf c)) :=
    (ser_not _ _ _ _).symm
  rw [hw1, popcount_ser]

end Sys2Proof.Machine
end

section
/-! SUPPORT. The encoded table (41_palette_cache.md): the two words of an entry and the control entries, what the two
palette commands write, and the palette after any sequence of commands. -/

namespace Sys2Proof.Machine

/-! ## The two words of an entry (R151, R152, R158) -/

theorem entry_w0 (p : Params) (c : Rgb) : (entry p c).w0 = ser p (enc (redOf c)) (enc (greenOf c)) (enc (blueOf c)) := rfl

theorem entry_w1 (p : Params) (c : Rgb) : (entry p c).w1 = (entry p c).w0 ^^^ p.invMask := rfl

/-- The hardware's `INV_MASK` is the 60 data bits, so inverting by it complements the three codes. -/
theorem entry_hw_w1_eq_ser (c : Rgb) :
    (entry Config.hw c).w1 = ser Config.hw (~~~enc (redOf c)) (~~~enc (greenOf c)) (~~~enc (blueOf c)) :=
  (ser_not Config.hw _ _ _).symm

/-- Settles O13: complementing the three codes flips exactly the data bits (`ser_not`). -/
theorem secondaryWordIsTheComplement : Obligations.SecondaryWordIsTheComplement :=
  fun c => ⟨entry_w0 Config.hw c, entry_w1 Config.hw c, entry_hw_w1_eq_ser c⟩

theorem ctlEntry_w1 (p : Params) (k : Nat) : (ctlEntry p k).w1 = (ctlEntry p k).w0 := rfl

/-- Settles O14: the four words evaluate to those of the table of R157. -/
theorem controlEntriesTable : Obligations.ControlEntriesTable := by
  refine ⟨?_, ?_, ?_, ?_, ctlEntry_w1 Config.hw⟩
  all_goals decide

/-! ## What a palette command writes (R153, R155) -/

theorem setPaletteWrites_of_val_eq {i : PalIndex} {index : Index} (h : i.val = index.toNat) (c : Rgb) :
    setPaletteWrites index c = paletteWrites i c := by
  rcases palIndex?_cases index with ⟨j, hj, hval⟩ | ⟨-, hge⟩
  · rw [setPaletteWrites, hj, Fin.ext (h.trans hval.symm)]
  · omega

theorem setPaletteWrites_of_ge {index : Index} (h : 251 ≤ index.toNat) (c : Rgb) : setPaletteWrites index c = [] := by
  rcases palIndex?_cases index with ⟨j, -, hval⟩ | ⟨hnone, -⟩
  · omega
  · rw [setPaletteWrites, hnone]

theorem commandWrites_setPalette_indexOfPal (i : PalIndex) (c : Rgb) :
    commandWrites (.setPalette (indexOfPal i) c) = some (paletteWrites i c) :=
  congrArg some (setPaletteWrites_of_val_eq (indexOfPal_toNat i).symm c)

theorem eq_palSlot_iff {k : Fin 256} {i : PalIndex} : k = palSlot i ↔ k.val = i.val := Fin.ext_iff

/-- A command that makes the writes of a palette entry writes its colour and its two words and nothing else. -/
theorem exec_of_paletteWrites {cmd : Instr} {i : PalIndex} {c : Rgb} (hw : commandWrites cmd = some (paletteWrites i c))
    (s : State) :
    ∃ t, exec cmd s = .next t ∧ (∀ j, t.palRgb.get j = if j = i then c else s.palRgb.get j) ∧
      (∀ k : Fin 256, t.tab.get k = if k.val = i.val then entry Config.hw c else s.tab.get k) ∧
      t = { s with palRgb := t.palRgb, tab := t.tab } := by
  refine ⟨_, exec_of_commandWrites hw s, ?_⟩
  rw [State.applyMicros_paletteWrites]
  exact ⟨fun j => Bank.get_set _ i j c, fun k => by simp only [Bank.get_set, eq_palSlot_iff], rfl⟩

/-- Settles O17: an index below 251 is that of a palette entry and one from 251 on makes no micro-write
(`palIndex?_cases`). -/
theorem setPaletteWritesOneEntry : Obligations.SetPaletteWritesOneEntry := by
  refine ⟨commandWrites_setPalette_indexOfPal, fun index c s => ?_⟩
  rcases palIndex?_cases index with ⟨i, -, hval⟩ | ⟨-, hge⟩
  · have hlt : index.toNat < 251 := hval ▸ i.isLt
    have hw : commandWrites (.setPalette index c) = some (paletteWrites i c) :=
      congrArg some (setPaletteWrites_of_val_eq hval c)
    simpa only [Fin.ext_iff, hval, hlt, and_true] using exec_of_paletteWrites hw s
  · have hw : commandWrites (.setPalette index c) = some [] := congrArg some (setPaletteWrites_of_ge hge c)
    refine ⟨s, exec_of_commandWrites hw s, fun j => ?_, fun k => ?_, rfl⟩
    · rw [if_neg (by omega)]
    · rw [if_neg (by omega)]

/-- Settles O18: both commands make the micro-writes of the entry `BG_INDEX`. -/
theorem setBackgroundIsSetPaletteOfBackground : Obligations.SetBackgroundIsSetPaletteOfBackground := by
  intro c s
  have hw : commandWrites (.setBackground c) = some (paletteWrites Config.hw.bgIndex c) := rfl
  refine ⟨?_, exec_of_paletteWrites hw s⟩
  rw [exec_of_commandWrites hw, exec_of_commandWrites (commandWrites_setPalette_indexOfPal _ c)]

/-! ## The palette after a sequence of commands (R154) -/

/-- The colour of a palette entry after a write to entry `j`: the one written if it is `j`, or the old one. -/
theorem palRgb_of_paletteWrites (s : State) (i j : PalIndex) (c : Rgb) :
    (s.applyMicros (paletteWrites j c)).palRgb.get i = (if j = i then some c else none).getD (s.palRgb.get i) := by
  rw [State.applyMicros_paletteWrites, Bank.get_set]
  by_cases h : j = i
  · simp [h]
  · simp [h, Ne.symm h]

/-- The colour of a palette entry after the micro-writes of a command: the one given to it, or the old one. -/
theorem palRgb_of_commandWrites {cmd : Instr} {ws : List MicroWrite} (hw : commandWrites cmd = some ws) (s : State)
    (i : PalIndex) : (s.applyMicros ws).palRgb.get i = (colourGiven i cmd).getD (s.palRgb.get i) := by
  cases cmd <;> simp only [commandWrites, reduceCtorEq, Option.some.injEq] at hw <;> subst hw
  case setMode mode => rcases ofNumber_cases mode with ⟨m, hm, -⟩ | ⟨hm, -⟩ <;> simp only [setModeWrites, hm] <;> rfl
  case setPalette index c =>
    rcases palIndex?_cases index with ⟨j, -, hval⟩ | ⟨-, hge⟩
    · rw [setPaletteWrites_of_val_eq hval, palRgb_of_paletteWrites, colourGiven, ← hval]
      simp only [Fin.ext_iff]
    · have hne : index.toNat ≠ i.val := by omega
      simp [setPaletteWrites_of_ge hge, colourGiven, hne]
  case setBackground c => exact palRgb_of_paletteWrites s i Config.hw.bgIndex c
  all_goals rfl

/-- A completed command gives a palette entry its colour; `INIT` gives none. -/
theorem palRgb_of_exec {cmd : Instr} {s t : State} (he : exec cmd s = .next t) (i : PalIndex) :
    t.palRgb.get i = (colourGiven i cmd).getD (s.palRgb.get i) := by
  rcases exec_cases he with ⟨rfl, -, rfl⟩ | ⟨rfl, -, -, rfl⟩ | ⟨rfl, -, -, rfl⟩ | ⟨ws, hw, rfl⟩
  · rfl
  · rfl
  · rw [State.initSequence_eq]; rfl
  · exact palRgb_of_commandWrites hw s i

/-- A completed command keeps every palette entry the entry of its colour; `INIT` rebuilds them so (R46, R160). -/
theorem State.PaletteMatches.of_exec {s t : State} (h : s.PaletteMatches) {cmd : Instr} (he : exec cmd s = .next t) :
    t.PaletteMatches := by
  rcases exec_cases he with ⟨-, -, rfl⟩ | ⟨-, -, -, rfl⟩ | ⟨-, -, -, rfl⟩ | ⟨ws, hw, rfl⟩
  · exact h
  · exact h
  · rw [State.initSequence_eq]
    exact (palTable_ctrlTable_get Config.hw s.palRgb s.tab).1
  · exact h.of_commandWrites hw

theorem runCommands_cons {cmd : Instr} {s t : State} (he : exec cmd s = .next t) (rest : List Instr) :
    runCommands (cmd :: rest) s = runCommands rest t := by simp only [runCommands, he]

/-- From a state whose palette matches its colours, commands end in such a state, with the last colours given. -/
theorem State.PaletteMatches.of_runCommands {s : State} (h : s.PaletteMatches) (cmds : List Instr) :
    ∃ t, runCommands cmds s = .next t ∧ t.PaletteMatches ∧
      ∀ i, t.palRgb.get i = lastColour i cmds (s.palRgb.get i) := by
  induction cmds generalizing s with
  | nil => exact ⟨s, rfl, h, fun _ => rfl⟩
  | cons cmd rest ih =>
    obtain ⟨u, hu⟩ := exec_next cmd s
    obtain ⟨t, hrun, hpal, hcol⟩ := ih (h.of_exec hu)
    refine ⟨t, (runCommands_cons hu rest).trans hrun, hpal, fun i => ?_⟩
    rw [hcol, palRgb_of_exec hu, lastColour]

/-- Settles O24: at reset every colour is 0x000000 and every palette entry the entry of it. -/
theorem paletteHoldsTheLastColours : Obligations.PaletteHoldsTheLastColours := by
  intro cmds q m
  have hreset : State.PaletteMatches { State.reset with ports := q, mem := m } := State.reset_inv.paletteMatches
  obtain ⟨t, hrun, hpal, hcol⟩ := hreset.of_runCommands cmds
  refine ⟨t, hrun, fun i => ?_⟩
  have hzero : State.reset.palRgb.get i = 0 := State.reset_hasResetValues.colours i
  rw [hpal i, hcol i, hzero]

end Sys2Proof.Machine
end

section
/-! SUPPORT. The configuration commands (42_config_commands.md): the state each one leaves, and which registers the Mode
Decoder reads in a mode of each class. -/

namespace Sys2Proof.Machine

/-! ## SET_MODE (R170, R171) -/

/-- `SET_MODE` of a defined number writes the mode and nothing else (R170). -/
theorem exec_setMode_of_some {mode : BitVec 8} {m : DisplayMode} (h : DisplayMode.ofNumber? mode = some m) (s : State) :
    exec (.setMode mode) s = .next { s with mode := m } := by
  have hw : commandWrites (.setMode mode) = some [.mode m] := by rw [commandWrites, setModeWrites, h]
  exact exec_of_commandWrites hw s

/-- `SET_MODE` of a reserved number makes no micro-write (R171). -/
theorem exec_setMode_of_none {mode : BitVec 8} (h : DisplayMode.ofNumber? mode = none) (s : State) :
    exec (.setMode mode) s = .next s := by
  have hw : commandWrites (.setMode mode) = some [] := by rw [commandWrites, setModeWrites, h]
  exact exec_of_commandWrites hw s

theorem exec_setMode_number (m : DisplayMode) (s : State) : exec (.setMode m.number) s = .next { s with mode := m } :=
  exec_setMode_of_some (ofNumber_number m) s

/-- Settles O16: a number from 8 on denotes no mode (`ofNumber_cases`). -/
theorem reservedModeIsNoOp : Obligations.ReservedModeIsNoOp := by
  intro mode s hge
  rcases ofNumber_cases mode with ⟨-, -, -, hlt⟩ | ⟨hnone, -⟩
  · omega
  · exact exec_setMode_of_none hnone s

/-- A second `SET_MODE` of the same number finds the mode it would write. -/
theorem exec_setMode_twice (mode : BitVec 8) (s : State) :
    ∃ t, exec (.setMode mode) s = .next t ∧ exec (.setMode mode) t = .next t := by
  rcases ofNumber_cases mode with ⟨m, hm, -⟩ | ⟨hnone, -⟩
  · exact ⟨_, exec_setMode_of_some hm s, exec_setMode_of_some hm { s with mode := m }⟩
  · exact ⟨s, exec_setMode_of_none hnone s, exec_setMode_of_none hnone s⟩

/-- Settles O15: a number below 8 is that of its mode (`ofNumber_cases`); the rows of R116 are the eight modes with
their numbers. -/
theorem setModeSelectsTheMode : Obligations.SetModeSelectsTheMode := by
  refine ⟨reservedModeIsNoOp, fun mode s hlt => ?_, exec_setMode_twice, fun s => ?_⟩
  · rcases ofNumber_cases mode with ⟨m, hm, hnum, -⟩ | ⟨-, hge⟩
    · exact ⟨_, exec_setMode_of_some hm s, hnum, rfl⟩
    · omega
  · exact ⟨exec_setMode_number .text80Color s, rfl, exec_setMode_number .text80Mono s, rfl,
      exec_setMode_number .pk1At320x200 s, rfl, exec_setMode_number .pk2At320x200 s, rfl,
      exec_setMode_number .pk4At320x200 s, rfl, exec_setMode_number .pk4At160x200 s, rfl,
      exec_setMode_number .pl4At320x200 s, rfl, exec_setMode_number .lin8At320x200 s, rfl⟩

/-! ## SET_BUFFER, SET_OFFSET and SET_TEXTBUFFER (R172, R174, R176) -/

theorem State.applyMicros_setBufferWrites (s : State) (ptr : Addr) (width height : BitVec 12) :
    s.applyMicros (setBufferWrites ptr width height) =
      { s with fbPtr := ptr, fbWidth := width, fbHeight := height } := by
  simp [setBufferWrites]

theorem State.applyMicros_setOffsetWrites (s : State) (x y : BitVec 12) :
    s.applyMicros (setOffsetWrites x y) = { s with offX := x, offY := y } := by
  simp [setOffsetWrites]

theorem State.applyMicros_setTextbufferWrites (s : State) (ptr : Addr) :
    s.applyMicros (setTextbufferWrites ptr) = { s with textPtr := ptr } := by
  simp [setTextbufferWrites]

/-- Settles O19: each setter makes its own micro-writes and no others (`exec_of_commandWrites`). -/
theorem geometrySettersWriteTheirRegisters : Obligations.GeometrySettersWriteTheirRegisters := by
  refine ⟨fun ptr width height s => ?_, fun x y s => ?_, fun ptr s => ?_⟩
  · rw [exec_of_commandWrites (ws := setBufferWrites ptr width height) rfl, State.applyMicros_setBufferWrites]
  · rw [exec_of_commandWrites (ws := setOffsetWrites x y) rfl, State.applyMicros_setOffsetWrites]
  · rw [exec_of_commandWrites (ws := setTextbufferWrites ptr) rfl, State.applyMicros_setTextbufferWrites]

/-! ## The Mode Decoder by the class of the mode (R191) -/

section
variable {cfg : Cfg} (p : Params) (L : Nat) (rd : Addr → Byte) (X : Nat)

theorem decodePixel_of_text (h : (modeInfo cfg.mode).cls = .text) :
    decodePixel p cfg L rd X = textPixel p cfg L rd X := by
  rw [decodePixel, h]

theorem decodePixel_of_packed {bpp : Nat} (h : (modeInfo cfg.mode).cls = .packed bpp) :
    decodePixel p cfg L rd X = gfxPixel p cfg L (packedPixel bpp cfg rd) X := by
  rw [decodePixel, h]

theorem decodePixel_of_planar (h : (modeInfo cfg.mode).cls = .planar) :
    decodePixel p cfg L rd X = gfxPixel p cfg L (planarPixel cfg rd) X := by
  rw [decodePixel, h]

theorem decodePixel_of_linear8 (h : (modeInfo cfg.mode).cls = .linear8) :
    decodePixel p cfg L rd X = gfxPixel p cfg L (linearPixel cfg rd) X := by
  rw [decodePixel, h]

end

/-! ## What each class reads of the configuration (R199, R200) -/

/-- The configuration with other framebuffer registers: those of `SET_BUFFER` and `SET_OFFSET`. -/
def Cfg.withFramebuffer (cfg : Cfg) (ptr : Addr) (w h ox oy : BitVec 12) : Cfg :=
  { cfg with fbPtr := ptr, w := w, h := h, ox := ox, oy := oy }

/-- The configuration with another text buffer, cursor and blink inputs. -/
def Cfg.withText (cfg : Cfg) (ptr : Addr) (en ph : Bool) (r : BitVec 5) (c : BitVec 7) : Cfg :=
  { cfg with textPtr := ptr, blinkEn := en, blinkPhase := ph, curRow := r, curCol := c }

section
variable (p : Params) (cfg : Cfg) (L X : Nat) (rd : Addr → Byte)

/-- A text cell is found by the text buffer, and drawn by its two bytes, the cursor and the blink inputs (R199). -/
theorem textPixel_withFramebuffer (ptr : Addr) (w h ox oy : BitVec 12) :
    textPixel p (cfg.withFramebuffer ptr w h ox oy) L rd X = textPixel p cfg L rd X := rfl

variable (ptr : Addr) (en ph : Bool) (r : BitVec 5) (c : BitVec 7)

/-- Which pixel of the image an entry shows depends on the mode, the image's size and its offset (R200). -/
theorem gfxPixel_withText (pixel : Nat → Nat → Index) :
    gfxPixel p (cfg.withText ptr en ph r c) L pixel X = gfxPixel p cfg L pixel X := rfl

theorem packedPixel_withText (bpp : Nat) :
    packedPixel bpp (cfg.withText ptr en ph r c) rd = packedPixel bpp cfg rd := rfl

theorem planarPixel_withText : planarPixel (cfg.withText ptr en ph r c) rd = planarPixel cfg rd := rfl

theorem linearPixel_withText : linearPixel (cfg.withText ptr en ph r c) rd = linearPixel cfg rd := rfl

theorem decodePixel_withText (hg : (modeInfo cfg.mode).cls ≠ .text) :
    decodePixel p (cfg.withText ptr en ph r c) L rd X = decodePixel p cfg L rd X := by
  have hmode : (cfg.withText ptr en ph r c).mode = cfg.mode := rfl
  cases hcls : (modeInfo cfg.mode).cls with
  | text => exact absurd hcls hg
  | packed bpp =>
    rw [decodePixel_of_packed p L rd X (hmode ▸ hcls), decodePixel_of_packed p L rd X hcls, gfxPixel_withText,
      packedPixel_withText]
  | planar =>
    rw [decodePixel_of_planar p L rd X (hmode ▸ hcls), decodePixel_of_planar p L rd X hcls, gfxPixel_withText,
      planarPixel_withText]
  | linear8 =>
    rw [decodePixel_of_linear8 p L rd X (hmode ▸ hcls), decodePixel_of_linear8 p L rd X hcls, gfxPixel_withText,
      linearPixel_withText]

theorem decodePixel_withFramebuffer (ptr : Addr) (w h ox oy : BitVec 12) (ht : (modeInfo cfg.mode).cls = .text) :
    decodePixel p (cfg.withFramebuffer ptr w h ox oy) L rd X = decodePixel p cfg L rd X := by
  have hmode : (cfg.withFramebuffer ptr w h ox oy).mode = cfg.mode := rfl
  rw [decodePixel_of_text p L rd X (hmode ▸ ht), decodePixel_of_text p L rd X ht, textPixel_withFramebuffer]

end

/-- Settles O48: neither class's pixel functions read the registers of the other. -/
theorem eachModeClassIgnoresTheOthersRegisters : Obligations.EachModeClassIgnoresTheOthersRegisters :=
  ⟨fun p cfg L X rd ptr w h ox oy ht => decodePixel_withFramebuffer p cfg L X rd ptr w h ox oy ht,
    fun p cfg L X rd ptr en ph r c hg => decodePixel_withText p cfg L X rd ptr en ph r c hg⟩

end Sys2Proof.Machine
end

section
/-! PROOFS. The pixels of the Mode Decoder (43_mode_decoder.md): each pixel function in arithmetic, the cells of a text
line, the placement of an image on the screen, and which of the environment's answers a line depends on. -/

namespace Sys2Proof.Machine

/-! ## SPREAD and the planar pixel (R210, R211) -/

/-- Settles O44: the bits of `SPREAD` are those it is built from (`getLsbD_spread`). -/
theorem spreadPlacesBitsInNibbles : Obligations.SpreadPlacesBitsInNibbles := by
  refine ⟨fun b k => ?_, by decide⟩
  rw [getLsbD_spread, Bool.and_assoc, beq_eq_decide]

/-- `SPREAD` fills bit 0 of each of the eight lanes of four bits and no other, so that a shift by `q` moves a plane to
bit `q` of each lane: four planes do not overlap (R210, R211). -/
theorem getLsbD_spread_shiftLeft_lane (b : Byte) {q n i : Nat} (hq : q < 4) (hn : n < 8) (hi : i < 4) :
    (spread b <<< q).getLsbD (4 * n + i) = (decide (i = q) && b.getLsbD n) := by
  rw [BitVec.getLsbD_shiftLeft, getLsbD_spread]
  by_cases hiq : i = q
  · have hlane : 4 * n + q - q = 4 * n := by omega
    have hbit : 4 * n % 4 = 0 := by omega
    have hnib : 4 * n / 4 = n := by omega
    have hlt : 4 * n + q < 32 := by omega
    have hlt' : 4 * n < 32 := by omega
    simp [hiq, hlane, hbit, hnib, hlt, hlt']
  · have hoff : 4 * n + i < q ∨ (4 * n + i - q) % 4 ≠ 0 := by omega
    rcases hoff with hoff | hoff <;> simp [hiq, hoff]

theorem getLsbD_spread_lane (b : Byte) {n i : Nat} (hn : n < 8) (hi : i < 4) :
    (spread b).getLsbD (4 * n + i) = (decide (i = 0) && b.getLsbD n) := by
  have h := getLsbD_spread_shiftLeft_lane b (q := 0) (by decide) hn hi
  rwa [BitVec.shiftLeft_zero] at h

/-- Settles O43: the four planes stand in separate bits of the pixel's lane (`getLsbD_spread_shiftLeft_lane`). -/
theorem planarPixelGathersThePlanes : Obligations.PlanarPixelGathersThePlanes := by
  intro cfg rd row col base i _
  have hn : 7 - col % 8 < 8 := by omega
  have hbase : planarBase cfg row col = base := rfl
  unfold planarPixel
  rw [hbase]
  by_cases hi : i < 4
  · simp only [BitVec.getLsbD_setWidth, BitVec.getLsbD_extractLsb', BitVec.getLsbD_or, hi,
      getLsbD_spread_lane _ hn hi, getLsbD_spread_shiftLeft_lane _ (by decide : 1 < 4) hn hi,
      getLsbD_spread_shiftLeft_lane _ (by decide : 2 < 4) hn hi,
      getLsbD_spread_shiftLeft_lane _ (by decide : 3 < 4) hn hi]
    interval_cases i <;> simp
  · simp [hi]

/-! ## Packed and linear pixels (R204, R214) -/

/-- Settles O42: a shift divides by a power of two, and a mask of low ones takes the remainder. -/
theorem packedPixelIsItsField : Obligations.PackedPixelIsItsField := by
  intro bpp cfg rd row col hbpp stride byte k
  have hbyte : rd (packedAddr bpp cfg row col) = byte := rfl
  have hmask : (BitVec.ofNat 8 (2 ^ bpp - 1)).toNat = 2 ^ bpp - 1 := by
    rcases hbpp with rfl | rfl | rfl <;> rfl
  rw [packedPixel, hbyte, BitVec.toNat_and, BitVec.toNat_ushiftRight, hmask, Nat.and_two_pow_sub_one_eq_mod,
    Nat.shiftRight_eq_div_pow]

/-- Settles O45: the two branches of `linearPixel`. -/
theorem linearPixelClampsReservedIndices : Obligations.LinearPixelClampsReservedIndices := by
  intro cfg rd row col byte
  exact ⟨fun hle => if_neg (Nat.not_le.mpr (Nat.lt_succ_of_le hle)), fun hge => if_pos hge⟩

/-- Settles O47: every pixel function answers palette indices only (`decodePixel_le`). -/
theorem decoderReturnsPaletteIndices : Obligations.DecoderReturnsPaletteIndices := decodePixel_le

/-! ## Text lines (R195 to R199) -/

theorem fgOf_toNat (at_ : Byte) : (fgOf at_).toNat = at_.toNat % 16 := by
  simp only [fgOf, BitVec.toNat_setWidth, BitVec.extractLsb'_toNat, Nat.shiftRight_zero]
  omega

theorem bgOf_toNat (blinkEn : Bool) (at_ : Byte) :
    (bgOf blinkEn at_).toNat = if blinkEn = true then at_.toNat / 16 % 8 else at_.toNat / 16 := by
  have hlt := at_.isLt
  unfold bgOf
  split_ifs <;> simp only [BitVec.toNat_setWidth, BitVec.extractLsb'_toNat, Nat.shiftRight_eq_div_pow] <;> omega

theorem blinkHides_iff (cfg : Cfg) (at_ : Byte) :
    blinkHides cfg at_ = true ↔ cfg.blinkEn = true ∧ at_.getLsbD 7 = true ∧ cfg.blinkPhase = true := by
  simp only [blinkHides, Bool.and_eq_true, and_assoc]

theorem cursorCovers_iff (p : Params) (cfg : Cfg) (r c gl : Nat) :
    cursorCovers p cfg r c gl = true ↔ cfg.blinkPhase = true ∧ r = cfg.curRow.toNat ∧ c = cfg.curCol.toNat ∧
      p.cursorFirst.val ≤ gl ∧ gl ≤ p.cursorLast.val := by
  simp only [cursorCovers, Bool.and_eq_true, decide_eq_true_eq, and_assoc]

/-- A bit of a cell's glyph line is lit by the cursor or by the glyph, unless the cell is hidden (R199). -/
theorem getLsbD_glyphBits (p : Params) (cfg : Cfg) (r c gl : Nat) (ch at_ : Byte) {n : Nat} (hn : n < 8) :
    (glyphBits p cfg r c gl ch at_).getLsbD n = true ↔
      ¬ blinkHides cfg at_ = true ∧
        (cursorCovers p cfg r c gl = true ∨ (p.font ch (BitVec.ofNat 4 gl)).getLsbD n = true) := by
  unfold glyphBits
  split_ifs with hhide hcurs
  · simp [hhide]
  · have hones : (0xFF : Byte).getLsbD n = true := by interval_cases n <;> rfl
    exact iff_of_true hones ⟨hhide, .inl hcurs⟩
  · simp [hhide, hcurs]

/-- Below the 25 rows of cells a text line is background (R199). -/
theorem textPixel_of_below (p : Params) (cfg : Cfg) {L : Nat} (hL : 400 ≤ L) (rd : Addr → Byte) (X : Nat) :
    textPixel p cfg L rd X = indexOfPal p.bgIndex := if_pos hL

/-- An entry of one of the first 400 text lines shows a bit of its cell's glyph line in the colours of the cell
(R195, R199). -/
theorem textPixel_of_lt (p : Params) (cfg : Cfg) {L : Nat} (hL : L < 400) (rd : Addr → Byte) (X : Nat) :
    textPixel p cfg L rd X =
      if (glyphBits p cfg (L / 16) (X / 8) (L % 16) (rd (cellAddr cfg (L / 16) (X / 8)))
          (rd (cellAddr cfg (L / 16) (X / 8) + 1))).getLsbD (7 - X % 8) = true then
        fgOf (rd (cellAddr cfg (L / 16) (X / 8) + 1))
      else bgOf cfg.blinkEn (rd (cellAddr cfg (L / 16) (X / 8) + 1)) :=
  if_neg (Nat.not_le.mpr hL)

/-- Settles O41: a lit bit of the glyph line (`getLsbD_glyphBits`) shows the foreground, any other the background. -/
theorem textLineShowsItsCells : Obligations.TextLineShowsItsCells := by
  intro p cfg L rd hc
  refine ⟨fun hL X => ?_, fun hL c _ j hj => ?_⟩
  · rw [decodePixel_of_text p L rd X hc, textPixel_of_below p cfg hL]
  · intro r gl a ch attr hide curs lit
    have hcell : (8 * c + j) / 8 = c := by omega
    have hcol : (8 * c + j) % 8 = j := by omega
    have haddr : cellAddr cfg (L / 16) c = a := rfl
    have hlit : (glyphBits p cfg r c gl ch attr).getLsbD (7 - j) = true ↔ lit := by
      rw [getLsbD_glyphBits p cfg r c gl ch attr (by omega), blinkHides_iff, cursorCovers_iff]
    rw [decodePixel_of_text p L rd _ hc, textPixel_of_lt p cfg hL, hcell, hcol, haddr]
    exact ⟨fun h => by rw [if_pos (hlit.mpr h), fgOf_toNat], fun h => by rw [if_neg (mt hlit.mp h), bgOf_toNat]⟩

/-! ## Placement, doubling and clipping (R200, R201) -/

/-- The pixel of the image at a logical row and column, in the mode of the configuration; a text mode has none. -/
def framePixel (cfg : Cfg) (rd : Addr → Byte) (row col : Nat) : Index :=
  match (modeInfo cfg.mode).cls with
  | .text => 0
  | .packed bpp => packedPixel bpp cfg rd row col
  | .planar => planarPixel cfg rd row col
  | .linear8 => linearPixel cfg rd row col

theorem framePixel_of_packed {cfg : Cfg} {bpp : Nat} (h : (modeInfo cfg.mode).cls = .packed bpp) (rd : Addr → Byte) :
    framePixel cfg rd = packedPixel bpp cfg rd := by
  funext row col
  rw [framePixel, h]

theorem framePixel_of_planar {cfg : Cfg} (h : (modeInfo cfg.mode).cls = .planar) (rd : Addr → Byte) :
    framePixel cfg rd = planarPixel cfg rd := by
  funext row col
  rw [framePixel, h]

theorem framePixel_of_linear8 {cfg : Cfg} (h : (modeInfo cfg.mode).cls = .linear8) (rd : Addr → Byte) :
    framePixel cfg rd = linearPixel cfg rd := by
  funext row col
  rw [framePixel, h]

/-- The graphics modes differ in their pixels only, not in the placement (R191, R200). -/
theorem decodePixel_of_graphics {cfg : Cfg} (hg : (modeInfo cfg.mode).cls ≠ .text) (p : Params) (L : Nat)
    (rd : Addr → Byte) (X : Nat) : decodePixel p cfg L rd X = gfxPixel p cfg L (framePixel cfg rd) X := by
  cases hc : (modeInfo cfg.mode).cls with
  | text => exact absurd hc hg
  | packed bpp => rw [decodePixel_of_packed p L rd X hc, framePixel_of_packed hc]
  | planar => rw [decodePixel_of_planar p L rd X hc, framePixel_of_planar hc]
  | linear8 => rw [decodePixel_of_linear8 p L rd X hc, framePixel_of_linear8 hc]

/-- The image shows one of its rows on line `L` (R200). -/
def Cfg.coversLine (cfg : Cfg) (L : Nat) : Prop :=
  cfg.oy.toNat ≤ L / (modeInfo cfg.mode).vscale ∧ L / (modeInfo cfg.mode).vscale < cfg.oy.toNat + cfg.h.toNat

/-- The image shows one of its columns at active entry `X` (R200). -/
def Cfg.coversColumn (cfg : Cfg) (X : Nat) : Prop :=
  cfg.ox.toNat ≤ X / (modeInfo cfg.mode).hscale ∧ X / (modeInfo cfg.mode).hscale < cfg.ox.toNat + cfg.w.toNat

theorem sourceRow?_of_coversLine {cfg : Cfg} {L : Nat} (h : cfg.coversLine L) :
    sourceRow? cfg L = some (L / (modeInfo cfg.mode).vscale - cfg.oy.toNat) := by
  obtain ⟨hlo, hhi⟩ := h
  exact if_neg (by omega)

theorem sourceRow?_eq_none {cfg : Cfg} {L : Nat} (h : ¬ cfg.coversLine L) : sourceRow? cfg L = none := by
  unfold Cfg.coversLine at h
  exact if_pos (by omega)

theorem sourceCol?_of_coversColumn {cfg : Cfg} {X : Nat} (h : cfg.coversColumn X) :
    sourceCol? cfg X = some (X / (modeInfo cfg.mode).hscale - cfg.ox.toNat) := by
  obtain ⟨hlo, hhi⟩ := h
  exact if_neg (by omega)

theorem sourceCol?_eq_none {cfg : Cfg} {X : Nat} (h : ¬ cfg.coversColumn X) : sourceCol? cfg X = none := by
  unfold Cfg.coversColumn at h
  exact if_pos (by omega)

/-- A covered entry shows the pixel of its logical row and column (R200). -/
theorem gfxPixel_of_covered (p : Params) {cfg : Cfg} {L X : Nat} (pixel : Nat → Nat → Index) (hL : cfg.coversLine L)
    (hX : cfg.coversColumn X) :
    gfxPixel p cfg L pixel X =
      pixel (L / (modeInfo cfg.mode).vscale - cfg.oy.toNat) (X / (modeInfo cfg.mode).hscale - cfg.ox.toNat) := by
  rw [gfxPixel, sourceRow?_of_coversLine hL, sourceCol?_of_coversColumn hX]

/-- Every other entry is the background (R201). -/
theorem gfxPixel_of_not_covered (p : Params) {cfg : Cfg} {L X : Nat} (pixel : Nat → Nat → Index)
    (h : ¬ (cfg.coversLine L ∧ cfg.coversColumn X)) : gfxPixel p cfg L pixel X = indexOfPal p.bgIndex := by
  unfold gfxPixel
  by_cases hL : cfg.coversLine L
  · rw [sourceCol?_eq_none fun hX => h ⟨hL, hX⟩]
    cases sourceRow? cfg L <;> rfl
  · rw [sourceRow?_eq_none hL]
    rfl

/-- Settles O46: all graphics modes place their pixels alike (`decodePixel_of_graphics`, `gfxPixel_of_covered`,
`gfxPixel_of_not_covered`). -/
theorem graphicsModesPlaceAndClipTheImage : Obligations.GraphicsModesPlaceAndClipTheImage := by
  intro p cfg L rd X m covered row col
  have hcovered : cfg.coversLine L ∧ cfg.coversColumn X ↔ covered := and_assoc
  have hplaced (pixel : Nat → Nat → Index) (hc : covered) : gfxPixel p cfg L pixel X = pixel row col := by
    obtain ⟨hL, hX⟩ := hcovered.mpr hc
    exact gfxPixel_of_covered p pixel hL hX
  refine ⟨fun hg hc => ?_, fun bpp hm hc => ?_, fun hm hc => ?_, fun hm hc => ?_⟩
  · rw [decodePixel_of_graphics hg]
    exact gfxPixel_of_not_covered p _ (mt hcovered.mp hc)
  · rw [decodePixel_of_packed p L rd X hm, hplaced _ hc]
  · rw [decodePixel_of_planar p L rd X hm, hplaced _ hc]
  · rw [decodePixel_of_linear8 p L rd X hm, hplaced _ hc]

/-! ## The answers a line depends on (R72, R219) -/

section
variable {cfg : Cfg} {rd rd' : Addr → Byte}

/-- A pixel depends on the bytes it needs (R204, R210, R214). -/
theorem framePixel_congr {row col : Nat} (h : ∀ a ∈ pixelAddrs cfg row col, rd a = rd' a) :
    framePixel cfg rd row col = framePixel cfg rd' row col := by
  unfold pixelAddrs at h
  cases hc : (modeInfo cfg.mode).cls with
  | text => simp only [framePixel, hc]
  | packed bpp =>
    simp only [hc, List.forall_mem_singleton] at h
    rw [framePixel_of_packed hc, framePixel_of_packed hc, packedPixel, packedPixel, h]
  | planar =>
    simp only [hc, List.forall_mem_cons] at h
    obtain ⟨h0, h1, h2, h3, -⟩ := h
    rw [framePixel_of_planar hc, framePixel_of_planar hc, planarPixel, planarPixel, h0, h1, h2, h3]
  | linear8 =>
    simp only [hc, List.forall_mem_singleton] at h
    rw [framePixel_of_linear8 hc, framePixel_of_linear8 hc, linearPixel, linearPixel, h]

/-- A text entry depends on the two bytes of its cell (R194, R199). -/
theorem textPixel_congr (p : Params) {L X : Nat}
    (h : L < 400 → rd (cellAddr cfg (L / 16) (X / 8)) = rd' (cellAddr cfg (L / 16) (X / 8)) ∧
      rd (cellAddr cfg (L / 16) (X / 8) + 1) = rd' (cellAddr cfg (L / 16) (X / 8) + 1)) :
    textPixel p cfg L rd X = textPixel p cfg L rd' X := by
  rcases Nat.lt_or_ge L 400 with hL | hL
  · obtain ⟨hch, hattr⟩ := h hL
    rw [textPixel_of_lt p cfg hL, textPixel_of_lt p cfg hL, hch, hattr]
  · rw [textPixel_of_below p cfg hL, textPixel_of_below p cfg hL]

/-- An active entry depends on the bytes it needs. -/
theorem decodePixel_congr (p : Params) {L X : Nat} (h : ∀ a ∈ entryAddrs cfg L X, rd a = rd' a) :
    decodePixel p cfg L rd X = decodePixel p cfg L rd' X := by
  by_cases hc : (modeInfo cfg.mode).cls = .text
  · rw [decodePixel_of_text p L rd X hc, decodePixel_of_text p L rd' X hc]
    refine textPixel_congr p fun hL => ?_
    have hneeds : entryAddrs cfg L X =
        [cellAddr cfg (L / 16) (X / 8), cellAddr cfg (L / 16) (X / 8) + 1] := by
      simp only [entryAddrs, hc]
      exact if_neg (Nat.not_le.mpr hL)
    exact ⟨h _ (by simp [hneeds]), h _ (by simp [hneeds])⟩
  · rw [decodePixel_of_graphics hc, decodePixel_of_graphics hc, gfxPixel, gfxPixel]
    rw [entryAddrs_gfx hc] at h
    cases hrow : sourceRow? cfg L with
    | none => rfl
    | some row =>
      cases hcol : sourceCol? cfg X with
      | none => rfl
      | some col =>
        rw [hrow, hcol] at h
        exact framePixel_congr h

end

/-- Settles O49: the bytes an active entry needs are among the reads of its line (`mem_lineReads`). -/
theorem decoderDependsOnlyOnItsReads : Obligations.DecoderDependsOnlyOnItsReads :=
  fun p _ _ _ _ h X hX => decodePixel_congr p fun a ha => h a (mem_lineReads.mpr ⟨X, hX, ha⟩)

end Sys2Proof.Machine
end

section
/-! PROOFS. The handler (44_scheduler.md): the blanking of a pair of lines, which agents have a step, and a tick on a
reused and on a regenerated line. -/

namespace Sys2Proof.Machine

/-! ## Blanking and V-sync (R233, R234) -/

theorem vsync_iff (L : Nat) : vsync L = true ↔ 490 ≤ L ∧ L ≤ 491 := by
  simp only [vsync, Bool.and_eq_true, decide_eq_true_eq, Config.vSyncStart, Config.vSyncLines]
  omega

/-- V-sync begins and ends on even lines, so an odd line has the V-sync of the line before it (R234). -/
theorem vsync_pred_of_odd {L : Nat} (h : L % 2 = 1) : vsync L = vsync (L - 1) := by
  rw [Bool.eq_iff_iff, vsync_iff, vsync_iff]
  omega

/-- Settles O33: both blanking indices are functions of V-sync (`vsync_pred_of_odd`), and 480 is even. -/
theorem oddLinesShareTheirPairsBlanking : Obligations.OddLinesShareTheirPairsBlanking := by
  intro L hodd
  have hv := vsync_pred_of_odd hodd
  refine ⟨by omega, ?_, ?_⟩
  · rw [hsyncIndex, hsyncIndex, hv]
  · rw [blankIndex, blankIndex, hv]

/-- The H-sync index is that of its control entry: two further on while V-sync is active (R105). -/
theorem hsyncIndex_eq_ofNat (L : Nat) :
    hsyncIndex L = BitVec.ofNat 8 (251 + 2 * if 490 ≤ L ∧ L ≤ 491 then 1 else 0) := by
  simp only [hsyncIndex, vsync_iff]
  split <;> rfl

theorem blankIndex_eq_ofNat (L : Nat) :
    blankIndex L = BitVec.ofNat 8 (252 + 2 * if 490 ≤ L ∧ L ≤ 491 then 1 else 0) := by
  simp only [blankIndex, vsync_iff]
  split <;> rfl

/-- The three kinds of entry of a line: H-sync, a pixel of a visible line, blanking (R237). -/
theorem lineEntry_eq (p : Params) (cfg : Cfg) (L : Nat) (rd : Addr → Byte) (k : Nat) :
    lineEntry p cfg L rd k =
      if k < 96 then hsyncIndex L
      else if 144 ≤ k ∧ k < 784 ∧ L < 480 then decodePixel p cfg L rd (k - 144)
      else blankIndex L := by
  unfold lineEntry
  by_cases hsync : k < 96
  · rw [if_pos hsync, if_pos hsync]
  · rw [if_neg hsync, if_neg hsync]
    by_cases hpixel : 144 ≤ k ∧ k < 784 ∧ L < 480
    · obtain ⟨hlo, hhi, hvis⟩ := id hpixel
      rw [if_pos hpixel, if_neg (Nat.not_lt.mpr hlo), if_pos hhi, if_pos hvis]
    · rw [if_neg hpixel]
      split_ifs with hbp hfp hvis
      · rfl
      · exact absurd ⟨Nat.not_lt.mp hbp, hfp, hvis⟩ hpixel
      · rfl
      · rfl

/-! ## Which agents have a step (R229) -/

/-- Settles O34: each agent's step asks for RUNNING. -/
theorem onlyRunningMachineMoves : Obligations.OnlyRunningMachineMoves := by
  intro s hstop
  refine ⟨if_neg fun he => ?_, if_neg fun he => ?_, fun answers => if_neg fun he => ?_⟩
  · obtain ⟨-, hrun, -⟩ := s.lineStartEnabled_iff.mp he
    exact hstop hrun
  · obtain ⟨-, hrun, -⟩ := s.emitEnabled_iff.mp he
    exact hstop hrun
  · obtain ⟨-, hrun, -⟩ := s.tickEnabled_iff.mp he
    exact hstop hrun

/-! ## Ticks (R230 to R239) -/

theorem reuseLine_iff (m : DisplayMode) (L : Nat) :
    reuseLine m L = true ↔ (modeInfo m).doubleScanned = true ∧ L % 2 = 1 := by
  rw [reuseLine, Bool.and_eq_true, decide_eq_true_eq]

/-- The counter wraps to an even line, so an odd next line is the successor (R232). -/
theorem nextLine_of_odd {line : Nat} (h : nextLine line % 2 = 1) : nextLine line = line + 1 := by
  unfold nextLine at h ⊢
  split at h
  · cases h
  · rw [if_neg ‹_›]

/-- Settles O31: a reused line is odd, so the line counter does not wrap (`nextLine_of_odd`). -/
theorem reusedLineTouchesNoBuffer : Obligations.ReusedLineTouchesNoBuffer := by
  intro s answers he hdouble hodd
  rw [runEvent_tick he, State.tick_reuse s _ _ ((reuseLine_iff _ _).mpr ⟨hdouble, hodd⟩), nextLine_of_odd hodd]

/-- The buffer a tick on a regenerated line fills (R230, R237). -/
theorem State.tick_lb_regenerate (s : State) (p : Params) (answers : List (Addr × Byte))
    (h : reuseLine s.mode (nextLine s.line) = false) :
    (s.tick p answers).lb (!s.bufIdx) = composeLine p s.sample (nextLine s.line) (memAnswer s.mem answers) := by
  rw [State.tick_regenerate s p answers h]
  exact (s.setLb_lb _ _ _).trans (if_pos rfl)

/-- Settles O32: the idle buffer holds the composed line (`tick_lb_regenerate`, `lineEntry_eq`), the other one is kept
(`tick_lb`). -/
theorem regeneratedLineFillsTheIdleBuffer : Obligations.RegeneratedLineFillsTheIdleBuffer := by
  intro s answers he L v hfresh
  have hregen : reuseLine s.mode (nextLine s.line) = false := by
    have hnot : ¬ ((modeInfo s.mode).doubleScanned = true ∧ L % 2 = 1) := by
      rintro ⟨hdouble, hodd⟩
      rcases hfresh with hsingle | heven
      · cases hdouble.symm.trans hsingle
      · omega
    exact Bool.eq_false_iff.mpr (mt (reuseLine_iff _ _).mp hnot)
  refine ⟨s.tick Config.hw answers, runEvent_tick he answers, s.tick_lb _ _, fun k => ?_, ?_, ?_⟩
  · rw [s.tick_lb_regenerate _ _ hregen, composeLine_get, lineEntry_eq, hsyncIndex_eq_ofNat, blankIndex_eq_ofNat]
    rfl
  · rw [State.tick_regenerate s _ _ hregen]
    rfl
  · obtain ⟨v0, v1, hset⟩ :=
      s.setLb_reach (!s.bufIdx) (composeLine Config.hw s.sample (nextLine s.line) (memAnswer s.mem answers))
    rw [State.tick_regenerate s _ _ hregen, hset]
    rfl

end Sys2Proof.Machine
end

section
/-! PROOFS. The pipeline (44_scheduler.md): one `LINE_START`, one `EMIT`, the state after `n` `EMIT`s of a line, and a
line period. A `TICK` among the `EMIT`s of a line writes nothing the pipeline reads or writes during that line, so it may
as well come after the last of them. -/

namespace Sys2Proof.Machine

/-! ## One event -/

/-- A line begins when none is in progress and the interrupt is not pending (R241). -/
theorem runEvent_lineStart {s : State} (he : s.lineStartEnabled = true) (hpend : s.irqPend = false) :
    runEvent .lineStart s = .next s.beginLine := by
  rw [runEvent, if_pos he, lineStart, if_neg (by simp [hpend])]

/-- Settles O35: with no interrupt pending before, what is pending after is what the enable says. -/
theorem lineStartLatchesTheSource : Obligations.LineStartLatchesTheSource := by
  intro s he hpend
  rw [runEvent_lineStart he hpend, State.beginLine, State.raiseIrq, hpend, Bool.false_or]

theorem runEvent_emit {s : State} (he : s.emitEnabled = true) : runEvent .emit s = emit s := if_pos he

/-- `EMIT` of index 255 is the fault of U3 (log 14). -/
theorem emit_unassigned {s : State}
    (h : (s.phase = false ∧ s.lbEntry s.cur s.pos = 255) ∨ (s.phase = true ∧ s.idx = 255)) :
    emit s = .fault .unassignedIndex := by
  rcases h with ⟨hph, h255⟩ | ⟨hph, h255⟩
  · rw [emit, if_neg (by simp [hph]), if_pos h255]
  · rw [emit, if_pos hph, if_pos h255]

/-- Settles O37: the three branches of `EMIT`. -/
theorem emitSendsPrimaryThenSecondary : Obligations.EmitSendsPrimaryThenSecondary := by
  refine ⟨fun s he hph hi => ?_, fun s he hph hi => ?_, fun s he h => ?_⟩
  · rw [runEvent_emit he, emit_primary hph hi]
    rfl
  · rw [runEvent_emit he, emit_secondary hph hi]
    rfl
  · rw [runEvent_emit he, emit_unassigned h]

/-- The machine as it is, with other words sent and at another place in the line: what the pipeline alone writes
(R50). -/
def State.atOutput (s : State) (ws : List Word64) (pos : Nat) (ph : Bool) (i : Index) : State :=
  { s with out64 := ws, pos := pos, phase := ph, idx := i }

/-- What an `EMIT` may write: one word more, and the place in the line (R50, R242). -/
theorem emit_reach {s t : State} (h : emit s = .next t) :
    ∃ w pos ph i, t = s.atOutput (s.out64 ++ [w]) pos ph i := by
  rcases emit_cases s with ⟨-, -, he⟩ | ⟨-, -, he⟩ | ⟨he, -⟩ <;> rw [he] at h <;> cases h
  · exact ⟨_, _, _, _, rfl⟩
  · exact ⟨_, _, _, _, rfl⟩

/-- The last unit of a word is that of code bit 9 (R99). -/
theorem units_getLast? (w : Word64) : (units w).getLast? = some (w.extractLsb' 56 6) := rfl

theorem State.out6_of_out64_append {t : State} {ws : List Word64} {w : Word64} (h : t.out64 = ws ++ [w]) :
    t.out6 = ws.flatMap units ++ units w := by
  rw [State.out6, h, List.flatMap_append, List.flatMap_singleton]

/-- While the pipeline runs, `PINS` carries the last unit of the last word sent (R42; log 17). -/
theorem State.pins_of_out64_append {t : State} {ws : List Word64} {w : Word64} (hrun : t.drv = .running)
    (hpipe : t.pipeEn = true) (hrst : t.ports.rst = false) (h : t.out64 = ws ++ [w]) :
    t.pins = w.extractLsb' 56 6 := by
  rw [State.pins, if_pos ⟨hrun, hpipe, hrst⟩, State.out6_of_out64_append h, List.getLast?_append, units_getLast?]
  rfl

/-- Settles O38: an `EMIT` sends one word and leaves the pipeline running (`emit_reach`). -/
theorem emittedWordReachesThePins : Obligations.EmittedWordReachesThePins := by
  intro s t he ht
  rw [runEvent_emit he] at ht
  obtain ⟨hrst, hrun, hpipe, -⟩ := s.emitEnabled_iff.mp he
  obtain ⟨w, pos, ph, i, rfl⟩ := emit_reach ht
  exact ⟨w, rfl, State.out6_of_out64_append rfl, State.pins_of_out64_append hrun hpipe hrst rfl⟩

/-! ## The words of a line (R246) -/

section
variable {α β : Type} (f g : α → β)

/-- In a list of pairs laid end to end, pair `k` stands at `2k` and `2k + 1`. -/
theorem getElem?_flatMap_pair (l : List α) (k : Nat) :
    (l.flatMap fun x => [f x, g x])[2 * k]? = l[k]?.map f ∧
      (l.flatMap fun x => [f x, g x])[2 * k + 1]? = l[k]?.map g := by
  induction l generalizing k with
  | nil => exact ⟨rfl, rfl⟩
  | cons x l ih =>
    cases k with
    | zero => exact ⟨rfl, rfl⟩
    | succ k => exact ih k

end

theorem State.lineWords_length (s : State) (b : Bool) : (s.lineWords b).length = 1600 := by
  rw [State.lineWords, List.length_flatMap]
  simp only [List.length_cons, List.length_nil, List.map_const', List.sum_replicate, (s.lb b).size_eq]
  rfl

theorem State.lb_getElem? (s : State) (b : Bool) {k : Nat} (hk : k < 800) :
    (s.lb b).cells[k]? = some (s.lbEntry b k) := by
  rw [List.getElem?_eq_getElem (by rw [(s.lb b).size_eq]; exact hk), State.lbEntry, dif_pos hk]
  rfl

/-- The two words of entry `k` of a line stand at `2k` and `2k + 1`. -/
theorem State.lineWords_getElem? (s : State) (b : Bool) {k : Nat} (hk : k < 800) :
    (s.lineWords b)[2 * k]? = some (s.tabEntry (s.lbEntry b k)).w0 ∧
      (s.lineWords b)[2 * k + 1]? = some (s.tabEntry (s.lbEntry b k)).w1 := by
  obtain ⟨heven, hodd⟩ :=
    getElem?_flatMap_pair (fun i => (s.tabEntry i).w0) (fun i => (s.tabEntry i).w1) (s.lb b).cells k
  rw [s.lb_getElem? b hk] at heven hodd
  exact ⟨heven, hodd⟩

/-- The words of a line depend on its buffer and the table alone. -/
theorem State.lineWords_congr {s u : State} {b : Bool} (hlb : s.lb b = u.lb b) (htab : s.tab = u.tab) :
    s.lineWords b = u.lineWords b := by
  simp only [State.lineWords, State.tabEntry, hlb, htab]

/-! ## The state after `n` `EMIT`s of a line (R242) -/

/-- `IDX` after `n` `EMIT`s of a line: the entry of the last of them. -/
def State.streamedIdx (s : State) : Nat → Index
  | 0 => s.idx
  | n + 1 => s.lbEntry s.cur (n / 2)

/-- The state that `n` `EMIT`s make of the start of a line: the first `n` words of the line are sent, two to an entry. -/
def State.streamed (s : State) (n : Nat) : State :=
  s.atOutput (s.out64 ++ (s.lineWords s.cur).take n) (n / 2) (decide (n % 2 = 1)) (s.streamedIdx n)

theorem State.streamed_zero {s : State} (hpos : s.pos = 0) (hph : s.phase = false) : s.streamed 0 = s := by
  cases s
  cases hpos
  cases hph
  simp [State.streamed, State.atOutput, State.streamedIdx]

/-- An `EMIT` after an even number of them sends the primary word of the next entry. -/
theorem State.streamed_emitPrimary (s : State) {k : Nat} (hk : k < 800) :
    (s.streamed (2 * k)).emitPrimary = s.streamed (2 * k + 1) := by
  obtain ⟨hword, -⟩ := s.lineWords_getElem? s.cur hk
  have hdiv : 2 * k / 2 = k := by omega
  have hdiv' : (2 * k + 1) / 2 = k := by omega
  have hmod : (2 * k + 1) % 2 = 1 := by omega
  simp only [State.streamed, State.atOutput, State.emitPrimary, State.emitWord, State.streamedIdx, List.take_add_one,
    hword, hdiv, hdiv', hmod, List.append_assoc]
  rfl

/-- An `EMIT` after an odd number of them sends the secondary word of the entry begun. -/
theorem State.streamed_emitSecondary (s : State) {k : Nat} (hk : k < 800) :
    (s.streamed (2 * k + 1)).emitSecondary = s.streamed (2 * k + 2) := by
  obtain ⟨-, hword⟩ := s.lineWords_getElem? s.cur hk
  have hdiv : 2 * k / 2 = k := by omega
  have hdiv' : (2 * k + 1) / 2 = k := by omega
  have hdiv'' : (2 * k + 2) / 2 = k + 1 := by omega
  have hmod : (2 * k + 2) % 2 = 0 := by omega
  simp only [State.streamed, State.atOutput, State.emitSecondary, State.emitWord, State.streamedIdx,
    List.take_add_one (i := 2 * k + 1), hword, hdiv, hdiv', hdiv'', hmod, List.append_assoc]
  rfl

/-- The pipeline stays enabled until the line's last word is sent. -/
theorem State.streamed_emitEnabled {s : State} (he : s.emitEnabled = true) {n : Nat} (hn : n < 1600) :
    (s.streamed n).emitEnabled = true := by
  obtain ⟨hrst, hrun, hpipe, -⟩ := s.emitEnabled_iff.mp he
  have hpos : n / 2 < 800 := by omega
  exact (State.emitEnabled_iff _).mpr ⟨hrst, hrun, hpipe, hpos⟩

/-- One `EMIT` more of a line without the unassigned index. -/
theorem core_run_emit_streamed {s : State} (he : s.emitEnabled = true) (hi : ∀ k : Fin 800, (s.lb s.cur).get k ≠ 255)
    {m : Nat} (hm : m < 1600) (rest : List Event) (j n : Nat) :
    Sys2Proof.core.run (n + 1) ((s.streamed m).atSchedule (.emit :: rest) j) =
      Sys2Proof.core.run n ((s.streamed (m + 1)).atSchedule rest (j + 1)) := by
  have hen := State.streamed_emitEnabled he hm
  have hassigned {k : Nat} (hk : k < 800) : s.lbEntry s.cur k ≠ 255 := s.lbEntry_eq s.cur ⟨k, hk⟩ ▸ hi ⟨k, hk⟩
  obtain ⟨k, rfl | rfl⟩ := Nat.even_or_odd' m
  · have hk : 2 * k / 2 < 800 := by omega
    have hph : (s.streamed (2 * k)).phase = false := decide_eq_false (by omega)
    rw [← s.streamed_emitPrimary (k := k) (by omega)]
    exact core_run_emitPrimary hen hph (hassigned hk) rest j n
  · have hk : 2 * k / 2 < 800 := by omega
    have hph : (s.streamed (2 * k + 1)).phase = true := decide_eq_true (by omega)
    rw [← s.streamed_emitSecondary (k := k) (by omega)]
    exact core_run_emitSecondary hen hph (hassigned hk) rest j n

/-- `n` `EMIT`s more of a line without the unassigned index. -/
theorem core_run_emits_streamed {s : State} (he : s.emitEnabled = true) (hi : ∀ k : Fin 800, (s.lb s.cur).get k ≠ 255)
    {m n : Nat} (hmn : m + n ≤ 1600) (rest : List Event) (j : Nat) :
    Sys2Proof.core.run n ((s.streamed m).atSchedule (List.replicate n .emit ++ rest) j) =
      .next ((s.streamed (m + n)).atSchedule rest (j + n)) := by
  induction n generalizing m j with
  | zero => rfl
  | succ n ih =>
    have hstep := core_run_emit_streamed he hi (m := m) (by omega) (List.replicate n .emit ++ rest) j n
    have hrest := ih (m := m + 1) (by omega) (j + 1)
    rw [Nat.add_right_comm m, Nat.add_right_comm j] at hrest
    exact hstep.trans hrest

theorem State.streamed_line_out64 (s : State) : (s.streamed 1600).out64 = s.out64 ++ s.lineWords s.cur := by
  have hall : (s.lineWords s.cur).take 1600 = s.lineWords s.cur :=
    List.take_of_length_le (s.lineWords_length s.cur).le
  exact congrArg (s.out64 ++ ·) hall

theorem State.atSchedule_eq_self {s : State} {es : List Event} (h : s.sched = es) : s.atSchedule es s.now = s := by
  subst h
  rfl

/-- Settles O39: the 1600 `EMIT`s are all the words of the line (`core_run_emits_streamed`). -/
theorem lineStreamsSixteenHundredWords : Obligations.LineStreamsSixteenHundredWords := by
  intro s rest hrun hpipe hrst hpos hph hi hsched
  have he : s.emitEnabled = true := s.emitEnabled_iff.mpr ⟨hrst, hrun, hpipe, by omega⟩
  have hline := core_run_emits_streamed he hi (m := 0) (n := 1600) (by omega) rest s.now
  rw [State.streamed_zero hpos hph, State.atSchedule_eq_self hsched] at hline
  exact ⟨_, hline, s.streamed_line_out64, s.lineWords_length s.cur, rfl⟩

/-! ## A tick among the `EMIT`s (R248, R249, R287) -/

/-- A tick neither reads nor writes the pipeline's output and place in the line, nor the schedule. -/
theorem State.tick_frame (s : State) (p : Params) (answers : List (Addr × Byte)) (ws : List Word64) (pos : Nat)
    (ph : Bool) (i : Index) (es : List Event) (n : Nat) :
    ((s.atOutput ws pos ph i).atSchedule es n).tick p answers =
      ((s.tick p answers).atOutput ws pos ph i).atSchedule es n := by
  have hreuse : reuseLine ((s.atOutput ws pos ph i).atSchedule es n).mode
      (nextLine ((s.atOutput ws pos ph i).atSchedule es n).line) = reuseLine s.mode (nextLine s.line) := rfl
  have hset (b : Bool) (v : Bank Index 800) : ((s.atOutput ws pos ph i).atSchedule es n).setLb b v =
      ((s.setLb b v).atOutput ws pos ph i).atSchedule es n := by cases b <;> rfl
  cases hr : reuseLine s.mode (nextLine s.line)
  · rw [State.tick_regenerate s p answers hr, State.tick_regenerate _ p answers (hreuse.trans hr), hset]
    rfl
  · rw [State.tick_reuse s p answers hr, State.tick_reuse _ p answers (hreuse.trans hr)]
    rfl

theorem State.tick_line (s : State) (p : Params) (answers : List (Addr × Byte)) :
    (s.tick p answers).line = nextLine s.line := by
  cases hr : reuseLine s.mode (nextLine s.line)
  · rw [State.tick_regenerate s p answers hr]
  · rw [State.tick_reuse s p answers hr]

theorem State.tick_emitEnabled (s : State) (p : Params) (answers : List (Addr × Byte)) :
    (s.tick p answers).emitEnabled = s.emitEnabled := by
  obtain ⟨line, b, v0, v1, reads, heq⟩ := s.tick_reach p answers
  rw [heq]
  rfl

/-- A tick while the buffer `BUFIDX` names is streamed may come before the `EMIT`s as well as after them: it writes
neither that buffer nor the table (R48, R250). -/
theorem State.streamed_tick {s : State} (hcur : s.cur = s.bufIdx) (n : Nat) (p : Params)
    (answers : List (Addr × Byte)) (es : List Event) (j : Nat) :
    ((s.streamed n).atSchedule es j).tick p answers = ((s.tick p answers).streamed n).atSchedule es j := by
  have hlb : (s.tick p answers).lb s.cur = s.lb s.cur := hcur ▸ s.tick_lb p answers
  obtain ⟨line, b, v0, v1, reads, heq⟩ := s.tick_reach p answers
  have hcur' : (s.tick p answers).cur = s.cur := by rw [heq]
  have hidx : (s.tick p answers).idx = s.idx := by rw [heq]
  have hout : (s.tick p answers).out64 = s.out64 := by rw [heq]
  have htab : (s.tick p answers).tab = s.tab := by rw [heq]
  have hstreamed : (s.tick p answers).streamedIdx n = s.streamedIdx n := by
    cases n with
    | zero => exact hidx
    | succ n => simp only [State.streamedIdx, State.lbEntry, hcur', hlb]
  rw [State.streamed, State.streamed, s.tick_frame, hcur', hout, hstreamed, State.lineWords_congr hlb htab]

/-! ## A line period (R248, R249) -/

/-- A step that begins a line. -/
theorem core_run_lineStart {s : State} (he : s.lineStartEnabled = true) (hpend : s.irqPend = false)
    (rest : List Event) (j n : Nat) :
    Sys2Proof.core.run (n + 1) (s.atSchedule (.lineStart :: rest) j) =
      Sys2Proof.core.run n (s.beginLine.atSchedule rest (j + 1)) :=
  core_run_event (runEvent_lineStart (s := s.atSchedule rest (j + 1)) he hpend)

/-- A tick that was due at the start of the line, after `m` `EMIT`s. -/
theorem core_run_tick_streamed {s : State} (he : s.tickEnabled = true) (hcur : s.cur = s.bufIdx)
    (answers : List (Addr × Byte)) (m : Nat) (rest : List Event) (j n : Nat) :
    Sys2Proof.core.run (n + 1) ((s.streamed m).atSchedule (.tick answers :: rest) j) =
      Sys2Proof.core.run n (((s.tick Config.hw answers).streamed m).atSchedule rest (j + 1)) := by
  apply core_run_event
  rw [← State.streamed_tick hcur]
  exact runEvent_tick (s := (s.streamed m).atSchedule rest (j + 1)) he answers

/-- A `LINE_START`, `m` `EMIT`s, a tick and the other `EMIT`s, from a state of the invariant: the line is streamed as if
the tick came last (`streamed_tick`). -/
theorem core_run_linePeriod {s : State} (h : s.Inv) (hrun : s.drv = .running) (hrst : s.ports.rst = false)
    (hpos : s.pos = 800) (hpend : s.irqPend = false) {m : Nat} (hm : m ≤ 1600) (answers : List (Addr × Byte))
    (rest : List Event) (j : Nat) :
    ∃ j', Sys2Proof.core.run 1602 (s.atSchedule
        (.lineStart :: (List.replicate m .emit ++ .tick answers :: (List.replicate (1600 - m) .emit ++ rest))) j) =
      .next (((s.beginLine.streamed 1600).atSchedule rest j').tick Config.hw answers) := by
  obtain ⟨hirq, hpipe, -⟩ := h.enabled hrun
  have hbegin : s.lineStartEnabled = true := s.lineStartEnabled_iff.mpr ⟨hrst, hrun, hpipe, hpos⟩
  have hemit : s.beginLine.emitEnabled = true := (State.emitEnabled_iff _).mpr ⟨hrst, hrun, hpipe, by simp⟩
  have hdue : s.beginLine.tickEnabled = true := (State.tickEnabled_iff _).mpr ⟨hrst, hrun, hirq, by simp [hirq]⟩
  have hinv := h.beginLine hbegin
  have hassigned {u : State} (hu : u.Inv) (k : Fin 800) : (u.lb u.cur).get k ≠ 255 := ne_unassigned (hu.lbLe _ k)
  have hcur : s.beginLine.cur = s.beginLine.bufIdx := h.srcIsBuf
  have hstart := core_run_lineStart hbegin hpend
    (List.replicate m .emit ++ .tick answers :: (List.replicate (1600 - m) .emit ++ rest)) j (m + (1600 - m + 1))
  have hbefore := core_run_emits_streamed hemit (hassigned hinv) (m := 0) (n := m) (by omega)
    (.tick answers :: (List.replicate (1600 - m) .emit ++ rest)) (j + 1)
  have htick := core_run_tick_streamed hdue hcur answers m (List.replicate (1600 - m) .emit ++ rest) (j + 1 + m)
    (1600 - m)
  have hafter := core_run_emits_streamed ((State.tick_emitEnabled _ Config.hw answers).trans hemit)
    (hassigned (hinv.tick hdue answers)) (m := m) (n := 1600 - m) (by omega) rest (j + 1 + m + 1)
  have hsteps : m + (1600 - m + 1) + 1 = 1602 := by omega
  have hwords : m + (1600 - m) = 1600 := by omega
  rw [hsteps] at hstart
  rw [State.streamed_zero rfl rfl, Nat.zero_add] at hbefore
  rw [hwords, ← State.streamed_tick hcur 1600] at hafter
  exact ⟨_, hstart.trans ((core_run_add hbefore).trans (htick.trans hafter))⟩

/-- Settles O40: the line period is `core_run_linePeriod`, and the tick that ends it leaves the machine ready. -/
theorem linePeriodStreamsTheLatchedBuffer : Obligations.LinePeriodStreamsTheLatchedBuffer := by
  intro s m answers rest h hrun hrst hpos hpend hm hsched
  obtain ⟨j, hperiod⟩ := core_run_linePeriod h hrun hrst hpos hpend hm answers rest s.now
  rw [State.atSchedule_eq_self hsched] at hperiod
  refine ⟨_, hperiod, ?_⟩
  have hout := s.beginLine.streamed_line_out64
  have hline := ((s.beginLine.streamed 1600).atSchedule rest j).tick_line Config.hw answers
  obtain ⟨line, b, v0, v1, reads, heq⟩ :=
    ((s.beginLine.streamed 1600).atSchedule rest j).tick_reach Config.hw answers
  rw [heq] at hline ⊢
  exact ⟨hout, rfl, hline, rfl, rfl, rfl, rfl, hrun, rfl, rfl, rfl⟩

end Sys2Proof.Machine
end

section
/-! PROOFS. `INIT` (45_init.md): what it does in each `STATE`, what it keeps of the encoded table, and what is left to do
by a second one (R260, R265, R267, R271). -/

namespace Sys2Proof.Machine

/-! ## The three cases of INIT (R260, R261, R271) -/

theorem exec_init_of_failed {s : State} (h : s.drv = .failed) : exec .init s = .next s := by
  change execInit s = .next s
  rw [execInit, if_pos h]

theorem exec_init_of_resOk {s : State} (hd : s.drv ≠ .failed) (hres : s.ports.resOk = true) :
    exec .init s = .next (s.initSequence Config.hw) := by
  change execInit s = _
  rw [execInit, if_neg hd, if_neg (by simp [hres])]

/-- Settles O20: the sequence is `initSequence_eq`; of the table it leaves, every slot but 255 is rebuilt
(`palTable_ctrlTable_get`). -/
theorem initStartsTheMachine : Obligations.InitStartsTheMachine := by
  intro s hd hres
  obtain ⟨hpal, hctl⟩ := palTable_ctrlTable_get Config.hw s.palRgb s.tab
  have hlast : (palTable Config.hw s.palRgb (ctrlTable Config.hw s.tab)).get 255 = s.tab.get 255 := by
    rw [palTable_get, dif_neg (by decide), ctrlTable_get, if_neg (by decide)]
  refine ⟨_, exec_init_of_resOk hd hres, ?_⟩
  rw [State.initSequence_eq]
  exact ⟨hpal, hctl, hlast, rfl⟩

/-! ## FAILED is left by reset alone (R271) -/

/-- A command in FAILED makes its micro-writes at most: `INIT` does nothing there. -/
theorem exec_keeps_failed {i : Instr} {s t : State} (hf : s.drv = .failed) (h : exec i s = .next t) :
    t.drv = .failed := by
  rcases exec_cases h with ⟨-, -, rfl⟩ | ⟨-, hne, -⟩ | ⟨-, hne, -⟩ | ⟨ws, -, rfl⟩
  · exact hf
  · exact absurd hf hne
  · exact absurd hf hne
  · exact (s.applyMicros_drv ws).trans hf

/-- No event but the assertion of `RST` leaves FAILED: the handler and the pipeline have no step there, and a host
command keeps it (`exec_keeps_failed`). -/
theorem runEvent_keeps_failed {e : Event} {s t : State} (hf : s.drv = .failed) (hrst : e ≠ .drive (.rst true))
    (h : runEvent e s = .next t) : t.drv = .failed := by
  rcases runEvent_cases h with rfl | ⟨d, rfl, rfl⟩ | ⟨a, b, -, rfl⟩ | ⟨-, -, -, rfl⟩ | ⟨i, -, -, -, -, hx⟩ |
    ⟨i, ws, -, -, -, -, -, rfl⟩ | ⟨-, -, rfl⟩ | ⟨answers, -, ht, -⟩ | ⟨-, hl, -, -⟩ | ⟨-, hm, -, -, -⟩ |
    ⟨-, hm, -, -, -⟩
  · exact hf
  · simpa [s.drivePort_of_ne (d := d) (by simpa using hrst)] using hf
  · exact hf
  · exact hf
  · exact exec_keeps_failed (s.takeCommand_drv.trans hf) hx
  · exact hf
  · obtain ⟨ws, rest, hreach⟩ := s.nextMicro_reach
    rw [hreach]
    exact (s.applyMicros_drv ws).trans hf
  · obtain ⟨-, hrun, -⟩ := s.tickEnabled_iff.mp ht
    cases hf.symm.trans hrun
  · obtain ⟨-, hrun, -⟩ := s.lineStartEnabled_iff.mp hl
    cases hf.symm.trans hrun
  · obtain ⟨-, hrun, -⟩ := s.emitEnabled_iff.mp hm
    cases hf.symm.trans hrun
  · obtain ⟨-, hrun, -⟩ := s.emitEnabled_iff.mp hm
    cases hf.symm.trans hrun

/-- Settles O22: taking an event off the schedule leaves `STATE` alone, and only asserting `RST` leaves FAILED. -/
theorem onlyResetLeavesFailed : Obligations.OnlyResetLeavesFailed := by
  refine ⟨fun s hf => exec_init_of_failed hf, fun s t hf hstep hrst => ?_⟩
  have hnext : (nextEvent s).2.drv = .failed := by
    rw [nextEvent_frame]
    exact hf
  exact runEvent_keeps_failed hnext hrst hstep

/-! ## A second INIT (R267) -/

/-- The sequence reads only what it does not write, but for the table, and rebuilding the table twice is rebuilding it
once (`palTable_ctrlTable_twice`). -/
theorem State.initSequence_twice (s : State) (p : Params) : (s.initSequence p).initSequence p = s.initSequence p := by
  simp only [State.initSequence_eq, palTable_ctrlTable_twice]

/-- Rebuilding changes nothing in a table that has the palette entries of its colours and the control entries. -/
theorem palTable_ctrlTable_eq_self {p : Params} {c : Bank Rgb 251} {t : Bank Entry 256}
    (hpal : ∀ i : PalIndex, t.get (palSlot i) = entry p (c.get i))
    (hctl : ∀ k : Fin 4, t.get ⟨251 + k.val, by omega⟩ = ctlEntry p k.val) :
    palTable p c (ctrlTable p t) = t := by
  apply Bank.ext_get
  intro k
  rw [palTable_get]
  split_ifs with hk
  · exact (hpal ⟨k.val, hk⟩).symm
  · rw [ctrlTable_get]
    split_ifs with hk'
    · obtain ⟨hle, hlt⟩ := hk'
      have hentry := hctl ⟨k.val - 251, by omega⟩
      simp only [Nat.add_sub_of_le hle] at hentry
      exact hentry.symm
    · rfl

/-- In a RUNNING state of the invariant with no command in progress the sequence finds the enables, the table and `SRC`
as it leaves them: only the line in progress and the pending interrupt go. -/
theorem State.Inv.initSequence_of_running {s : State} (h : s.Inv) (hrun : s.drv = .running) (hs : s.hostPend = []) :
    s.initSequence Config.hw = { s with pos := 800, phase := false, irqPend := false } := by
  have hpal : s.PaletteMatches := by simpa [hs] using h.paletteMatches
  obtain ⟨hirq, hpipe, hcfg⟩ := h.enabled hrun
  simp only [State.initSequence_eq, palTable_ctrlTable_eq_self hpal (h.control hrun), hirq, hpipe, hcfg, hrun,
    h.abortClear, h.srcIsBuf]

/-- Settles O23: the first `INIT` by its three cases, each of which a second one leaves as it is; while RUNNING by
`initSequence_of_running`. -/
theorem initIsIdempotent : Obligations.InitIsIdempotent := by
  constructor
  · intro s t h
    rcases exec_cases h with ⟨-, hf, rfl⟩ | ⟨-, -, -, rfl⟩ | ⟨-, -, hres, rfl⟩ | ⟨ws, hw, -⟩
    · exact exec_init_of_failed hf
    · exact exec_init_of_failed s.raiseFatalInit_drv
    · have hrun : (s.initSequence Config.hw).drv ≠ .failed := by simp [State.initSequence_eq]
      have hres' : (s.initSequence Config.hw).ports.resOk = true := by rwa [State.initSequence_eq]
      rw [exec_init_of_resOk hrun hres', State.initSequence_twice]
    · cases hw
  · intro s h hrun hs hres
    rw [exec_init_of_resOk (by simp [hrun]) hres, h.initSequence_of_running hrun hs]

end Sys2Proof.Machine
end

section
/-! PROOFS. `FatalInit` (60_exceptions.md): what an `INIT` without resources does, and that a command made of
micro-writes does the same in FAILED as in any other `STATE` (R261, R281). -/

namespace Sys2Proof.Machine

/-! ## INIT without resources (R261) -/

theorem exec_init_of_resOk_false {s : State} (hd : s.drv ≠ .failed) (hres : s.ports.resOk = false) :
    exec .init s = .next s.raiseFatalInit := by
  change execInit s = _
  rw [execInit, if_neg hd, if_pos hres]

/-! ## Commands do not depend on `STATE` (R281) -/

/-- A micro-write neither reads nor writes `STATE`. -/
theorem State.applyMicro_raiseFatalInit (s : State) (w : MicroWrite) :
    s.raiseFatalInit.applyMicro w = (s.applyMicro w).raiseFatalInit := by
  cases w <;> rfl

theorem State.applyMicros_raiseFatalInit (s : State) (ws : List MicroWrite) :
    s.raiseFatalInit.applyMicros ws = (s.applyMicros ws).raiseFatalInit := by
  induction ws generalizing s with
  | nil => rfl
  | cons w ws ih => rw [State.applyMicros_cons, State.applyMicro_raiseFatalInit, ih, State.applyMicros_cons]

/-- Every command but `INIT` makes its micro-writes, whatever `STATE` is. -/
theorem exec_raiseFatalInit {i : Instr} {s t : State} (hi : i ≠ .init) (h : exec i s = .next t) :
    exec i s.raiseFatalInit = .next t.raiseFatalInit := by
  rcases exec_cases h with ⟨hinit, -⟩ | ⟨hinit, -⟩ | ⟨hinit, -⟩ | ⟨ws, hw, rfl⟩
  iterate 3 exact absurd hinit hi
  rw [exec_of_commandWrites hw, State.applyMicros_raiseFatalInit]

/-- Settles O21: `FatalInit` writes `STATE` alone, a machine that is not RUNNING has no step of its own
(`onlyRunningMachineMoves`), and a command's micro-writes do not look at `STATE` (`exec_raiseFatalInit`). -/
theorem initWithoutResourcesFails : Obligations.InitWithoutResourcesFails := by
  refine ⟨fun s hd hres => exec_init_of_resOk_false hd hres, fun s hf => ?_, fun i s t hi h => exec_raiseFatalInit hi h⟩
  have hstop : s.drv ≠ .running := by simp [hf]
  exact onlyRunningMachineMoves s hstop

end Sys2Proof.Machine
end

section
/-! PROOFS. Reset and hazards (70_reset_and_hazards.md): nothing moves while `RST` is asserted (R310), and a `LINE_START`
on a pending interrupt is an overrun (R323). -/

namespace Sys2Proof.Machine

/-! ## `RST` asserted (R310) -/

/-- A waiting word is refused before it is decoded, whatever would run it (U20, log 15). -/
theorem takeWord_of_rst (run : Instr → State → Host.Outcome State Fault Refusal) {s : State} (hr : s.ports.rst = true)
    (hp : s.hostPend = []) (hv : s.ports.cmdValid = true) : takeWord run s = .refused .commandDuringReset := by
  rw [takeWord, if_pos (s.commandReady_iff.mpr ⟨hv, hp⟩), if_pos hr]

/-- Settles O28: both ways of taking a command refuse it (`takeWord_of_rst`), a micro-write asks for `RST` low itself, and
so does the enabling condition of every other agent. -/
theorem nothingRunsDuringReset : Obligations.NothingRunsDuringReset := by
  intro s hr
  have not_low : s.ports.rst ≠ false := by simp [hr]
  refine ⟨fun hp hv => ⟨takeWord_of_rst exec hr hp hv, takeWord_of_rst beginSplit hr hp hv⟩, if_pos hr,
    if_neg fun he => ?lineStart, if_neg fun he => ?emit, fun answers => if_neg fun he => ?tick⟩
  case lineStart =>
    obtain ⟨hlow, -⟩ := s.lineStartEnabled_iff.mp he
    exact not_low hlow
  case emit =>
    obtain ⟨hlow, -⟩ := s.emitEnabled_iff.mp he
    exact not_low hlow
  case tick =>
    obtain ⟨hlow, -⟩ := s.tickEnabled_iff.mp he
    exact not_low hlow

/-! ## Overrun (R323) -/

/-- Settles O36: an enabled `LINE_START` is `lineStart`, which looks at the interrupt before it begins the line. -/
theorem overrunIsAFault : Obligations.OverrunIsAFault := by
  intro s he hpend
  rw [runEvent, if_pos he, lineStart, if_pos hpend]

end Sys2Proof.Machine
end
